-- ==== Sys2Proof/Word.lean ====
section
/-! DEFINITION. The word types of the block: the widths that 00_scope.md rule R6 fixes. -/

namespace Sys2Proof

/-- One byte of memory (R51). -/
abbrev Byte := BitVec 8

/-- A 32-bit value: an instruction word, an address or the program counter (R6). -/
abbrev Word := BitVec 32

/-- A 64-bit value: a general register, HI or LO (R6). -/
abbrev Dword := BitVec 64

/-- A general register index: a 5-bit instruction field, so always from 0 to 31 (R22). -/
abbrev Reg := BitVec 5

end Sys2Proof
end

