-- ==== Sys2Proof/Syntax.lean ====
section
/-! DEFINITION. The instructions: one constructor per row of spec/opcode_table.json, its arguments the fields the
row leaves free, in the order of the encoding from the high bits down (30_encoding.md rules R80 to R82). -/

namespace Sys2Proof

/-- The 55 admitted instructions (R92, D2). `imm` is the raw 16-bit field, `target` the raw 26-bit field, `sa` the
5-bit shift amount (R80). -/
inductive Instr where
  -- SPECIAL: shifts (R171 to R176)
  | sll (rt rd : Reg) (sa : BitVec 5)
  | srl (rt rd : Reg) (sa : BitVec 5)
  | sra (rt rd : Reg) (sa : BitVec 5)
  | sllv (rs rt rd : Reg)
  | srlv (rs rt rd : Reg)
  | srav (rs rt rd : Reg)
  -- SPECIAL: register jumps (R253, R254)
  | jr (rs : Reg)
  | jalr (rs rd : Reg)
  -- SPECIAL: HI and LO (R191 to R198)
  | mfhi (rd : Reg)
  | mthi (rs : Reg)
  | mflo (rd : Reg)
  | mtlo (rs : Reg)
  | mult (rs rt : Reg)
  | multu (rs rt : Reg)
  | div (rs rt : Reg)
  | divu (rs rt : Reg)
  -- SPECIAL: add, subtract, logic, compare (R161 to R170)
  | add (rs rt rd : Reg)
  | addu (rs rt rd : Reg)
  | sub (rs rt rd : Reg)
  | subu (rs rt rd : Reg)
  | and (rs rt rd : Reg)
  | or (rs rt rd : Reg)
  | xor (rs rt rd : Reg)
  | nor (rs rt rd : Reg)
  | slt (rs rt rd : Reg)
  | sltu (rs rt rd : Reg)
  -- REGIMM (R247 to R250)
  | bltz (rs : Reg) (imm : BitVec 16)
  | bgez (rs : Reg) (imm : BitVec 16)
  | bltzal (rs : Reg) (imm : BitVec 16)
  | bgezal (rs : Reg) (imm : BitVec 16)
  -- J-type (R251, R252)
  | j (target : BitVec 26)
  | jal (target : BitVec 26)
  -- I-type branches (R243 to R246)
  | beq (rs rt : Reg) (imm : BitVec 16)
  | bne (rs rt : Reg) (imm : BitVec 16)
  | blez (rs : Reg) (imm : BitVec 16)
  | bgtz (rs : Reg) (imm : BitVec 16)
  -- immediate arithmetic (R142 to R149)
  | addi (rs rt : Reg) (imm : BitVec 16)
  | addiu (rs rt : Reg) (imm : BitVec 16)
  | slti (rs rt : Reg) (imm : BitVec 16)
  | sltiu (rs rt : Reg) (imm : BitVec 16)
  | andi (rs rt : Reg) (imm : BitVec 16)
  | ori (rs rt : Reg) (imm : BitVec 16)
  | xori (rs rt : Reg) (imm : BitVec 16)
  | lui (rt : Reg) (imm : BitVec 16)
  -- loads and stores (R213 to R223)
  | lb (rs rt : Reg) (imm : BitVec 16)
  | lh (rs rt : Reg) (imm : BitVec 16)
  | lw (rs rt : Reg) (imm : BitVec 16)
  | lbu (rs rt : Reg) (imm : BitVec 16)
  | lhu (rs rt : Reg) (imm : BitVec 16)
  | lwu (rs rt : Reg) (imm : BitVec 16)
  | sb (rs rt : Reg) (imm : BitVec 16)
  | sh (rs rt : Reg) (imm : BitVec 16)
  | sw (rs rt : Reg) (imm : BitVec 16)
  | ld (rs rt : Reg) (imm : BitVec 16)
  | sd (rs rt : Reg) (imm : BitVec 16)
  deriving DecidableEq, Repr

/-- The classes of a decoded instruction (R80, R92). -/
inductive OpClass where
  | arithmeticImmediate
  | arithmeticRegister
  | load
  | store
  | branch
  | jump
  | unknown
  deriving DecidableEq, Repr

/-- Why a word decodes as Unknown: the four cases of R97, in its order. -/
inductive UnknownCase where
  /-- the primary opcode is marked Unknown in R88 -/
  | opcode
  /-- SPECIAL, and the function code is marked Unknown in R89 -/
  | function
  /-- REGIMM, and the selector is marked Unknown in R90 -/
  | selector
  /-- a must-be-zero field of R91 is nonzero -/
  | reservedField
  deriving DecidableEq, Repr

/-- What the Decoder produces (R80): an instruction, or Unknown carrying the raw word (R97). -/
inductive DecodedInstruction where
  | known (i : Instr)
  | unknown (case : UnknownCase) (w : Word)
  deriving DecidableEq, Repr

end Sys2Proof
end

