-- ==== Sys2Proof/WellFormed.lean ====
section
/-! DEFINITION. Well-formed instructions. Every field has its exact width in `Instr`, so every term has an encoding
and is decoded from it. What is left to check is the operand rule of 45_branch_jump.md: a link register that is also
the source. The machine gives the ill-formed ones their meaning too: the fault of R249, R250 and R254. -/

namespace Sys2Proof

/-- BLTZAL and BGEZAL must not name r31 as their source (R249, R250), and JALR must not name one register as both
source and link (R254). -/
def Instr.wellFormed : Instr → Bool
  | .bltzal rs _ => rs != 31#5
  | .bgezal rs _ => rs != 31#5
  | .jalr rs rd => rs != rd
  | .sll _ _ _ | .srl _ _ _ | .sra _ _ _ | .sllv _ _ _ | .srlv _ _ _ | .srav _ _ _ => true
  | .jr _ | .mfhi _ | .mthi _ | .mflo _ | .mtlo _ => true
  | .mult _ _ | .multu _ _ | .div _ _ | .divu _ _ => true
  | .add _ _ _ | .addu _ _ _ | .sub _ _ _ | .subu _ _ _ | .and _ _ _ | .or _ _ _ | .xor _ _ _ | .nor _ _ _ => true
  | .slt _ _ _ | .sltu _ _ _ => true
  | .bltz _ _ | .bgez _ _ | .j _ | .jal _ | .beq _ _ _ | .bne _ _ _ | .blez _ _ | .bgtz _ _ => true
  | .addi _ _ _ | .addiu _ _ _ | .slti _ _ _ | .sltiu _ _ _ | .andi _ _ _ | .ori _ _ _ | .xori _ _ _ | .lui _ _ => true
  | .lb _ _ _ | .lh _ _ _ | .lw _ _ _ | .lbu _ _ _ | .lhu _ _ _ | .lwu _ _ _ | .ld _ _ _ => true
  | .sb _ _ _ | .sh _ _ _ | .sw _ _ _ | .sd _ _ _ => true

end Sys2Proof
end

