-- ==== Sys2Proof/Decode.lean ====
section
/-! DEFINITION. The Decoder (30_encoding.md): total, pure and stateless (R83), and after it the encoder. -/

namespace Sys2Proof

/-! ### Fields (R12, R81) -/

/-- `op`, bits 31 to 26. -/
def opField (w : Word) : BitVec 6 := w.extractLsb' 26 6
/-- `rs`, bits 25 to 21. -/
def rsField (w : Word) : Reg := w.extractLsb' 21 5
/-- `rt`, bits 20 to 16. -/
def rtField (w : Word) : Reg := w.extractLsb' 16 5
/-- `rd`, bits 15 to 11. -/
def rdField (w : Word) : Reg := w.extractLsb' 11 5
/-- `sa`, bits 10 to 6. -/
def saField (w : Word) : BitVec 5 := w.extractLsb' 6 5
/-- `funct`, bits 5 to 0. -/
def functField (w : Word) : BitVec 6 := w.extractLsb' 0 6
/-- `imm`, bits 15 to 0. -/
def immField (w : Word) : BitVec 16 := w.extractLsb' 0 16
/-- `target`, bits 25 to 0. -/
def targetField (w : Word) : BitVec 26 := w.extractLsb' 0 26

/-! ### Decoding -/

/-- An admitted opcode is the instruction `i` when its must-be-zero fields are zero, and Unknown otherwise (R91). -/
def whenReservedZero (reservedZero : Bool) (w : Word) (i : Instr) : DecodedInstruction :=
  if reservedZero then .known i else .unknown .reservedField w

/-- SPECIAL, `op` = 0: the function code selects (R89), and R91 says which fields must be zero. -/
def decodeSpecial (w : Word) : DecodedInstruction :=
  let rs := rsField w
  let rt := rtField w
  let rd := rdField w
  let sa := saField w
  match (functField w).toNat with
  | 0x00 => whenReservedZero (rs == 0#5) w (.sll rt rd sa)
  | 0x02 => whenReservedZero (rs == 0#5) w (.srl rt rd sa)
  | 0x03 => whenReservedZero (rs == 0#5) w (.sra rt rd sa)
  | 0x04 => whenReservedZero (sa == 0#5) w (.sllv rs rt rd)
  | 0x06 => whenReservedZero (sa == 0#5) w (.srlv rs rt rd)
  | 0x07 => whenReservedZero (sa == 0#5) w (.srav rs rt rd)
  | 0x08 => whenReservedZero (rt == 0#5 && rd == 0#5 && sa == 0#5) w (.jr rs)
  | 0x09 => whenReservedZero (rt == 0#5 && sa == 0#5) w (.jalr rs rd)
  | 0x10 => whenReservedZero (rs == 0#5 && rt == 0#5 && sa == 0#5) w (.mfhi rd)
  | 0x11 => whenReservedZero (rt == 0#5 && rd == 0#5 && sa == 0#5) w (.mthi rs)
  | 0x12 => whenReservedZero (rs == 0#5 && rt == 0#5 && sa == 0#5) w (.mflo rd)
  | 0x13 => whenReservedZero (rt == 0#5 && rd == 0#5 && sa == 0#5) w (.mtlo rs)
  | 0x18 => whenReservedZero (rd == 0#5 && sa == 0#5) w (.mult rs rt)
  | 0x19 => whenReservedZero (rd == 0#5 && sa == 0#5) w (.multu rs rt)
  | 0x1A => whenReservedZero (rd == 0#5 && sa == 0#5) w (.div rs rt)
  | 0x1B => whenReservedZero (rd == 0#5 && sa == 0#5) w (.divu rs rt)
  | 0x20 => whenReservedZero (sa == 0#5) w (.add rs rt rd)
  | 0x21 => whenReservedZero (sa == 0#5) w (.addu rs rt rd)
  | 0x22 => whenReservedZero (sa == 0#5) w (.sub rs rt rd)
  | 0x23 => whenReservedZero (sa == 0#5) w (.subu rs rt rd)
  | 0x24 => whenReservedZero (sa == 0#5) w (.and rs rt rd)
  | 0x25 => whenReservedZero (sa == 0#5) w (.or rs rt rd)
  | 0x26 => whenReservedZero (sa == 0#5) w (.xor rs rt rd)
  | 0x27 => whenReservedZero (sa == 0#5) w (.nor rs rt rd)
  | 0x2A => whenReservedZero (sa == 0#5) w (.slt rs rt rd)
  | 0x2B => whenReservedZero (sa == 0#5) w (.sltu rs rt rd)
  | _ => .unknown .function w

/-- REGIMM, `op` = 1: the `rt` field selects (R90). -/
def decodeRegimm (w : Word) : DecodedInstruction :=
  let rs := rsField w
  let imm := immField w
  match (rtField w).toNat with
  | 0x00 => .known (.bltz rs imm)
  | 0x01 => .known (.bgez rs imm)
  | 0x10 => .known (.bltzal rs imm)
  | 0x11 => .known (.bgezal rs imm)
  | _ => .unknown .selector w

/-- `decode(word)` (R80): the primary opcode selects (R88). Every word it does not admit is Unknown (R97). -/
def decode (w : Word) : DecodedInstruction :=
  let rs := rsField w
  let rt := rtField w
  let imm := immField w
  match (opField w).toNat with
  | 0x00 => decodeSpecial w
  | 0x01 => decodeRegimm w
  | 0x02 => .known (.j (targetField w))
  | 0x03 => .known (.jal (targetField w))
  | 0x04 => .known (.beq rs rt imm)
  | 0x05 => .known (.bne rs rt imm)
  | 0x06 => whenReservedZero (rt == 0#5) w (.blez rs imm)
  | 0x07 => whenReservedZero (rt == 0#5) w (.bgtz rs imm)
  | 0x08 => .known (.addi rs rt imm)
  | 0x09 => .known (.addiu rs rt imm)
  | 0x0A => .known (.slti rs rt imm)
  | 0x0B => .known (.sltiu rs rt imm)
  | 0x0C => .known (.andi rs rt imm)
  | 0x0D => .known (.ori rs rt imm)
  | 0x0E => .known (.xori rs rt imm)
  | 0x0F => whenReservedZero (rs == 0#5) w (.lui rt imm)
  | 0x20 => .known (.lb rs rt imm)
  | 0x21 => .known (.lh rs rt imm)
  | 0x23 => .known (.lw rs rt imm)
  | 0x24 => .known (.lbu rs rt imm)
  | 0x25 => .known (.lhu rs rt imm)
  | 0x27 => .known (.lwu rs rt imm)
  | 0x28 => .known (.sb rs rt imm)
  | 0x29 => .known (.sh rs rt imm)
  | 0x2B => .known (.sw rs rt imm)
  | 0x37 => .known (.ld rs rt imm)
  | 0x3F => .known (.sd rs rt imm)
  | _ => .unknown .opcode w

/-- The instruction a decoded word is, if it is one. -/
def DecodedInstruction.instr? : DecodedInstruction → Option Instr
  | .known i => some i
  | .unknown _ _ => none

/-- The word that four bytes make, the byte at the lowest address first (R58, R61). -/
def wordOfBytes (b0 b1 b2 b3 : Byte) : Word := b0 ++ b1 ++ b2 ++ b3

/-- The four bytes of a word as memory holds it, the lowest address first (R59). -/
def bytesOfWord (w : Word) : List Byte :=
  [w.extractLsb' 24 8, w.extractLsb' 16 8, w.extractLsb' 8 8, w.extractLsb' 0 8]

/-- The decoder over memory bytes: it reads the first four and answers the rest of the list (R96). Fewer than four
bytes hold no instruction. -/
def decodeBytes : List Byte → Option (DecodedInstruction × List Byte)
  | b0 :: b1 :: b2 :: b3 :: rest => some (decode (wordOfBytes b0 b1 b2 b3), rest)
  | _ => none

/-- The instruction word whose bits are `w`, numbered as opcode_table.json numbers them, of which the row gives the
low `nbits`. Every row gives 32 (R96). -/
def tableWord (nbits w : Nat) : Word := BitVec.ofNat 32 (w % 2 ^ nbits)

/-- What the decoder reads from the bytes of an instruction whose bits are `w`. -/
def decodeTableWord (nbits w : Nat) : Option Instr :=
  match decodeBytes (bytesOfWord (tableWord nbits w)) with
  | some (d, _) => d.instr?
  | none => none

/-! ### Classes (R92) -/

/-- The class of an admitted instruction (R92). -/
def Instr.opClass : Instr → OpClass
  | .addi _ _ _ | .addiu _ _ _ | .slti _ _ _ | .sltiu _ _ _ => .arithmeticImmediate
  | .andi _ _ _ | .ori _ _ _ | .xori _ _ _ | .lui _ _ => .arithmeticImmediate
  | .add _ _ _ | .addu _ _ _ | .sub _ _ _ | .subu _ _ _ => .arithmeticRegister
  | .and _ _ _ | .or _ _ _ | .xor _ _ _ | .nor _ _ _ | .slt _ _ _ | .sltu _ _ _ => .arithmeticRegister
  | .sll _ _ _ | .srl _ _ _ | .sra _ _ _ | .sllv _ _ _ | .srlv _ _ _ | .srav _ _ _ => .arithmeticRegister
  | .mult _ _ | .multu _ _ | .div _ _ | .divu _ _ => .arithmeticRegister
  | .mfhi _ | .mflo _ | .mthi _ | .mtlo _ => .arithmeticRegister
  | .lb _ _ _ | .lbu _ _ _ | .lh _ _ _ | .lhu _ _ _ | .lw _ _ _ | .lwu _ _ _ | .ld _ _ _ => .load
  | .sb _ _ _ | .sh _ _ _ | .sw _ _ _ | .sd _ _ _ => .store
  | .beq _ _ _ | .bne _ _ _ | .blez _ _ | .bgtz _ _ => .branch
  | .bltz _ _ | .bgez _ _ | .bltzal _ _ | .bgezal _ _ => .branch
  | .j _ | .jal _ | .jr _ | .jalr _ _ => .jump

/-- The class of what the Decoder produces (R80, R92). -/
def DecodedInstruction.opClass : DecodedInstruction → OpClass
  | .known i => i.opClass
  | .unknown _ _ => .unknown

/-! ### The encoder (R82, R88 to R91) -/

/-- I-type: `op | rs | rt | imm`. -/
def encodeI (op : BitVec 6) (rs rt : Reg) (imm : BitVec 16) : Word := op ++ rs ++ rt ++ imm

/-- R-type: `0 | rs | rt | rd | sa | funct`. -/
def encodeR (rs rt rd : Reg) (sa : BitVec 5) (funct : BitVec 6) : Word := 0x00#6 ++ rs ++ rt ++ rd ++ sa ++ funct

/-- J-type: `op | target`. -/
def encodeJ (op : BitVec 6) (target : BitVec 26) : Word := op ++ target

/-- The word of an instruction, its must-be-zero fields zero. -/
def encode : Instr → Word
  | .sll rt rd sa => encodeR 0#5 rt rd sa 0x00#6
  | .srl rt rd sa => encodeR 0#5 rt rd sa 0x02#6
  | .sra rt rd sa => encodeR 0#5 rt rd sa 0x03#6
  | .sllv rs rt rd => encodeR rs rt rd 0#5 0x04#6
  | .srlv rs rt rd => encodeR rs rt rd 0#5 0x06#6
  | .srav rs rt rd => encodeR rs rt rd 0#5 0x07#6
  | .jr rs => encodeR rs 0#5 0#5 0#5 0x08#6
  | .jalr rs rd => encodeR rs 0#5 rd 0#5 0x09#6
  | .mfhi rd => encodeR 0#5 0#5 rd 0#5 0x10#6
  | .mthi rs => encodeR rs 0#5 0#5 0#5 0x11#6
  | .mflo rd => encodeR 0#5 0#5 rd 0#5 0x12#6
  | .mtlo rs => encodeR rs 0#5 0#5 0#5 0x13#6
  | .mult rs rt => encodeR rs rt 0#5 0#5 0x18#6
  | .multu rs rt => encodeR rs rt 0#5 0#5 0x19#6
  | .div rs rt => encodeR rs rt 0#5 0#5 0x1A#6
  | .divu rs rt => encodeR rs rt 0#5 0#5 0x1B#6
  | .add rs rt rd => encodeR rs rt rd 0#5 0x20#6
  | .addu rs rt rd => encodeR rs rt rd 0#5 0x21#6
  | .sub rs rt rd => encodeR rs rt rd 0#5 0x22#6
  | .subu rs rt rd => encodeR rs rt rd 0#5 0x23#6
  | .and rs rt rd => encodeR rs rt rd 0#5 0x24#6
  | .or rs rt rd => encodeR rs rt rd 0#5 0x25#6
  | .xor rs rt rd => encodeR rs rt rd 0#5 0x26#6
  | .nor rs rt rd => encodeR rs rt rd 0#5 0x27#6
  | .slt rs rt rd => encodeR rs rt rd 0#5 0x2A#6
  | .sltu rs rt rd => encodeR rs rt rd 0#5 0x2B#6
  | .bltz rs imm => encodeI 0x01#6 rs 0x00#5 imm
  | .bgez rs imm => encodeI 0x01#6 rs 0x01#5 imm
  | .bltzal rs imm => encodeI 0x01#6 rs 0x10#5 imm
  | .bgezal rs imm => encodeI 0x01#6 rs 0x11#5 imm
  | .j target => encodeJ 0x02#6 target
  | .jal target => encodeJ 0x03#6 target
  | .beq rs rt imm => encodeI 0x04#6 rs rt imm
  | .bne rs rt imm => encodeI 0x05#6 rs rt imm
  | .blez rs imm => encodeI 0x06#6 rs 0#5 imm
  | .bgtz rs imm => encodeI 0x07#6 rs 0#5 imm
  | .addi rs rt imm => encodeI 0x08#6 rs rt imm
  | .addiu rs rt imm => encodeI 0x09#6 rs rt imm
  | .slti rs rt imm => encodeI 0x0A#6 rs rt imm
  | .sltiu rs rt imm => encodeI 0x0B#6 rs rt imm
  | .andi rs rt imm => encodeI 0x0C#6 rs rt imm
  | .ori rs rt imm => encodeI 0x0D#6 rs rt imm
  | .xori rs rt imm => encodeI 0x0E#6 rs rt imm
  | .lui rt imm => encodeI 0x0F#6 0#5 rt imm
  | .lb rs rt imm => encodeI 0x20#6 rs rt imm
  | .lh rs rt imm => encodeI 0x21#6 rs rt imm
  | .lw rs rt imm => encodeI 0x23#6 rs rt imm
  | .lbu rs rt imm => encodeI 0x24#6 rs rt imm
  | .lhu rs rt imm => encodeI 0x25#6 rs rt imm
  | .lwu rs rt imm => encodeI 0x27#6 rs rt imm
  | .sb rs rt imm => encodeI 0x28#6 rs rt imm
  | .sh rs rt imm => encodeI 0x29#6 rs rt imm
  | .sw rs rt imm => encodeI 0x2B#6 rs rt imm
  | .ld rs rt imm => encodeI 0x37#6 rs rt imm
  | .sd rs rt imm => encodeI 0x3F#6 rs rt imm

/-! ### The opcode table, as spec/opcode_table.json prints it -/

/-- One row of the table: a word matches it when its bits under the mask are the row's. -/
structure OpcodeRow where
  mnemonic : String
  pattern : Word
  mask : Word
  deriving DecidableEq, Repr

/-- The rows of opcode_table.json with `op` = 0 (R89). -/
def opcodeRowsSpecial : List OpcodeRow := [
  ⟨"SLL", 0x00000000#32, 0xFFE0003F#32⟩,
  ⟨"SRL", 0x00000002#32, 0xFFE0003F#32⟩,
  ⟨"SRA", 0x00000003#32, 0xFFE0003F#32⟩,
  ⟨"SLLV", 0x00000004#32, 0xFC0007FF#32⟩,
  ⟨"SRLV", 0x00000006#32, 0xFC0007FF#32⟩,
  ⟨"SRAV", 0x00000007#32, 0xFC0007FF#32⟩,
  ⟨"JR", 0x00000008#32, 0xFC1FFFFF#32⟩,
  ⟨"JALR", 0x00000009#32, 0xFC1F07FF#32⟩,
  ⟨"MFHI", 0x00000010#32, 0xFFFF07FF#32⟩,
  ⟨"MTHI", 0x00000011#32, 0xFC1FFFFF#32⟩,
  ⟨"MFLO", 0x00000012#32, 0xFFFF07FF#32⟩,
  ⟨"MTLO", 0x00000013#32, 0xFC1FFFFF#32⟩,
  ⟨"MULT", 0x00000018#32, 0xFC00FFFF#32⟩,
  ⟨"MULTU", 0x00000019#32, 0xFC00FFFF#32⟩,
  ⟨"DIV", 0x0000001A#32, 0xFC00FFFF#32⟩,
  ⟨"DIVU", 0x0000001B#32, 0xFC00FFFF#32⟩,
  ⟨"ADD", 0x00000020#32, 0xFC0007FF#32⟩,
  ⟨"ADDU", 0x00000021#32, 0xFC0007FF#32⟩,
  ⟨"SUB", 0x00000022#32, 0xFC0007FF#32⟩,
  ⟨"SUBU", 0x00000023#32, 0xFC0007FF#32⟩,
  ⟨"AND", 0x00000024#32, 0xFC0007FF#32⟩,
  ⟨"OR", 0x00000025#32, 0xFC0007FF#32⟩,
  ⟨"XOR", 0x00000026#32, 0xFC0007FF#32⟩,
  ⟨"NOR", 0x00000027#32, 0xFC0007FF#32⟩,
  ⟨"SLT", 0x0000002A#32, 0xFC0007FF#32⟩,
  ⟨"SLTU", 0x0000002B#32, 0xFC0007FF#32⟩]

/-- The rows with `op` from 1 to 7: REGIMM, jumps and branches (R88, R90). -/
def opcodeRowsTransfer : List OpcodeRow := [
  ⟨"BLTZ", 0x04000000#32, 0xFC1F0000#32⟩,
  ⟨"BGEZ", 0x04010000#32, 0xFC1F0000#32⟩,
  ⟨"BLTZAL", 0x04100000#32, 0xFC1F0000#32⟩,
  ⟨"BGEZAL", 0x04110000#32, 0xFC1F0000#32⟩,
  ⟨"J", 0x08000000#32, 0xFC000000#32⟩,
  ⟨"JAL", 0x0C000000#32, 0xFC000000#32⟩,
  ⟨"BEQ", 0x10000000#32, 0xFC000000#32⟩,
  ⟨"BNE", 0x14000000#32, 0xFC000000#32⟩,
  ⟨"BLEZ", 0x18000000#32, 0xFC1F0000#32⟩,
  ⟨"BGTZ", 0x1C000000#32, 0xFC1F0000#32⟩]

/-- The rows with `op` from 8 up: immediate arithmetic, loads and stores (R88). -/
def opcodeRowsImmediate : List OpcodeRow := [
  ⟨"ADDI", 0x20000000#32, 0xFC000000#32⟩,
  ⟨"ADDIU", 0x24000000#32, 0xFC000000#32⟩,
  ⟨"SLTI", 0x28000000#32, 0xFC000000#32⟩,
  ⟨"SLTIU", 0x2C000000#32, 0xFC000000#32⟩,
  ⟨"ANDI", 0x30000000#32, 0xFC000000#32⟩,
  ⟨"ORI", 0x34000000#32, 0xFC000000#32⟩,
  ⟨"XORI", 0x38000000#32, 0xFC000000#32⟩,
  ⟨"LUI", 0x3C000000#32, 0xFFE00000#32⟩,
  ⟨"LB", 0x80000000#32, 0xFC000000#32⟩,
  ⟨"LH", 0x84000000#32, 0xFC000000#32⟩,
  ⟨"LW", 0x8C000000#32, 0xFC000000#32⟩,
  ⟨"LBU", 0x90000000#32, 0xFC000000#32⟩,
  ⟨"LHU", 0x94000000#32, 0xFC000000#32⟩,
  ⟨"LWU", 0x9C000000#32, 0xFC000000#32⟩,
  ⟨"SB", 0xA0000000#32, 0xFC000000#32⟩,
  ⟨"SH", 0xA4000000#32, 0xFC000000#32⟩,
  ⟨"SW", 0xAC000000#32, 0xFC000000#32⟩,
  ⟨"LD", 0xDC000000#32, 0xFC000000#32⟩,
  ⟨"SD", 0xFC000000#32, 0xFC000000#32⟩]

/-- The whole table. -/
def opcodeRows : List OpcodeRow := opcodeRowsSpecial ++ opcodeRowsTransfer ++ opcodeRowsImmediate

/-- A word matches a row. -/
def OpcodeRow.matchesWord (r : OpcodeRow) (w : Word) : Bool := w &&& r.mask == r.pattern

/-- A word matches some row of the table (R97). -/
def isTableWord (w : Word) : Bool := opcodeRows.any (fun r => r.matchesWord w)

/-- No word can match both rows: some bit that both masks hold differs (R97). -/
def OpcodeRow.disjoint (r q : OpcodeRow) : Bool := r.pattern &&& (r.mask &&& q.mask) != q.pattern &&& (r.mask &&& q.mask)

/-- The mnemonic of an instruction, as the table spells it. -/
def Instr.mnemonic : Instr → String
  | .sll _ _ _ => "SLL"
  | .srl _ _ _ => "SRL"
  | .sra _ _ _ => "SRA"
  | .sllv _ _ _ => "SLLV"
  | .srlv _ _ _ => "SRLV"
  | .srav _ _ _ => "SRAV"
  | .jr _ => "JR"
  | .jalr _ _ => "JALR"
  | .mfhi _ => "MFHI"
  | .mthi _ => "MTHI"
  | .mflo _ => "MFLO"
  | .mtlo _ => "MTLO"
  | .mult _ _ => "MULT"
  | .multu _ _ => "MULTU"
  | .div _ _ => "DIV"
  | .divu _ _ => "DIVU"
  | .add _ _ _ => "ADD"
  | .addu _ _ _ => "ADDU"
  | .sub _ _ _ => "SUB"
  | .subu _ _ _ => "SUBU"
  | .and _ _ _ => "AND"
  | .or _ _ _ => "OR"
  | .xor _ _ _ => "XOR"
  | .nor _ _ _ => "NOR"
  | .slt _ _ _ => "SLT"
  | .sltu _ _ _ => "SLTU"
  | .bltz _ _ => "BLTZ"
  | .bgez _ _ => "BGEZ"
  | .bltzal _ _ => "BLTZAL"
  | .bgezal _ _ => "BGEZAL"
  | .j _ => "J"
  | .jal _ => "JAL"
  | .beq _ _ _ => "BEQ"
  | .bne _ _ _ => "BNE"
  | .blez _ _ => "BLEZ"
  | .bgtz _ _ => "BGTZ"
  | .addi _ _ _ => "ADDI"
  | .addiu _ _ _ => "ADDIU"
  | .slti _ _ _ => "SLTI"
  | .sltiu _ _ _ => "SLTIU"
  | .andi _ _ _ => "ANDI"
  | .ori _ _ _ => "ORI"
  | .xori _ _ _ => "XORI"
  | .lui _ _ => "LUI"
  | .lb _ _ _ => "LB"
  | .lh _ _ _ => "LH"
  | .lw _ _ _ => "LW"
  | .lbu _ _ _ => "LBU"
  | .lhu _ _ _ => "LHU"
  | .lwu _ _ _ => "LWU"
  | .sb _ _ _ => "SB"
  | .sh _ _ _ => "SH"
  | .sw _ _ _ => "SW"
  | .ld _ _ _ => "LD"
  | .sd _ _ _ => "SD"

end Sys2Proof
end

