-- ==== Sys2Proof/Config.lean ====
section
/-! DEFINITION. The block's parameters (00_scope.md rules R6 and R7) and its one free value. -/

namespace Sys2Proof

/-- What a step does with an Unknown word (R7, R115). -/
inductive UnknownPolicy where
  /-- raise `DecodeUnknown` (the default) -/
  | fatal
  /-- skip the word and log it -/
  | skip
  deriving DecidableEq, Repr

/-- What becomes of a value that must be, and is not, a sign-extended 32-bit value (R7, D9). -/
inductive NonCanonicalPolicy where
  /-- raise `Unpredictable` (the default) -/
  | fault
  /-- use bits 31 to 0 -/
  | low32
  deriving DecidableEq, Repr

/-- The configuration fixed at `newInterpreter` (R131). The two memory-map parameters of R7 are fixed
earlier, at `mount`, and stand in `Machine.Memory`. -/
structure Config where
  unknownPolicy : UnknownPolicy
  nonCanonical32 : NonCanonicalPolicy
  deriving DecidableEq, Repr

/-- The defaults of R7: `Fatal` and `Fault`. -/
def Config.default : Config := { unknownPolicy := .fatal, nonCanonical32 := .fault }

/-- The fixed base of the cartridge region (R6, R53). -/
def cartridgeBase : Nat := 0x10000000

/-- The default base of RDRAM (R7, D6). -/
def rdramBaseDefault : Word := 0x00000000#32

/-- The default size of RDRAM, 4 MiB (R7, D6). -/
def rdramSizeDefault : Nat := 0x00400000

/-- The size of the 32-bit address space (R51, D28). -/
def addressLimit : Nat := 0x100000000

/-- The entry point of the machine after reset. R7 gives none: the caller supplies it. DESIGN CHOICE (log 2):
the entry point of the document's own scenario (R302). -/
def entryPointDefault : Word := 0x10000000#32

/-- The free value of the model: `divDraw`, the pair (HI, LO) that a division by zero leaves (R193, R194, D22).
It has no body, so nothing can be proved of a value of it. The argument is the number of draws taken before,
so each division takes its own draw (D35). DEDUCED form (log 3). -/
opaque Config.divDraw : Nat → Dword × Dword

end Sys2Proof
end

