-- ==== Sys2Proof/Machine/State.lean ====
section
/-! DEFINITION. The architectural state (10_state.md), the reasons the machine gives no next state, and reset. -/

namespace Sys2Proof.Machine

/-! ### Fault kinds and records (60_exceptions.md rules R270, R271, R273) -/

/-- The reasons of an `Unpredictable` fault (R271). -/
inductive UnpredictableReason where
  | branchInDelaySlot
  | nonCanonicalOperand
  | nonCanonicalAddress
  | linkRegisterSource
  | hiLoReadHazard
  | hiLoOverwrite
  deriving DecidableEq, Repr

/-- The kinds of step fault (R270, R271). -/
inductive FaultKind where
  | misaligned
  | unmapped
  | writeProtected
  | arithmeticOverflow
  | decodeUnknown
  | unpredictable (reason : UnpredictableReason)
  deriving DecidableEq, Repr

/-- The fault record `{kind, info, pc}` (R29, R273). -/
structure FaultRecord where
  kind : FaultKind
  info : Word
  pc : Word
  deriving DecidableEq, Repr

/-- The faults of one memory access (R56). -/
inductive AccessFault where
  | misaligned
  | unmapped
  | writeProtected
  deriving DecidableEq, Repr

/-! ### The pieces of the state -/

/-- The width of one memory access: `width ∈ {1,2,4,8} bytes` (R50). -/
inductive Width where
  | b1
  | b2
  | b4
  | b8
  deriving DecidableEq, Repr

/-- The branch delay state (R26). -/
inductive DelayState where
  /-- the next instruction is in no delay slot -/
  | normal
  /-- the next instruction is the slot of a transfer taken to `target` -/
  | slotTaken (target : Word)
  /-- the next instruction is the slot of a branch not taken -/
  | slotNotTaken
  deriving DecidableEq, Repr

/-- The interpreter status (R30). -/
inductive Status where
  | ready
  | running
  | faulted
  | halted
  deriving DecidableEq, Repr

/-- The AddressSpace (R50 to R53): the sizes of its two regions and their bytes. RDRAM is `rdramSize` bytes at
`rdramBase`; the cartridge is `cartLength` bytes at the fixed base. `cells` lists, by rising address, the bytes that
differ from the byte an unlisted address reads as. -/
structure Memory where
  rdramBase : Word
  rdramSize : Nat
  cartLength : Nat
  cells : List Host.Cell
  deriving DecidableEq, Repr

/-- The machine's state (10_state.md). `draws` is the model's own (log 3): the number of `divDraw` values taken. -/
structure State where
  /-- general registers r0 to r31 (R20); r0 is hard-wired in `State.reg` and `State.setReg` (R21) -/
  x : Vector Dword 32
  /-- multiply/divide result register HI (R24) -/
  hi : Dword
  /-- multiply/divide result register LO (R24) -/
  lo : Dword
  /-- program counter (R25) -/
  pc : Word
  /-- branch delay state (R26) -/
  delay : DelayState
  /-- steps since the last MFHI or MFLO, saturating at 2 (R27) -/
  sinceHiLoRead : Fin 3
  /-- a multiply or divide result has not been read (R28) -/
  hiloFresh : Bool
  /-- interpreter status (R30) -/
  status : Status
  /-- fault record (R29) -/
  fault : Option FaultRecord
  /-- the host's pending stop request (R112, R137) -/
  stopRequest : Bool
  /-- configuration, fixed at construction (R7, R131) -/
  cfg : Config
  /-- memory (R50) -/
  mem : Memory
  /-- the model's own: how many values of the free input `divDraw` have been taken (D35) -/
  draws : Nat
  deriving DecidableEq, Repr

/-! ### Outcomes that give no next state -/

/-- Why an operation stops with a fault. No step raises one: a step fault is an effect on the state (R276, log 1).
Only the host's own memory access does. -/
inductive Fault where
  /-- Raised by `hostRead` and `hostWrite`: the access of the HOST at `address` fails a check of R56. It is returned
  to the host and changes nothing (R71, R280). Safe. -/
  | hostAccess (kind : AccessFault) (address : Word)
  deriving DecidableEq, Repr

/-- Why the model gives an operation no meaning. No step raises one. -/
inductive Refusal where
  /-- Raised by an arm of `exec` whose instruction has no meaning yet (there is none). Safe. -/
  | notModelled (mnemonic : String)
  /-- Raised by `mount`: the regions overlap, or one passes 2^32, or RDRAM is empty (R311, D28). Safe. -/
  | mountRefused
  /-- Raised by `getRegister` and `setRegister` for an index above 31 (R134, D29). Safe. -/
  | registerIndex (index : Nat)
  /-- Raised by `hostBoundary`: two host operations in flight at once (R139). Safe. -/
  | concurrentHostOperations
  deriving DecidableEq, Repr

/-! ### Reset (R36) -/

/-- The AddressSpace that `mount` builds from an empty image in the default map (R53, R311): RDRAM all zero and no
cartridge region. -/
def Memory.empty : Memory :=
  { rdramBase := rdramBaseDefault, rdramSize := rdramSizeDefault, cartLength := 0, cells := [] }

/-- The machine right after construction (R36, R131), in the default configuration, with no image mounted. The entry
point is a DESIGN CHOICE (log 2), as is `draws` (log 3). -/
def State.reset : State where
  x := Vector.replicate 32 0#64
  hi := 0#64
  lo := 0#64
  pc := entryPointDefault
  delay := .normal
  sinceHiLoRead := 2
  hiloFresh := false
  status := .ready
  fault := none
  stopRequest := false
  cfg := Config.default
  mem := Memory.empty
  draws := 0

end Sys2Proof.Machine
end

