-- ==== Sys2Proof/Machine/Ops.lean ====
section
/-! DEFINITION. The named operations over registers and memory, the effect of an instruction, the completion of a step
and the taking of a fault, each said once. -/

namespace Sys2Proof.Machine

/-! ### General registers (R20 to R22) -/

/-- `get(index)`: r0 reads as zero (R21, R22). -/
def State.reg (s : State) (r : Reg) : Dword := if r = 0#5 then 0#64 else s.x[r.toNat]'r.isLt

/-- `set(index, value)`: a write to r0 changes no state (R21, R22). -/
def State.setReg (s : State) (r : Reg) (v : Dword) : State :=
  if r = 0#5 then s else { s with x := s.x.set r.toNat v r.isLt }

/-- A register that an instruction can write, as a StepResult names it (R124). -/
inductive RegName where
  | x (r : Reg)
  | hi
  | lo
  deriving DecidableEq, Repr

/-- The value of a named register. -/
def State.readName (s : State) : RegName → Dword
  | .x r => s.reg r
  | .hi => s.hi
  | .lo => s.lo

/-- Write a named register. -/
def State.writeName (s : State) (n : RegName) (v : Dword) : State :=
  match n with
  | .x r => s.setReg r v
  | .hi => { s with hi := v }
  | .lo => { s with lo := v }

/-! ### Memory (20_memory.md) -/

/-- The number of bytes of an access (R50, R63). -/
def Width.bytes : Width → Nat
  | .b1 => 1
  | .b2 => 2
  | .b4 => 4
  | .b8 => 8

/-- What an address that no cell lists reads as: the initial byte of RDRAM (R53, R66). A cartridge byte of zero is
not listed either. -/
def unlistedByte : Byte := 0x00#8

/-- The byte at `a` in a list of cells. -/
def cellsGet : List Host.Cell → Nat → Byte
  | [], _ => unlistedByte
  | (k, b) :: rest, a => if a = k then b else cellsGet rest a

/-- Put the byte `v` at `a`, keeping the canonical form. -/
def cellsSet : List Host.Cell → Nat → Byte → List Host.Cell
  | [], a, v => if v = unlistedByte then [] else [(a, v)]
  | (k, b) :: rest, a, v =>
    if a < k then (if v = unlistedByte then (k, b) :: rest else (a, v) :: (k, b) :: rest)
    else if a = k then (if v = unlistedByte then rest else (a, v) :: rest)
    else (k, b) :: cellsSet rest a v

/-- One byte of memory. The accesses of the block reach it only through the checks of R56. -/
def Memory.byteAt (m : Memory) (a : Nat) : Byte := cellsGet m.cells a

/-- Replace one byte of memory. -/
def Memory.setByte (m : Memory) (a : Nat) (v : Byte) : Memory := { m with cells := cellsSet m.cells a v }

/-- The permission of a region (R51). -/
inductive Permission where
  | readOnly
  | readWrite
  deriving DecidableEq, Repr

/-- A MemoryRegion descriptor (R51). Its backing store is the cells at its addresses. -/
structure Region where
  base : Nat
  length : Nat
  permission : Permission
  deriving DecidableEq, Repr

/-- An access of `n` bytes at `a` lies wholly in the region (R54). -/
def Region.holds (g : Region) (a n : Nat) : Bool := decide (g.base ≤ a) && decide (a + n ≤ g.base + g.length)

/-- The RDRAM region (R53). -/
def Memory.rdram (m : Memory) : Region := { base := m.rdramBase.toNat, length := m.rdramSize, permission := .readWrite }

/-- The cartridge region (R53). -/
def Memory.cartridge (m : Memory) : Region := { base := cartridgeBase, length := m.cartLength, permission := .readOnly }

/-- The regions of the address map, ordered by base (R51, R53). An empty image gives no cartridge region (R311). -/
def Memory.regions (m : Memory) : List Region :=
  if m.cartLength = 0 then [m.rdram]
  else if m.rdram.base < cartridgeBase then [m.rdram, m.cartridge]
  else [m.cartridge, m.rdram]

/-- The region that holds the whole access, if there is one (R54). -/
def Memory.regionOf (m : Memory) (a n : Nat) : Option Region := m.regions.find? (fun g => g.holds a n)

/-- The address lies in some region (R52). -/
def Memory.mapped (m : Memory) (a : Nat) : Bool := (m.regionOf a 1).isSome

/-- The map is one that `mount` may build: RDRAM is not empty (R7), each region ends within the 32-bit space (R51) and
the two do not overlap (R52, R311). -/
def Memory.mapOk (m : Memory) : Bool :=
  decide (0 < m.rdramSize) && decide (m.rdramBase.toNat + m.rdramSize ≤ addressLimit) &&
  decide (cartridgeBase + m.cartLength ≤ addressLimit) &&
  (decide (m.cartLength = 0) || decide (m.rdramBase.toNat + m.rdramSize ≤ cartridgeBase) ||
    decide (cartridgeBase + m.cartLength ≤ m.rdramBase.toNat))

/-- The canonical form: the map is legal, addresses strictly rise, no cell holds the byte an unlisted address reads as,
and every cell lies in a region. -/
def Memory.wf (m : Memory) : Bool :=
  m.mapOk && decide (m.cells.Pairwise (fun c d => c.1 < d.1)) &&
  m.cells.all (fun c => c.2 != unlistedByte) && m.cells.all (fun c => m.mapped c.1)

/-- The first two checks of an access, in order: alignment (R55), then mapping (R54, R56). -/
def Memory.locate (m : Memory) (a : Word) (n : Width) : Except AccessFault Region :=
  if a.toNat % n.bytes ≠ 0 then .error .misaligned
  else
    match m.regionOf a.toNat n.bytes with
    | none => .error .unmapped
    | some g => .ok g

/-- The `n` bytes from `a` on as one value, the byte at the lowest address most significant (R58). -/
def Memory.load (m : Memory) (a : Nat) : Nat → Dword
  | 0 => 0#64
  | n + 1 => (m.load a n) <<< 8 ||| (m.byteAt (a + n)).setWidth 64

/-- Store the low `n` bytes of `v` from `a` on, the most significant of them at `a` (R59). -/
def Memory.store (m : Memory) (a : Nat) : Nat → Dword → Memory
  | 0, _ => m
  | n + 1, v => (m.store a n (v >>> 8)).setByte (a + n) (v.setWidth 8)

/-- `read(addr, n)`, the value zero-extended to 64 bits, or a fault (R50, R56). It changes nothing (R64). -/
def Memory.read (m : Memory) (a : Word) (n : Width) : Except AccessFault Dword := do
  let _ ← m.locate a n
  return m.load a.toNat n.bytes

/-- The checks of `write(addr, n, v)`: alignment, mapping, permission (R56, R57). -/
def Memory.checkWrite (m : Memory) (a : Word) (n : Width) : Except AccessFault Unit := do
  let g ← m.locate a n
  match g.permission with
  | .readOnly => .error .writeProtected
  | .readWrite => return ()

/-! ### The effect of an instruction (R117) -/

/-- What a rule of files 41 to 45, or the fetch, raises (R117). The fault record is made of it at fault entry. -/
inductive Raise where
  | access (kind : AccessFault) (address : Word)
  | arithmeticOverflow
  | decodeUnknown
  | unpredictable (reason : UnpredictableReason)
  deriving DecidableEq, Repr

/-- An access at `a` made by the step: its fault is raised with the address as info (R54, R55, R57, R273). -/
def accessAt {α : Type} (a : Word) : Except AccessFault α → Except Raise α
  | .ok v => .ok v
  | .error k => .error (.access k a)

/-- The branch outcome of an instruction (R117). -/
inductive BranchOutcome where
  | none
  | taken (target : Word)
  | notTaken
  deriving DecidableEq, Repr

/-- A committed store: the low `width` bytes of `value` at `address` (R124). -/
structure Store where
  address : Word
  width : Width
  value : Dword
  deriving DecidableEq, Repr

/-- What the rule of an instruction computes before anything is committed (R117): register writes, in the order of the
rule's pseudocode, at most one memory write, a branch outcome, and how many draws it takes (R35). -/
structure Effect where
  writes : List (RegName × Dword) := []
  store : Option Store := none
  outcome : BranchOutcome := .none
  draws : Nat := 0
  deriving DecidableEq, Repr

/-- The effect of writing one general register. -/
def Effect.write (r : Reg) (v : Dword) : Effect := { writes := [(.x r, v)] }

/-- The effect of writing HI and LO: LO first, as R191 does. -/
def Effect.hilo (hi lo : Dword) : Effect := { writes := [(.lo, lo), (.hi, hi)] }

/-! ### Completion of a step (R118 to R122) -/

/-- How an instruction counts for the HI/LO hazard state (R121). -/
inductive HiLoUse where
  | reads
  | computes
  | other
  deriving DecidableEq, Repr

/-- MFHI and MFLO read, MULT, MULTU, DIV and DIVU compute, every other instruction is neither (R121). -/
def hiLoUse : Instr → HiLoUse
  | .mfhi _ | .mflo _ => .reads
  | .mult _ _ | .multu _ _ | .div _ _ | .divu _ _ => .computes
  | .mthi _ | .mtlo _ => .other
  | .sll _ _ _ | .srl _ _ _ | .sra _ _ _ | .sllv _ _ _ | .srlv _ _ _ | .srav _ _ _ | .jr _ | .jalr _ _ => .other
  | .add _ _ _ | .addu _ _ _ | .sub _ _ _ | .subu _ _ _ | .and _ _ _ | .or _ _ _ | .xor _ _ _ | .nor _ _ _ => .other
  | .slt _ _ _ | .sltu _ _ _ => .other
  | .bltz _ _ | .bgez _ _ | .bltzal _ _ | .bgezal _ _ | .j _ | .jal _ => .other
  | .beq _ _ _ | .bne _ _ _ | .blez _ _ | .bgtz _ _ => .other
  | .addi _ _ _ | .addiu _ _ _ | .slti _ _ _ | .sltiu _ _ _ | .andi _ _ _ | .ori _ _ _ | .xori _ _ _ | .lui _ _ => .other
  | .lb _ _ _ | .lh _ _ _ | .lw _ _ _ | .lbu _ _ _ | .lhu _ _ _ | .lwu _ _ _ | .ld _ _ _ => .other
  | .sb _ _ _ | .sh _ _ _ | .sw _ _ _ | .sd _ _ _ => .other

/-- One more step since the last MFHI or MFLO, saturating at 2 (R27, R121). -/
def countStep (n : Fin 3) : Fin 3 := ⟨min (n.val + 1) 2, by omega⟩

/-- `sinceHiLoRead` after a completed step (R121). -/
def nextSinceHiLoRead (u : HiLoUse) (n : Fin 3) : Fin 3 :=
  match u with
  | .reads => 0
  | .computes => countStep n
  | .other => countStep n

/-- `hiloFresh` after a completed step (R121). -/
def nextHiloFresh (u : HiLoUse) (fresh : Bool) : Bool :=
  match u with
  | .reads => false
  | .computes => true
  | .other => fresh

/-- `pc` after a completed step: the pending target if the step was the slot of a taken transfer, else the next word,
modulo 2^32 (R119). -/
def State.nextPc (s : State) : Word :=
  match s.delay with
  | .slotTaken t => t
  | .normal => s.pc + 4#32
  | .slotNotTaken => s.pc + 4#32

/-- `delay` after a completed step (R120). -/
def BranchOutcome.nextDelay : BranchOutcome → DelayState
  | .none => .normal
  | .taken t => .slotTaken t
  | .notTaken => .slotNotTaken

/-- The completion of a step: `pc`, `delay`, the hazard state and `status` (R119 to R122). -/
def State.finish (s : State) (u : HiLoUse) (o : BranchOutcome) : State :=
  { s with
    pc := s.nextPc
    delay := o.nextDelay
    sinceHiLoRead := nextSinceHiLoRead u s.sinceHiLoRead
    hiloFresh := nextHiloFresh u s.hiloFresh
    status := .running }

/-- Commit register writes, in order. -/
def State.writeAll (s : State) : List (RegName × Dword) → State
  | [] => s
  | (n, v) :: rest => (s.writeName n v).writeAll rest

/-- Commit the memory write, if there is one. -/
def State.commitStore (s : State) : Option Store → State
  | none => s
  | some st => { s with mem := s.mem.store st.address.toNat st.width.bytes st.value }

/-- Note the draws an instruction took (D35). -/
def State.takeDraws (s : State) (n : Nat) : State := { s with draws := s.draws + n }

/-- Commit every write the rule computed, then complete the step (R118). -/
def State.commit (s : State) (i : Instr) (e : Effect) : State :=
  (((s.writeAll e.writes).commitStore e.store).takeDraws e.draws).finish (hiLoUse i) e.outcome

/-! ### Taking a fault (R273, R276), and the only way back (R279, R301) -/

/-- The kind of what was raised (R270, R271). -/
def Raise.kind : Raise → FaultKind
  | .access .misaligned _ => .misaligned
  | .access .unmapped _ => .unmapped
  | .access .writeProtected _ => .writeProtected
  | .arithmeticOverflow => .arithmeticOverflow
  | .decodeUnknown => .decodeUnknown
  | .unpredictable r => .unpredictable r

/-- The info word: the address of an access fault, otherwise the instruction word `w` (R273). -/
def Raise.info (w : Word) : Raise → Word
  | .access _ a => a
  | .arithmeticOverflow => w
  | .decodeUnknown => w
  | .unpredictable _ => w

/-- Fault entry: the status becomes Faulted and the record is written; nothing else changes (R118, R276). A fault in a
delay slot leaves `delay` as it was, and records the slot's own address (R278). -/
def State.takeFault (s : State) (w : Word) (r : Raise) : State :=
  { s with status := .faulted, fault := some { kind := r.kind, info := r.info w, pc := s.pc } }

/-- `reset(entryPoint)`: every piece of state at its value of R36, memory and configuration untouched, and the pending
stop request cleared (R301). No instruction returns from a fault (R279). -/
def State.resetTo (s : State) (entryPoint : Word) : State :=
  { s with
    x := Vector.replicate 32 0#64
    hi := 0#64
    lo := 0#64
    pc := entryPoint
    delay := .normal
    sinceHiLoRead := 2
    hiloFresh := false
    status := .ready
    fault := none
    stopRequest := false }

/-! ### Executing one instruction (R116 to R118) -/

/-- The instruction is a Branch or Jump and stands in a delay slot, of a taken or a not-taken transfer (R116). -/
def transferInSlot (i : Instr) (s : State) : Bool :=
  decide (s.delay ≠ .normal) && (i.opClass == .branch || i.opClass == .jump)

/-- The effect of the rule of `i`, after the delay-slot check, which comes before the rule's own checks (R116, R275). -/
def attempt (i : Instr) (s : State) (e : Except Raise Effect) : Except Raise Effect :=
  if transferInSlot i s then .error (.unpredictable .branchInDelaySlot) else e

/-- Execute `i`, whose rule computes `e`: commit all of it, or commit nothing and take the fault (R118). The
instruction word of the fault record is the word that encodes `i` (R273). -/
def execute (i : Instr) (s : State) (e : Except Raise Effect) : Host.Outcome State Fault Refusal :=
  match attempt i s e with
  | .ok f => .next (s.commit i f)
  | .error r => .next (s.takeFault (encode i) r)

end Sys2Proof.Machine
end

