-- ==== Sys2Proof/Machine/Operands.lean ====
section
/-! DEFINITION. Every operand form: 32-bit sources, immediates, shift amounts, the effective address, branch and jump
targets and the link value (30_encoding.md rules R84 to R87). -/

namespace Sys2Proof.Machine

/-- `sext_64` of a 32-bit value (R9). -/
def sext64 (v : Word) : Dword := v.signExtend 64

/-- `v[31:0]` (R8). -/
def low32 (v : Dword) : Word := v.extractLsb' 0 32

/-- `v[63:32]` (R8). -/
def high32 (v : Dword) : Word := v.extractLsb' 32 32

/-- A canonical value: a sign-extended 32-bit value (R11). -/
def canon (v : Dword) : Bool := v == sext64 (low32 v)

/-- Bits 31 to 0 of a value that must be canonical. A value that is not raises `Unpredictable` under the `Fault` policy
and is truncated under `Low32` (D9). -/
def narrow (cfg : Config) (reason : UnpredictableReason) (v : Dword) : Except Raise Word :=
  if canon v then .ok (low32 v)
  else
    match cfg.nonCanonical32 with
    | .fault => .error (.unpredictable reason)
    | .low32 => .ok (low32 v)

/-- `src32(x[r])`: a source operand of a 32-bit operation (R140). -/
def src32 (s : State) (r : Reg) : Except Raise Word := narrow s.cfg .nonCanonicalOperand (s.reg r)

/-- `sext_64(imm)`: ADDI, ADDIU, SLTI, SLTIU and every load and store offset (R84). -/
def immSigned64 (imm : BitVec 16) : Dword := imm.signExtend 64

/-- `sext_32(imm)` (R143). -/
def immSigned32 (imm : BitVec 16) : Word := imm.signExtend 32

/-- `zext_64(imm)`: ANDI, ORI and XORI (R84). -/
def immZero64 (imm : BitVec 16) : Dword := imm.setWidth 64

/-- `sext_64(imm ++ 0x0000)`: LUI (R84). -/
def immUpper64 (imm : BitVec 16) : Dword := sext64 (imm ++ 0x0000#16)

/-- The shift amount of SLL, SRL and SRA: the `sa` field (R87). -/
def shiftConst (sa : BitVec 5) : Nat := sa.toNat

/-- The shift amount of SLLV, SRLV and SRAV: `x[rs][4:0]`, the other bits ignored (R87). -/
def shiftReg (s : State) (rs : Reg) : Nat := ((s.reg rs).extractLsb' 0 5).toNat

/-- The effective address: base plus signed offset, modulo 2^64, which must be canonical (R210). -/
def effectiveAddress (s : State) (rs : Reg) (imm : BitVec 16) : Except Raise Word :=
  narrow s.cfg .nonCanonicalAddress (s.reg rs + immSigned64 imm)

/-- The target of a branch at `pc`: `pc + 4 + sext_32(imm ++ 0b00)`, modulo 2^32 (R85, R241). -/
def branchTarget (pc : Word) (imm : BitVec 16) : Word :=
  pc + 4#32 + (imm ++ 0b00#2 : BitVec 18).signExtend 32

/-- The target of J and JAL at `pc`: `(pc + 4)[31:28] ++ target ++ 0b00` (R86, R241). -/
def jumpTarget (pc : Word) (target : BitVec 26) : Word :=
  (pc + 4#32).extractLsb' 28 4 ++ target ++ 0b00#2

/-- `jreg(x[rs])`: the target of JR and JALR (R241). -/
def jumpRegister (s : State) (rs : Reg) : Except Raise Word := narrow s.cfg .nonCanonicalAddress (s.reg rs)

/-- The link value of a call at `pc`: `sext_64(pc + 8)`, `pc + 8` modulo 2^32 (R242). -/
def linkValue (pc : Word) : Dword := sext64 (pc + 8#32)

/-- The register that JAL, BLTZAL and BGEZAL link in (R22, R242). -/
def linkRegister : Reg := 31#5

end Sys2Proof.Machine
end

