-- ==== Sys2Proof/Machine/Flags.lean ====
section
/-! DEFINITION. The block has no flags and no condition codes (R31). Here stand the tests other machines make flags of:
the overflow rule, the comparisons and the branch conditions. -/

namespace Sys2Proof.Machine

/-- An exact result that no signed 32-bit value holds (R141). -/
def overflows32 (z : Int) : Bool := decide (z < -2147483648) || decide (2147483647 < z)

/-- The low 32 bits of the exact result `z` of ADD, ADDI or SUB, or `ArithmeticOverflow` (R141). -/
def exact32 (z : Int) : Except Raise Word :=
  if overflows32 z then .error .arithmeticOverflow else .ok (BitVec.ofInt 32 z)

/-- The register value of a comparison: 1 if it holds, else 0 (R144, R169). -/
def boolValue (c : Bool) : Dword := if c then 1#64 else 0#64

/-- `signed(a) < signed(b)`, on 64 bits (R144, R169). -/
def lessSigned (a b : Dword) : Bool := decide (a.toInt < b.toInt)

/-- `a <u b`, on 64 bits (R145, R170). -/
def lessUnsigned (a b : Dword) : Bool := decide (a.toNat < b.toNat)

/-- `signed(a) <= 0` (R245). -/
def atMostZero (a : Dword) : Bool := decide (a.toInt ≤ 0)

/-- `signed(a) > 0` (R246). -/
def aboveZero (a : Dword) : Bool := decide (0 < a.toInt)

/-- `signed(a) < 0` (R247, R249). -/
def belowZero (a : Dword) : Bool := decide (a.toInt < 0)

/-- `signed(a) >= 0` (R248, R250). -/
def atLeastZero (a : Dword) : Bool := decide (0 ≤ a.toInt)

end Sys2Proof.Machine
end

