-- ==== Sys2Proof/Machine/ArithImm.lean ====
section
/-! DEFINITION. Immediate arithmetic (41_arith_immediate.md): for each instruction its effect and its meaning. -/

namespace Sys2Proof.Machine

/-- ADDI (R142). -/
def addiEffect (rs rt : Reg) (imm : BitVec 16) (s : State) : Except Raise Effect := do
  let a ← src32 s rs
  let r ← exact32 (a.toInt + imm.toInt)
  return .write rt (sext64 r)

/-- ADDIU (R143). -/
def addiuEffect (rs rt : Reg) (imm : BitVec 16) (s : State) : Except Raise Effect := do
  let a ← src32 s rs
  return .write rt (sext64 (a + immSigned32 imm))

/-- SLTI (R144). -/
def sltiEffect (rs rt : Reg) (imm : BitVec 16) (s : State) : Except Raise Effect :=
  .ok (.write rt (boolValue (lessSigned (s.reg rs) (immSigned64 imm))))

/-- SLTIU: the immediate is sign-extended, then compared unsigned (R145). -/
def sltiuEffect (rs rt : Reg) (imm : BitVec 16) (s : State) : Except Raise Effect :=
  .ok (.write rt (boolValue (lessUnsigned (s.reg rs) (immSigned64 imm))))

/-- ANDI (R146). -/
def andiEffect (rs rt : Reg) (imm : BitVec 16) (s : State) : Except Raise Effect :=
  .ok (.write rt (s.reg rs &&& immZero64 imm))

/-- ORI (R147). -/
def oriEffect (rs rt : Reg) (imm : BitVec 16) (s : State) : Except Raise Effect :=
  .ok (.write rt (s.reg rs ||| immZero64 imm))

/-- XORI (R148). -/
def xoriEffect (rs rt : Reg) (imm : BitVec 16) (s : State) : Except Raise Effect :=
  .ok (.write rt (s.reg rs ^^^ immZero64 imm))

/-- LUI (R149). It reads no register, so its effect does not depend on the state. -/
def luiEffect (rt : Reg) (imm : BitVec 16) (_s : State) : Except Raise Effect :=
  .ok (.write rt (immUpper64 imm))

/-- Execute ADDI (R142). -/
def execAddi (rs rt : Reg) (imm : BitVec 16) (s : State) : Host.Outcome State Fault Refusal :=
  execute (.addi rs rt imm) s (addiEffect rs rt imm s)

/-- Execute ADDIU (R143). -/
def execAddiu (rs rt : Reg) (imm : BitVec 16) (s : State) : Host.Outcome State Fault Refusal :=
  execute (.addiu rs rt imm) s (addiuEffect rs rt imm s)

/-- Execute SLTI (R144). -/
def execSlti (rs rt : Reg) (imm : BitVec 16) (s : State) : Host.Outcome State Fault Refusal :=
  execute (.slti rs rt imm) s (sltiEffect rs rt imm s)

/-- Execute SLTIU (R145). -/
def execSltiu (rs rt : Reg) (imm : BitVec 16) (s : State) : Host.Outcome State Fault Refusal :=
  execute (.sltiu rs rt imm) s (sltiuEffect rs rt imm s)

/-- Execute ANDI (R146). -/
def execAndi (rs rt : Reg) (imm : BitVec 16) (s : State) : Host.Outcome State Fault Refusal :=
  execute (.andi rs rt imm) s (andiEffect rs rt imm s)

/-- Execute ORI (R147). -/
def execOri (rs rt : Reg) (imm : BitVec 16) (s : State) : Host.Outcome State Fault Refusal :=
  execute (.ori rs rt imm) s (oriEffect rs rt imm s)

/-- Execute XORI (R148). -/
def execXori (rs rt : Reg) (imm : BitVec 16) (s : State) : Host.Outcome State Fault Refusal :=
  execute (.xori rs rt imm) s (xoriEffect rs rt imm s)

/-- Execute LUI (R149). -/
def execLui (rt : Reg) (imm : BitVec 16) (s : State) : Host.Outcome State Fault Refusal :=
  execute (.lui rt imm) s (luiEffect rt imm s)

end Sys2Proof.Machine
end

