-- ==== Sys2Proof/Machine/ArithReg.lean ====
section
/-! DEFINITION. Register arithmetic, logic, compares and shifts (42_arith_register.md). All sources are read before the
destination is written, since an effect is computed from the state before the step (R160). -/

namespace Sys2Proof.Machine

/-- ADD (R161). -/
def addEffect (rs rt rd : Reg) (s : State) : Except Raise Effect := do
  let a ← src32 s rs
  let b ← src32 s rt
  let r ← exact32 (a.toInt + b.toInt)
  return .write rd (sext64 r)

/-- ADDU (R162). -/
def adduEffect (rs rt rd : Reg) (s : State) : Except Raise Effect := do
  let a ← src32 s rs
  let b ← src32 s rt
  return .write rd (sext64 (a + b))

/-- SUB: `rs - rt` (R163). -/
def subEffect (rs rt rd : Reg) (s : State) : Except Raise Effect := do
  let a ← src32 s rs
  let b ← src32 s rt
  let r ← exact32 (a.toInt - b.toInt)
  return .write rd (sext64 r)

/-- SUBU (R164). -/
def subuEffect (rs rt rd : Reg) (s : State) : Except Raise Effect := do
  let a ← src32 s rs
  let b ← src32 s rt
  return .write rd (sext64 (a - b))

/-- AND, on 64 bits (R165). -/
def andEffect (rs rt rd : Reg) (s : State) : Except Raise Effect :=
  .ok (.write rd (s.reg rs &&& s.reg rt))

/-- OR, on 64 bits (R166). -/
def orEffect (rs rt rd : Reg) (s : State) : Except Raise Effect :=
  .ok (.write rd (s.reg rs ||| s.reg rt))

/-- XOR, on 64 bits (R167). -/
def xorEffect (rs rt rd : Reg) (s : State) : Except Raise Effect :=
  .ok (.write rd (s.reg rs ^^^ s.reg rt))

/-- NOR, on 64 bits (R168). -/
def norEffect (rs rt rd : Reg) (s : State) : Except Raise Effect :=
  .ok (.write rd (~~~(s.reg rs ||| s.reg rt)))

/-- SLT, a 64-bit signed compare (R169). -/
def sltEffect (rs rt rd : Reg) (s : State) : Except Raise Effect :=
  .ok (.write rd (boolValue (lessSigned (s.reg rs) (s.reg rt))))

/-- SLTU, a 64-bit unsigned compare (R170). -/
def sltuEffect (rs rt rd : Reg) (s : State) : Except Raise Effect :=
  .ok (.write rd (boolValue (lessUnsigned (s.reg rs) (s.reg rt))))

/-- SLL: it reads only bits 31 to 0 and needs no canonical operand (R171). The word 0 is NOP (R93). -/
def sllEffect (rt rd : Reg) (sa : BitVec 5) (s : State) : Except Raise Effect :=
  .ok (.write rd (sext64 (low32 (s.reg rt) <<< shiftConst sa)))

/-- SRL (R172). -/
def srlEffect (rt rd : Reg) (sa : BitVec 5) (s : State) : Except Raise Effect := do
  let a ← src32 s rt
  return .write rd (sext64 (a >>> shiftConst sa))

/-- SRA (R173). -/
def sraEffect (rt rd : Reg) (sa : BitVec 5) (s : State) : Except Raise Effect := do
  let a ← src32 s rt
  return .write rd (sext64 (a.sshiftRight (shiftConst sa)))

/-- SLLV: like SLL it needs no canonical operand (R174). -/
def sllvEffect (rs rt rd : Reg) (s : State) : Except Raise Effect :=
  .ok (.write rd (sext64 (low32 (s.reg rt) <<< shiftReg s rs)))

/-- SRLV: only `x[rt]` is tested (R175). -/
def srlvEffect (rs rt rd : Reg) (s : State) : Except Raise Effect := do
  let a ← src32 s rt
  return .write rd (sext64 (a >>> shiftReg s rs))

/-- SRAV: only `x[rt]` is tested (R176). -/
def sravEffect (rs rt rd : Reg) (s : State) : Except Raise Effect := do
  let a ← src32 s rt
  return .write rd (sext64 (a.sshiftRight (shiftReg s rs)))

/-- Execute ADD (R161). -/
def execAdd (rs rt rd : Reg) (s : State) : Host.Outcome State Fault Refusal :=
  execute (.add rs rt rd) s (addEffect rs rt rd s)

/-- Execute ADDU (R162). -/
def execAddu (rs rt rd : Reg) (s : State) : Host.Outcome State Fault Refusal :=
  execute (.addu rs rt rd) s (adduEffect rs rt rd s)

/-- Execute SUB (R163). -/
def execSub (rs rt rd : Reg) (s : State) : Host.Outcome State Fault Refusal :=
  execute (.sub rs rt rd) s (subEffect rs rt rd s)

/-- Execute SUBU (R164). -/
def execSubu (rs rt rd : Reg) (s : State) : Host.Outcome State Fault Refusal :=
  execute (.subu rs rt rd) s (subuEffect rs rt rd s)

/-- Execute AND (R165). -/
def execAnd (rs rt rd : Reg) (s : State) : Host.Outcome State Fault Refusal :=
  execute (.and rs rt rd) s (andEffect rs rt rd s)

/-- Execute OR (R166). -/
def execOr (rs rt rd : Reg) (s : State) : Host.Outcome State Fault Refusal :=
  execute (.or rs rt rd) s (orEffect rs rt rd s)

/-- Execute XOR (R167). -/
def execXor (rs rt rd : Reg) (s : State) : Host.Outcome State Fault Refusal :=
  execute (.xor rs rt rd) s (xorEffect rs rt rd s)

/-- Execute NOR (R168). -/
def execNor (rs rt rd : Reg) (s : State) : Host.Outcome State Fault Refusal :=
  execute (.nor rs rt rd) s (norEffect rs rt rd s)

/-- Execute SLT (R169). -/
def execSlt (rs rt rd : Reg) (s : State) : Host.Outcome State Fault Refusal :=
  execute (.slt rs rt rd) s (sltEffect rs rt rd s)

/-- Execute SLTU (R170). -/
def execSltu (rs rt rd : Reg) (s : State) : Host.Outcome State Fault Refusal :=
  execute (.sltu rs rt rd) s (sltuEffect rs rt rd s)

/-- Execute SLL (R171). -/
def execSll (rt rd : Reg) (sa : BitVec 5) (s : State) : Host.Outcome State Fault Refusal :=
  execute (.sll rt rd sa) s (sllEffect rt rd sa s)

/-- Execute SRL (R172). -/
def execSrl (rt rd : Reg) (sa : BitVec 5) (s : State) : Host.Outcome State Fault Refusal :=
  execute (.srl rt rd sa) s (srlEffect rt rd sa s)

/-- Execute SRA (R173). -/
def execSra (rt rd : Reg) (sa : BitVec 5) (s : State) : Host.Outcome State Fault Refusal :=
  execute (.sra rt rd sa) s (sraEffect rt rd sa s)

/-- Execute SLLV (R174). -/
def execSllv (rs rt rd : Reg) (s : State) : Host.Outcome State Fault Refusal :=
  execute (.sllv rs rt rd) s (sllvEffect rs rt rd s)

/-- Execute SRLV (R175). -/
def execSrlv (rs rt rd : Reg) (s : State) : Host.Outcome State Fault Refusal :=
  execute (.srlv rs rt rd) s (srlvEffect rs rt rd s)

/-- Execute SRAV (R176). -/
def execSrav (rs rt rd : Reg) (s : State) : Host.Outcome State Fault Refusal :=
  execute (.srav rs rt rd) s (sravEffect rs rt rd s)

end Sys2Proof.Machine
end

