-- ==== Sys2Proof/Machine/BranchJump.lean ====
section
/-! DEFINITION. Branches and jumps (45_branch_jump.md). None changes `pc` in its own step: each computes a branch outcome
(R240), and the completion of the next step redirects (R119). -/

namespace Sys2Proof.Machine

/-- A branch on the condition `c` (R240, R241). -/
def branchIf (s : State) (c : Bool) (imm : BitVec 16) : Effect :=
  { outcome := if c then .taken (branchTarget s.pc imm) else .notTaken }

/-- BLTZAL and BGEZAL: the condition is read before the link is written, and the link is written whether or not the
branch is taken (R242, R249). The source may not be the link register (D10). -/
def branchAndLink (s : State) (rs : Reg) (c : Bool) (imm : BitVec 16) : Except Raise Effect :=
  if rs = linkRegister then .error (.unpredictable .linkRegisterSource)
  else .ok { branchIf s c imm with writes := [(.x linkRegister, linkValue s.pc)] }

/-- BEQ, on 64 bits (R243). -/
def beqEffect (rs rt : Reg) (imm : BitVec 16) (s : State) : Except Raise Effect :=
  .ok (branchIf s (s.reg rs == s.reg rt) imm)

/-- BNE, on 64 bits (R244). -/
def bneEffect (rs rt : Reg) (imm : BitVec 16) (s : State) : Except Raise Effect :=
  .ok (branchIf s (s.reg rs != s.reg rt) imm)

/-- BLEZ (R245). -/
def blezEffect (rs : Reg) (imm : BitVec 16) (s : State) : Except Raise Effect :=
  .ok (branchIf s (atMostZero (s.reg rs)) imm)

/-- BGTZ (R246). -/
def bgtzEffect (rs : Reg) (imm : BitVec 16) (s : State) : Except Raise Effect :=
  .ok (branchIf s (aboveZero (s.reg rs)) imm)

/-- BLTZ (R247). -/
def bltzEffect (rs : Reg) (imm : BitVec 16) (s : State) : Except Raise Effect :=
  .ok (branchIf s (belowZero (s.reg rs)) imm)

/-- BGEZ (R248). -/
def bgezEffect (rs : Reg) (imm : BitVec 16) (s : State) : Except Raise Effect :=
  .ok (branchIf s (atLeastZero (s.reg rs)) imm)

/-- BLTZAL (R249). -/
def bltzalEffect (rs : Reg) (imm : BitVec 16) (s : State) : Except Raise Effect :=
  branchAndLink s rs (belowZero (s.reg rs)) imm

/-- BGEZAL (R250). -/
def bgezalEffect (rs : Reg) (imm : BitVec 16) (s : State) : Except Raise Effect :=
  branchAndLink s rs (atLeastZero (s.reg rs)) imm

/-- J (R251). -/
def jEffect (target : BitVec 26) (s : State) : Except Raise Effect :=
  .ok { outcome := .taken (jumpTarget s.pc target) }

/-- JAL (R252). -/
def jalEffect (target : BitVec 26) (s : State) : Except Raise Effect :=
  .ok { writes := [(.x linkRegister, linkValue s.pc)], outcome := .taken (jumpTarget s.pc target) }

/-- JR: a target that is not word-aligned is not checked here (R253, R255). -/
def jrEffect (rs : Reg) (s : State) : Except Raise Effect := do
  let t ← jumpRegister s rs
  return { outcome := .taken t }

/-- JALR: the target is read before the link is written (R254). -/
def jalrEffect (rs rd : Reg) (s : State) : Except Raise Effect := do
  if rs = rd then
    .error (.unpredictable .linkRegisterSource)
  else
    let t ← jumpRegister s rs
    return { writes := [(.x rd, linkValue s.pc)], outcome := .taken t }

/-- Execute BEQ (R243). -/
def execBeq (rs rt : Reg) (imm : BitVec 16) (s : State) : Host.Outcome State Fault Refusal :=
  execute (.beq rs rt imm) s (beqEffect rs rt imm s)

/-- Execute BNE (R244). -/
def execBne (rs rt : Reg) (imm : BitVec 16) (s : State) : Host.Outcome State Fault Refusal :=
  execute (.bne rs rt imm) s (bneEffect rs rt imm s)

/-- Execute BLEZ (R245). -/
def execBlez (rs : Reg) (imm : BitVec 16) (s : State) : Host.Outcome State Fault Refusal :=
  execute (.blez rs imm) s (blezEffect rs imm s)

/-- Execute BGTZ (R246). -/
def execBgtz (rs : Reg) (imm : BitVec 16) (s : State) : Host.Outcome State Fault Refusal :=
  execute (.bgtz rs imm) s (bgtzEffect rs imm s)

/-- Execute BLTZ (R247). -/
def execBltz (rs : Reg) (imm : BitVec 16) (s : State) : Host.Outcome State Fault Refusal :=
  execute (.bltz rs imm) s (bltzEffect rs imm s)

/-- Execute BGEZ (R248). -/
def execBgez (rs : Reg) (imm : BitVec 16) (s : State) : Host.Outcome State Fault Refusal :=
  execute (.bgez rs imm) s (bgezEffect rs imm s)

/-- Execute BLTZAL (R249). -/
def execBltzal (rs : Reg) (imm : BitVec 16) (s : State) : Host.Outcome State Fault Refusal :=
  execute (.bltzal rs imm) s (bltzalEffect rs imm s)

/-- Execute BGEZAL (R250). -/
def execBgezal (rs : Reg) (imm : BitVec 16) (s : State) : Host.Outcome State Fault Refusal :=
  execute (.bgezal rs imm) s (bgezalEffect rs imm s)

/-- Execute J (R251). -/
def execJ (target : BitVec 26) (s : State) : Host.Outcome State Fault Refusal :=
  execute (.j target) s (jEffect target s)

/-- Execute JAL (R252). -/
def execJal (target : BitVec 26) (s : State) : Host.Outcome State Fault Refusal :=
  execute (.jal target) s (jalEffect target s)

/-- Execute JR (R253). -/
def execJr (rs : Reg) (s : State) : Host.Outcome State Fault Refusal :=
  execute (.jr rs) s (jrEffect rs s)

/-- Execute JALR (R254). -/
def execJalr (rs rd : Reg) (s : State) : Host.Outcome State Fault Refusal :=
  execute (.jalr rs rd) s (jalrEffect rs rd s)

end Sys2Proof.Machine
end

