-- ==== Sys2Proof/Machine/LoadStore.lean ====
section
/-! DEFINITION. Loads and stores (44_load_store.md). -/

namespace Sys2Proof.Machine

/-- The value a load of `n` bytes reads at the effective address, zero-extended to 64 bits (R210, R211). -/
def loadValue (s : State) (rs : Reg) (imm : BitVec 16) (n : Width) : Except Raise Dword := do
  let ea ← effectiveAddress s rs imm
  accessAt ea (s.mem.read ea n)

/-- `v[8n-1:0]`: the low `n` bytes of a value (R212). -/
def lowBytes (n : Width) (v : Dword) : Dword :=
  match n with
  | .b1 => (v.setWidth 8).setWidth 64
  | .b2 => (v.setWidth 16).setWidth 64
  | .b4 => (v.setWidth 32).setWidth 64
  | .b8 => v

/-- The effect of a store of `n` bytes: the checks of the write, then the low `n` bytes of `x[rt]` (R210, R212). -/
def storeEffect (s : State) (rs rt : Reg) (imm : BitVec 16) (n : Width) : Except Raise Effect := do
  let ea ← effectiveAddress s rs imm
  accessAt ea (s.mem.checkWrite ea n)
  return { store := some { address := ea, width := n, value := lowBytes n (s.reg rt) } }

/-- LB (R213). -/
def lbEffect (rs rt : Reg) (imm : BitVec 16) (s : State) : Except Raise Effect := do
  let v ← loadValue s rs imm .b1
  return .write rt ((v.setWidth 8).signExtend 64)

/-- LBU (R214). -/
def lbuEffect (rs rt : Reg) (imm : BitVec 16) (s : State) : Except Raise Effect := do
  let v ← loadValue s rs imm .b1
  return .write rt ((v.setWidth 8).setWidth 64)

/-- LH (R215). -/
def lhEffect (rs rt : Reg) (imm : BitVec 16) (s : State) : Except Raise Effect := do
  let v ← loadValue s rs imm .b2
  return .write rt ((v.setWidth 16).signExtend 64)

/-- LHU (R216). -/
def lhuEffect (rs rt : Reg) (imm : BitVec 16) (s : State) : Except Raise Effect := do
  let v ← loadValue s rs imm .b2
  return .write rt ((v.setWidth 16).setWidth 64)

/-- LW (R217). -/
def lwEffect (rs rt : Reg) (imm : BitVec 16) (s : State) : Except Raise Effect := do
  let v ← loadValue s rs imm .b4
  return .write rt ((v.setWidth 32).signExtend 64)

/-- LWU (R218). -/
def lwuEffect (rs rt : Reg) (imm : BitVec 16) (s : State) : Except Raise Effect := do
  let v ← loadValue s rs imm .b4
  return .write rt ((v.setWidth 32).setWidth 64)

/-- LD (R219). It needs no mode (R282). -/
def ldEffect (rs rt : Reg) (imm : BitVec 16) (s : State) : Except Raise Effect := do
  let v ← loadValue s rs imm .b8
  return .write rt v

/-- SB (R220). -/
def sbEffect (rs rt : Reg) (imm : BitVec 16) (s : State) : Except Raise Effect :=
  storeEffect s rs rt imm .b1

/-- SH (R221). -/
def shEffect (rs rt : Reg) (imm : BitVec 16) (s : State) : Except Raise Effect :=
  storeEffect s rs rt imm .b2

/-- SW (R222). -/
def swEffect (rs rt : Reg) (imm : BitVec 16) (s : State) : Except Raise Effect :=
  storeEffect s rs rt imm .b4

/-- SD (R223). -/
def sdEffect (rs rt : Reg) (imm : BitVec 16) (s : State) : Except Raise Effect :=
  storeEffect s rs rt imm .b8

/-- Execute LB (R213). -/
def execLb (rs rt : Reg) (imm : BitVec 16) (s : State) : Host.Outcome State Fault Refusal :=
  execute (.lb rs rt imm) s (lbEffect rs rt imm s)

/-- Execute LBU (R214). -/
def execLbu (rs rt : Reg) (imm : BitVec 16) (s : State) : Host.Outcome State Fault Refusal :=
  execute (.lbu rs rt imm) s (lbuEffect rs rt imm s)

/-- Execute LH (R215). -/
def execLh (rs rt : Reg) (imm : BitVec 16) (s : State) : Host.Outcome State Fault Refusal :=
  execute (.lh rs rt imm) s (lhEffect rs rt imm s)

/-- Execute LHU (R216). -/
def execLhu (rs rt : Reg) (imm : BitVec 16) (s : State) : Host.Outcome State Fault Refusal :=
  execute (.lhu rs rt imm) s (lhuEffect rs rt imm s)

/-- Execute LW (R217). -/
def execLw (rs rt : Reg) (imm : BitVec 16) (s : State) : Host.Outcome State Fault Refusal :=
  execute (.lw rs rt imm) s (lwEffect rs rt imm s)

/-- Execute LWU (R218). -/
def execLwu (rs rt : Reg) (imm : BitVec 16) (s : State) : Host.Outcome State Fault Refusal :=
  execute (.lwu rs rt imm) s (lwuEffect rs rt imm s)

/-- Execute LD (R219). -/
def execLd (rs rt : Reg) (imm : BitVec 16) (s : State) : Host.Outcome State Fault Refusal :=
  execute (.ld rs rt imm) s (ldEffect rs rt imm s)

/-- Execute SB (R220). -/
def execSb (rs rt : Reg) (imm : BitVec 16) (s : State) : Host.Outcome State Fault Refusal :=
  execute (.sb rs rt imm) s (sbEffect rs rt imm s)

/-- Execute SH (R221). -/
def execSh (rs rt : Reg) (imm : BitVec 16) (s : State) : Host.Outcome State Fault Refusal :=
  execute (.sh rs rt imm) s (shEffect rs rt imm s)

/-- Execute SW (R222). -/
def execSw (rs rt : Reg) (imm : BitVec 16) (s : State) : Host.Outcome State Fault Refusal :=
  execute (.sw rs rt imm) s (swEffect rs rt imm s)

/-- Execute SD (R223). -/
def execSd (rs rt : Reg) (imm : BitVec 16) (s : State) : Host.Outcome State Fault Refusal :=
  execute (.sd rs rt imm) s (sdEffect rs rt imm s)

end Sys2Proof.Machine
end

