-- ==== Sys2Proof/Machine/MulDiv.lean ====
section
/-! DEFINITION. Multiply, divide and the HI/LO moves (43_muldiv_hilo.md). -/

namespace Sys2Proof.Machine

/-- `hiloReadCheck()`: a write of HI or LO within two instructions after an MFHI or MFLO (R190). -/
def hiloReadCheck (s : State) : Except Raise Unit :=
  if s.sinceHiLoRead.val < 2 then .error (.unpredictable .hiLoReadHazard) else .ok ()

/-- `hiloOverwriteCheck()`: a multiply or divide result has not been read (R190). -/
def hiloOverwriteCheck (s : State) : Except Raise Unit :=
  if s.hiloFresh then .error (.unpredictable .hiLoOverwrite) else .ok ()

/-- A division by zero: (HI, LO) is the next draw, a free value (R193, R194, D22, D35). -/
def divByZero (s : State) : Effect :=
  { writes := [(.hi, (Config.divDraw s.draws).1), (.lo, (Config.divDraw s.draws).2)], draws := 1 }

/-- MULT (R191). -/
def multEffect (rs rt : Reg) (s : State) : Except Raise Effect := do
  hiloReadCheck s
  let a ← src32 s rs
  let b ← src32 s rt
  let p := BitVec.ofInt 64 (a.toInt * b.toInt)
  return .hilo (sext64 (high32 p)) (sext64 (low32 p))

/-- MULTU: each half is sign-extended (R192). -/
def multuEffect (rs rt : Reg) (s : State) : Except Raise Effect := do
  hiloReadCheck s
  let a ← src32 s rs
  let b ← src32 s rt
  let p := BitVec.ofNat 64 (a.toNat * b.toNat)
  return .hilo (sext64 (high32 p)) (sext64 (low32 p))

/-- DIV: the quotient truncates toward zero and its low 32 bits are kept, so -2^31 / -1 gives LO = -2^31 (R193, D23).
A division by zero raises nothing and leaves a draw in HI and LO (D22). -/
def divEffect (rs rt : Reg) (s : State) : Except Raise Effect := do
  hiloReadCheck s
  let a ← src32 s rs
  let b ← src32 s rt
  if b = 0#32 then
    return divByZero s
  else
    let q := a.toInt.tdiv b.toInt
    let r := a.toInt - q * b.toInt
    return .hilo (sext64 (BitVec.ofInt 32 r)) (sext64 (BitVec.ofInt 32 q))

/-- DIVU (R194). -/
def divuEffect (rs rt : Reg) (s : State) : Except Raise Effect := do
  hiloReadCheck s
  let a ← src32 s rs
  let b ← src32 s rt
  if b = 0#32 then
    return divByZero s
  else
    let q := a.toNat / b.toNat
    let r := a.toNat % b.toNat
    return .hilo (sext64 (BitVec.ofNat 32 r)) (sext64 (BitVec.ofNat 32 q))

/-- MFHI (R195). -/
def mfhiEffect (rd : Reg) (s : State) : Except Raise Effect :=
  .ok (.write rd s.hi)

/-- MFLO (R196). -/
def mfloEffect (rd : Reg) (s : State) : Except Raise Effect :=
  .ok (.write rd s.lo)

/-- MTHI (R197). -/
def mthiEffect (rs : Reg) (s : State) : Except Raise Effect := do
  hiloReadCheck s
  hiloOverwriteCheck s
  return { writes := [(.hi, s.reg rs)] }

/-- MTLO (R198). -/
def mtloEffect (rs : Reg) (s : State) : Except Raise Effect := do
  hiloReadCheck s
  hiloOverwriteCheck s
  return { writes := [(.lo, s.reg rs)] }

/-- Execute MULT (R191). -/
def execMult (rs rt : Reg) (s : State) : Host.Outcome State Fault Refusal :=
  execute (.mult rs rt) s (multEffect rs rt s)

/-- Execute MULTU (R192). -/
def execMultu (rs rt : Reg) (s : State) : Host.Outcome State Fault Refusal :=
  execute (.multu rs rt) s (multuEffect rs rt s)

/-- Execute DIV (R193). -/
def execDiv (rs rt : Reg) (s : State) : Host.Outcome State Fault Refusal :=
  execute (.div rs rt) s (divEffect rs rt s)

/-- Execute DIVU (R194). -/
def execDivu (rs rt : Reg) (s : State) : Host.Outcome State Fault Refusal :=
  execute (.divu rs rt) s (divuEffect rs rt s)

/-- Execute MFHI (R195). -/
def execMfhi (rd : Reg) (s : State) : Host.Outcome State Fault Refusal :=
  execute (.mfhi rd) s (mfhiEffect rd s)

/-- Execute MFLO (R196). -/
def execMflo (rd : Reg) (s : State) : Host.Outcome State Fault Refusal :=
  execute (.mflo rd) s (mfloEffect rd s)

/-- Execute MTHI (R197). -/
def execMthi (rs : Reg) (s : State) : Host.Outcome State Fault Refusal :=
  execute (.mthi rs) s (mthiEffect rs s)

/-- Execute MTLO (R198). -/
def execMtlo (rs : Reg) (s : State) : Host.Outcome State Fault Refusal :=
  execute (.mtlo rs) s (mtloEffect rs s)

end Sys2Proof.Machine
end

