-- ==== Sys2Proof/Machine/Effects.lean ====
section
/-! DEFINITION. The effect of any instruction: the same effects that the meanings execute, for the step result (R124). -/

namespace Sys2Proof.Machine

/-- What the rule of `i` computes in the state `s`, before the delay-slot check (R117). -/
def effectOf (i : Instr) (s : State) : Except Raise Effect :=
  match i with
  | .sll rt rd sa => sllEffect rt rd sa s
  | .srl rt rd sa => srlEffect rt rd sa s
  | .sra rt rd sa => sraEffect rt rd sa s
  | .sllv rs rt rd => sllvEffect rs rt rd s
  | .srlv rs rt rd => srlvEffect rs rt rd s
  | .srav rs rt rd => sravEffect rs rt rd s
  | .jr rs => jrEffect rs s
  | .jalr rs rd => jalrEffect rs rd s
  | .mfhi rd => mfhiEffect rd s
  | .mthi rs => mthiEffect rs s
  | .mflo rd => mfloEffect rd s
  | .mtlo rs => mtloEffect rs s
  | .mult rs rt => multEffect rs rt s
  | .multu rs rt => multuEffect rs rt s
  | .div rs rt => divEffect rs rt s
  | .divu rs rt => divuEffect rs rt s
  | .add rs rt rd => addEffect rs rt rd s
  | .addu rs rt rd => adduEffect rs rt rd s
  | .sub rs rt rd => subEffect rs rt rd s
  | .subu rs rt rd => subuEffect rs rt rd s
  | .and rs rt rd => andEffect rs rt rd s
  | .or rs rt rd => orEffect rs rt rd s
  | .xor rs rt rd => xorEffect rs rt rd s
  | .nor rs rt rd => norEffect rs rt rd s
  | .slt rs rt rd => sltEffect rs rt rd s
  | .sltu rs rt rd => sltuEffect rs rt rd s
  | .bltz rs imm => bltzEffect rs imm s
  | .bgez rs imm => bgezEffect rs imm s
  | .bltzal rs imm => bltzalEffect rs imm s
  | .bgezal rs imm => bgezalEffect rs imm s
  | .j target => jEffect target s
  | .jal target => jalEffect target s
  | .beq rs rt imm => beqEffect rs rt imm s
  | .bne rs rt imm => bneEffect rs rt imm s
  | .blez rs imm => blezEffect rs imm s
  | .bgtz rs imm => bgtzEffect rs imm s
  | .addi rs rt imm => addiEffect rs rt imm s
  | .addiu rs rt imm => addiuEffect rs rt imm s
  | .slti rs rt imm => sltiEffect rs rt imm s
  | .sltiu rs rt imm => sltiuEffect rs rt imm s
  | .andi rs rt imm => andiEffect rs rt imm s
  | .ori rs rt imm => oriEffect rs rt imm s
  | .xori rs rt imm => xoriEffect rs rt imm s
  | .lui rt imm => luiEffect rt imm s
  | .lb rs rt imm => lbEffect rs rt imm s
  | .lh rs rt imm => lhEffect rs rt imm s
  | .lw rs rt imm => lwEffect rs rt imm s
  | .lbu rs rt imm => lbuEffect rs rt imm s
  | .lhu rs rt imm => lhuEffect rs rt imm s
  | .lwu rs rt imm => lwuEffect rs rt imm s
  | .sb rs rt imm => sbEffect rs rt imm s
  | .sh rs rt imm => shEffect rs rt imm s
  | .sw rs rt imm => swEffect rs rt imm s
  | .ld rs rt imm => ldEffect rs rt imm s
  | .sd rs rt imm => sdEffect rs rt imm s

end Sys2Proof.Machine
end

