-- ==== Sys2Proof/Machine/Cycle.lean ====
section
/-! DEFINITION. The fetch-decode-execute step (40_step_cycle.md rules R110 to R123) around `exec`. -/

namespace Sys2Proof.Machine

/-- The fetch: a 4-byte read at `pc`, whose fault has info `pc` (R61, R113). It may read any region (D8). -/
def fetch (s : State) : Except Raise Word := do
  let v ← accessAt s.pc (s.mem.read s.pc .b4)
  return low32 v

/-- What a step at this state is going to do, before it does it. -/
inductive Plan where
  /-- Faulted or Halted: the step changes nothing (R111) -/
  | stopped
  /-- the stop request is taken (R112) -/
  | halt
  /-- the fetch or the Fatal policy raises `r` about the word `w` (R113, R115) -/
  | raise (w : Word) (r : Raise)
  /-- an Unknown word is skipped (R115) -/
  | skip (w : Word)
  /-- the instruction is executed (R117) -/
  | run (i : Instr)
  deriving DecidableEq, Repr

/-- What becomes of a fetched word (R114, R115). -/
def planWord (cfg : Config) (w : Word) : Plan :=
  match decode w with
  | .known i => .run i
  | .unknown _ u =>
    match cfg.unknownPolicy with
    | .fatal => .raise u .decodeUnknown
    | .skip => .skip u

/-- Fetch and decode (R113, R114). The info of a fetch fault is `pc`, so no word is needed for its record (R273). -/
def planFetch (s : State) : Plan :=
  match fetch s with
  | .error r => .raise s.pc r
  | .ok w => planWord s.cfg w

/-- The guards of a step, in the order of R123: the status (R111), the stop request (R112), then the fetch. -/
def plan (s : State) : Plan :=
  match s.status with
  | .faulted => .stopped
  | .halted => .stopped
  | .ready => if s.stopRequest then .halt else planFetch s
  | .running => if s.stopRequest then .halt else planFetch s

/-- The taking of the stop request: the status becomes Halted and nothing else changes (R112). -/
def State.takeStop (s : State) : State := { s with status := .halted }

/-- A skipped Unknown word: no effect, then an ordinary completion (R115, D14, D32). -/
def State.skipWord (s : State) : State := s.finish .other .none

/-- One step (R123). -/
def cycle (s : State) : Host.Outcome State Fault Refusal :=
  match plan s with
  | .stopped => .next s
  | .halt => .next s.takeStop
  | .raise w r => .next (s.takeFault w r)
  | .skip _ => .next s.skipWord
  | .run i => exec i s

/-! ### Placing an instruction where the next step fetches -/

/-- The map with a cartridge long enough to hold 4 bytes at `a`, where no region holds them and `a` lies at or above
the cartridge base. -/
def Memory.reaching (m : Memory) (a : Nat) : Memory :=
  if (m.regionOf a 4).isSome then m
  else if cartridgeBase ≤ a then { m with cartLength := a + 4 - cartridgeBase }
  else m

/-- Memory with the word `w` at `a`, as a program loaded from outside would stand there (log 4). -/
def Memory.placeWord (m : Memory) (a : Nat) (w : Word) : Memory :=
  if ((m.reaching a).regionOf a 4).isSome then (m.reaching a).store a 4 (w.setWidth 64) else m

end Sys2Proof.Machine
end

