-- ==== Sys2Proof/Machine/Step.lean ====
section
/-! DEFINITION. The step of the machine, and an instruction placed where it fetches. -/

namespace Sys2Proof.Machine

/-- One step of the machine (R123). -/
def step (s : State) : Host.Outcome State Fault Refusal := cycle s

/-- `s` with the instruction whose bits are `w` stored at `pc`, as the cartridge image or RDRAM would hold it. No
program stands in the machine after reset: this is the load from outside (log 4). -/
def State.withFetchWord (s : State) (nbits w : Nat) : State :=
  { s with mem := s.mem.placeWord s.pc.toNat (tableWord nbits w) }

end Sys2Proof.Machine
end

