-- ==== Sys2Proof/Machine/Loader.lean ====
section
/-! DEFINITION. The host's boot step: the ROM loader and `mount` (70_reset_and_hazards.md rules R305 to R312). -/

namespace Sys2Proof.Machine

/-- The byte order detected in an image (R306, R307). -/
inductive FormatKind where
  | bigEndian
  | byteSwapped
  | littleEndian
  | unknown
  deriving DecidableEq, Repr

/-- A CartridgeImage: the normalized bytes and the detected order (R306). -/
structure CartridgeImage where
  bytes : List Byte
  kind : FormatKind
  deriving DecidableEq, Repr

/-- The loader inspects the first 4 bytes against three magic sequences. Anything else, or fewer than 4 bytes, is
Unknown (R307, D27). -/
def detectFormat (bytes : List Byte) : FormatKind :=
  let magic := bytes.take 4
  if magic = [0x80#8, 0x37#8, 0x12#8, 0x40#8] then .bigEndian
  else if magic = [0x37#8, 0x80#8, 0x40#8, 0x12#8] then .byteSwapped
  else if magic = [0x40#8, 0x12#8, 0x37#8, 0x80#8] then .littleEndian
  else .unknown

/-- Swap each 16-bit pair; a last odd byte is copied (R308, R309). -/
def swapPairs : List Byte → List Byte
  | a :: b :: rest => b :: a :: swapPairs rest
  | [a] => [a]
  | [] => []

/-- Reverse each 32-bit group; a last partial group is copied (R308, R309). -/
def reverseGroups : List Byte → List Byte
  | a :: b :: c :: d :: rest => d :: c :: b :: a :: reverseGroups rest
  | [a, b, c] => [a, b, c]
  | [a, b] => [a, b]
  | [a] => [a]
  | [] => []

/-- Normalization to the big-endian layout (R308). -/
def normalizeBytes (kind : FormatKind) (bytes : List Byte) : List Byte :=
  match kind with
  | .bigEndian => bytes
  | .byteSwapped => swapPairs bytes
  | .littleEndian => reverseGroups bytes
  | .unknown => bytes

/-- `loadCartridge(bytes)`. It never faults (R307, D27) and touches nothing else (R312). -/
def loadCartridge (bytes : List Byte) : CartridgeImage :=
  { bytes := normalizeBytes (detectFormat bytes) bytes, kind := detectFormat bytes }

/-- The informational `FormatUnrecognized` is reported with an image of Unknown format (R272, R310). -/
def CartridgeImage.formatUnrecognized (image : CartridgeImage) : Bool := image.kind == .unknown

/-- The cells that hold `bytes` from the address `a` on. -/
def cellsOfBytes (a : Nat) : List Byte → List Host.Cell
  | [] => []
  | b :: rest => if b = unlistedByte then cellsOfBytes (a + 1) rest else (a, b) :: cellsOfBytes (a + 1) rest

/-- The AddressSpace that `mount` would build, before its conditions are checked (R311). -/
def mountedMemory (rdramBase : Word) (rdramSize : Nat) (image : CartridgeImage) : Memory :=
  { rdramBase := rdramBase, rdramSize := rdramSize, cartLength := image.bytes.length,
    cells := cellsOfBytes cartridgeBase image.bytes }

/-- `mount(image)`: RDRAM all zero and the cartridge holding the normalized bytes, or a refusal where the regions
would overlap or pass 2^32 (R311, D28). -/
def mount (rdramBase : Word) (rdramSize : Nat) (image : CartridgeImage) : Host.Outcome Memory Fault Refusal :=
  if (mountedMemory rdramBase rdramSize image).mapOk then .next (mountedMemory rdramBase rdramSize image)
  else .refused .mountRefused

/-- `newInterpreter(addressSpace, entryPoint, unknownPolicy, nonCanonical32)`: the reset state over that AddressSpace,
in that configuration (R131, R36). -/
def newInterpreter (mem : Memory) (entryPoint : Word) (cfg : Config) : State :=
  { State.reset with pc := entryPoint, cfg := cfg, mem := mem }

end Sys2Proof.Machine
end

