-- ==== Sys2Proof/Machine/HostInterface.lean ====
section
/-! DEFINITION. The host's operations at a step boundary (40_step_cycle.md rules R124 to R139, 20_memory.md rule R71) and
the results of `step` and `run`. -/

namespace Sys2Proof.Machine

/-! ### The result of a step (R124) -/

/-- A register delta: (register, old value, new value). -/
structure Delta where
  register : RegName
  old : Dword
  new : Dword
  deriving DecidableEq, Repr

/-- The log record `UnknownSkipped(pc, w)` (R115). -/
structure SkipLog where
  pc : Word
  word : Word
  deriving DecidableEq, Repr

/-- A StepResult (R124). -/
structure StepResult where
  status : Status
  pc : Word
  fault : Option FaultRecord
  deltas : List Delta
  memWrite : Option Store
  log : Option SkipLog
  deriving DecidableEq, Repr

/-- The effect that a step at `s` commits: that of its instruction, if it executes one and the rule does not raise. -/
def committedEffect (s : State) : Option Effect :=
  match plan s with
  | .run i =>
    match attempt i s (effectOf i s) with
    | .ok e => some e
    | .error _ => none
  | .stopped => none
  | .halt => none
  | .raise _ _ => none
  | .skip _ => none

/-- The deltas of register writes committed at `s`, leaving out writes to r0 (R124). -/
def deltasOf (s : State) (writes : List (RegName × Dword)) : List Delta :=
  (writes.filter (fun p => p.1 != .x 0#5)).map (fun p => { register := p.1, old := s.readName p.1, new := p.2 })

/-- The log of a step at `s` (R115, R124). -/
def skipLog (s : State) : Option SkipLog :=
  match plan s with
  | .skip w => some { pc := s.pc, word := w }
  | .stopped => none
  | .halt => none
  | .raise _ _ => none
  | .run _ => none

/-- The result of the step that leads from `s` to `t` (R124). -/
def stepResult (s t : State) : StepResult :=
  { status := t.status
    pc := t.pc
    fault := t.fault
    deltas := match committedEffect s with
      | some e => deltasOf s e.writes
      | none => []
    memWrite := match committedEffect s with
      | some e => e.store
      | none => none
    log := skipLog s }

/-! ### The bounded run (R127 to R130) -/

/-- A run is over in this status (R127). -/
def Status.final : Status → Bool
  | .faulted => true
  | .halted => true
  | .ready => false
  | .running => false

/-- `requestStop()` (R137). -/
def State.requestStop (s : State) : State := { s with stopRequest := true }

/-- The stop request as it stands at a boundary: `true` in the list is a request that arrives there (R112, R128). -/
def State.withArrival (s : State) (arrivals : List Bool) : State :=
  if arrivals.headD false then s.requestStop else s

/-- The loop of `run`: the state it ends in and the number of step calls it made (R128). -/
def runLoop : Nat → List Bool → State → Host.Outcome (State × Nat) Fault Refusal
  | 0, _, s => .next (s, 0)
  | budget + 1, arrivals, s =>
    if s.status.final then .next (s, 0)
    else
      match step (s.withArrival arrivals) with
      | .fault f => .fault f
      | .refused r => .refused r
      | .next t =>
        match runLoop budget arrivals.tail t with
        | .fault f => .fault f
        | .refused r => .refused r
        | .next (u, n) => .next (u, n + 1)

/-- A RunResult. When the status is Faulted, `fault` is the record (R129). -/
structure RunResult where
  status : Status
  steps : Nat
  fault : Option FaultRecord
  deriving DecidableEq, Repr

/-! ### The operations (R131 to R138, R71) -/

/-- One operation of the host at a step boundary. `mount`, `loadCartridge` and `newInterpreter` come before the
interpreter exists and stand in Loader.lean. -/
inductive HostOp where
  | step
  /-- `run(maxSteps)`, with the stop requests that arrive at its boundaries (R128) -/
  | run (maxSteps : Nat) (arrivals : List Bool)
  | getRegister (index : Nat)
  | getProgramCounter
  | getFault
  | requestStop
  | setRegister (index : Nat) (value : Dword)
  | read (address : Word) (width : Width)
  | write (address : Word) (width : Width) (value : Dword)
  | reset (entryPoint : Word)
  deriving DecidableEq, Repr

/-- What an operation answers. -/
inductive HostReply where
  | done
  | stepped (r : StepResult)
  | ran (r : RunResult)
  | register (v : Dword)
  | programCounter (v : Word)
  | fault (f : Option FaultRecord)
  | bytes (v : Dword)
  deriving DecidableEq, Repr

/-- `getRegister(index)`: an index above 31 is refused (R134). -/
def getRegister (s : State) (index : Nat) : Host.Outcome Dword Fault Refusal :=
  if index < 32 then .next (s.reg (BitVec.ofNat 5 index)) else .refused (.registerIndex index)

/-- `setRegister(index, value)`: any 64-bit value, and no effect on r0 (R138, D34). -/
def setRegister (s : State) (index : Nat) (v : Dword) : Host.Outcome State Fault Refusal :=
  if index < 32 then .next (s.setReg (BitVec.ofNat 5 index) v) else .refused (.registerIndex index)

/-- The host's `read`, under the checks of R56 (R71). -/
def hostRead (s : State) (a : Word) (n : Width) : Host.Outcome Dword Fault Refusal :=
  match s.mem.read a n with
  | .ok v => .next v
  | .error k => .fault (.hostAccess k a)

/-- The host's `write`, under the same checks: a fault changes nothing and is not recorded (R71). -/
def hostWrite (s : State) (a : Word) (n : Width) (v : Dword) : Host.Outcome State Fault Refusal :=
  match s.mem.checkWrite a n with
  | .ok _ => .next { s with mem := s.mem.store a.toNat n.bytes v }
  | .error k => .fault (.hostAccess k a)

/-- The answer of an operation that reads a value and changes nothing. -/
def answering {α : Type} (s : State) (reply : α → HostReply) :
    Host.Outcome α Fault Refusal → Host.Outcome (State × HostReply) Fault Refusal
  | .next v => .next (s, reply v)
  | .fault f => .fault f
  | .refused r => .refused r

/-- The answer of an operation that changes the state. -/
def changing (reply : State → HostReply) :
    Host.Outcome State Fault Refusal → Host.Outcome (State × HostReply) Fault Refusal
  | .next t => .next (t, reply t)
  | .fault f => .fault f
  | .refused r => .refused r

/-- The answer of `run` (R129, R133). -/
def answerRun : Host.Outcome (State × Nat) Fault Refusal → Host.Outcome (State × HostReply) Fault Refusal
  | .next (t, n) => .next (t, .ran { status := t.status, steps := n, fault := t.fault })
  | .fault f => .fault f
  | .refused r => .refused r

/-- One operation of the host (R132 to R138, R71, R301). -/
def hostCall (op : HostOp) (s : State) : Host.Outcome (State × HostReply) Fault Refusal :=
  match op with
  | .step => changing (fun t => .stepped (stepResult s t)) (step s)
  | .run maxSteps arrivals => answerRun (runLoop maxSteps arrivals s)
  | .getRegister index => answering s .register (getRegister s index)
  | .getProgramCounter => .next (s, .programCounter s.pc)
  | .getFault => .next (s, .fault s.fault)
  | .requestStop => .next (s.requestStop, .done)
  | .setRegister index v => changing (fun _ => .done) (setRegister s index v)
  | .read a n => answering s .bytes (hostRead s a n)
  | .write a n v => changing (fun _ => .done) (hostWrite s a n v)
  | .reset entryPoint => .next (s.resetTo entryPoint, .done)

/-- The operations that the host has in flight at one boundary: one has its meaning, two or more are refused (R139). -/
def hostBoundary (ops : List HostOp) (s : State) : Host.Outcome (State × HostReply) Fault Refusal :=
  match ops with
  | [] => .next (s, .done)
  | [op] => hostCall op s
  | _ :: _ :: _ => .refused .concurrentHostOperations

end Sys2Proof.Machine
end

