-- ==== Sys2Proof/Safety.lean ====
section
/-! DEFINITION. What claims about the machine are said with: the invariant of the state, what a completed instruction
leaves unchanged, and what a fault leaves. -/

namespace Sys2Proof.Machine

/-! ### Safe states -/

/-- The invariant that construction sets up and that every step and every host operation keeps. -/
structure State.Inv (s : State) : Prop where
  /-- memory is in canonical form over a legal map (R51, R52, R311) -/
  memory : s.mem.wf = true
  /-- r0 holds zero (R21) -/
  zero : s.x[0] = 0#64
  /-- the record is present exactly in status Faulted (R29, R276) -/
  recordIff : s.status = .faulted ↔ s.fault.isSome = true
  /-- the record names the instruction at `pc` (R135, R276) -/
  recordPc : ∀ f, s.fault = some f → f.pc = s.pc
  /-- a delay slot is at a word-aligned address (R25) -/
  slotAligned : s.delay ≠ .normal → s.pc.toNat % 4 = 0
  /-- an unread multiply or divide result was computed out of reach of any earlier read (R27, R28, R190) -/
  freshAge : s.hiloFresh = true → s.sinceHiLoRead = 2
  /-- before the first step there is no slot and no hazard (R36) -/
  readyClean : s.status = .ready → s.delay = .normal ∧ s.sinceHiLoRead = 2 ∧ s.hiloFresh = false

/-- A run of `n` steps from `s` is safe when it ends in a state that is not Faulted (R127). -/
def SafeRun (n : Nat) (s : State) : Prop := ∃ t, Sys2Proof.core.run n s = .next t ∧ t.status ≠ .faulted

/-! ### What an instruction changes and what it leaves -/

/-- Register `rd` holds `v`, r0 zero, and every other general register what it held (R20, R21). -/
def WritesOnly (s t : State) (rd : Reg) (v : Dword) : Prop :=
  ∀ r : Reg, t.reg r = if r = rd ∧ r ≠ 0#5 then v else s.reg r

/-- No general register changes. -/
def KeepsRegs (s t : State) : Prop := ∀ r : Reg, t.reg r = s.reg r

/-- HI and LO do not change. -/
def KeepsHiLo (s t : State) : Prop := t.hi = s.hi ∧ t.lo = s.lo

/-- The address map does not change. -/
def KeepsMap (s t : State) : Prop :=
  t.mem.rdramBase = s.mem.rdramBase ∧ t.mem.rdramSize = s.mem.rdramSize ∧ t.mem.cartLength = s.mem.cartLength

/-- No byte of memory changes, at any address. -/
def KeepsMemory (s t : State) : Prop := KeepsMap s t ∧ ∀ a : Nat, t.mem.byteAt a = s.mem.byteAt a

/-- What belongs to the host does not change: the record, the stop request and the configuration. -/
def KeepsHost (s t : State) : Prop := t.fault = s.fault ∧ t.stopRequest = s.stopRequest ∧ t.cfg = s.cfg

/-- The program counter of a completed step (R119). -/
def AdvancesPc (s t : State) : Prop :=
  (∀ a, s.delay = .slotTaken a → t.pc = a) ∧ ((∀ a, s.delay ≠ .slotTaken a) → t.pc = s.pc + 4#32)

/-- The hazard state after an instruction that neither reads nor computes HI and LO (R121). -/
def CountsStep (s t : State) : Prop :=
  t.sinceHiLoRead.val = min (s.sinceHiLoRead.val + 1) 2 ∧ t.hiloFresh = s.hiloFresh

/-- A step completed: `pc` advanced, the status is Running, and the host's part is untouched (R119, R122). -/
def Completed (s t : State) : Prop := AdvancesPc s t ∧ t.status = .running ∧ KeepsHost s t

/-- A step of an instruction that is no transfer completed (R119 to R122), taking no draw. -/
def Ordinary (s t : State) : Prop := Completed s t ∧ t.delay = .normal ∧ CountsStep s t ∧ t.draws = s.draws

/-- An ordinary instruction wrote `v` to `rd` and changed nothing else but what completion changes. -/
def OnlyWrites (s t : State) (rd : Reg) (v : Dword) : Prop :=
  WritesOnly s t rd v ∧ KeepsHiLo s t ∧ KeepsMemory s t ∧ Ordinary s t

/-- A transfer with outcome `d` completed, with its delay slot next (R119 to R122, R240). -/
def Transfers (s t : State) (d : DelayState) : Prop :=
  Completed s t ∧ t.delay = d ∧ CountsStep s t ∧ t.draws = s.draws ∧ KeepsHiLo s t ∧ KeepsMemory s t

/-- An ordinary instruction stored the low `n` bytes of `v` at `a`, most significant first, and changed nothing else but
what completion changes (R59, R212). The stored bytes read back where memory is in canonical form. -/
def OnlyStores (s t : State) (a n : Nat) (v : Dword) : Prop :=
  KeepsRegs s t ∧ KeepsHiLo s t ∧ Ordinary s t ∧ KeepsMap s t ∧
  (∀ b : Nat, b < a ∨ a + n ≤ b → t.mem.byteAt b = s.mem.byteAt b) ∧
  (s.mem.wf = true → ∀ k : Nat, k < n → t.mem.byteAt (a + k) = v.extractLsb' (8 * (n - 1 - k)) 8)

/-- A multiply or divide left `hi` and `lo`, and changed nothing else but what completion changes (R121, R191 to R194). -/
def OnlyComputes (s t : State) (hi lo : Dword) : Prop :=
  t.hi = hi ∧ t.lo = lo ∧ KeepsRegs s t ∧ KeepsMemory s t ∧ Completed s t ∧ t.delay = .normal ∧
  t.sinceHiLoRead.val = min (s.sinceHiLoRead.val + 1) 2 ∧ t.hiloFresh = true

/-- An MFHI or MFLO wrote `v` to `rd`, reset the hazard state, and changed nothing else but what completion changes
(R121, R195, R196). -/
def OnlyReadsOut (s t : State) (rd : Reg) (v : Dword) : Prop :=
  WritesOnly s t rd v ∧ KeepsHiLo s t ∧ KeepsMemory s t ∧ Completed s t ∧ t.delay = .normal ∧
  t.sinceHiLoRead = 0 ∧ t.hiloFresh = false ∧ t.draws = s.draws

/-- Bits 31 to 0 of a general register. -/
def lowWord (s : State) (r : Reg) : Word := (s.reg r).extractLsb' 0 32

/-! ### Faults -/

/-- The state after a fault: the status and the record are set and nothing else changes (R118, R276). -/
def faultedWith (s : State) (kind : FaultKind) (info : Word) : State :=
  { s with status := .faulted, fault := some { kind := kind, info := info, pc := s.pc } }

/-- The value may be used as a 32-bit one: it is canonical, or the policy is `Low32` (R140, R210, R241). -/
def Usable32 (s : State) (v : Dword) : Prop := v = (v.extractLsb' 0 32).signExtend 64 ∨ s.cfg.nonCanonical32 = .low32

/-- The step goes on to fetch: the status is Ready or Running and no stop is requested (R111, R112). -/
def Fetches (s : State) : Prop := (s.status = .ready ∨ s.status = .running) ∧ s.stopRequest = false

/-- The word at `pc` is fetched without a fault: `pc` is aligned and one region holds it (R54, R55, R61, R113). -/
def FetchesWord (s : State) (w : Word) : Prop :=
  Fetches s ∧ s.pc.toNat % 4 = 0 ∧ (s.mem.regionOf s.pc.toNat 4).isSome = true ∧
  w = s.mem.byteAt s.pc.toNat ++ s.mem.byteAt (s.pc.toNat + 1) ++ s.mem.byteAt (s.pc.toNat + 2) ++
    s.mem.byteAt (s.pc.toNat + 3)

end Sys2Proof.Machine
end

