-- ==== Sys2Proof/Certificates/Slice0/Obligations.lean ====
section
/-! DEFINITION. The statements about the machine, for the provers. -/

open Sys2Proof Sys2Proof.Machine

/-! ### Encoding -/

/-- Decoding an encoded instruction gives it back, for every instruction and every value of every field (R80 to R91). -/
def Obligations.DecodeInvertsEncode : Prop := ∀ i : Instr, decode (encode i) = .known i

/-- A word that decodes to an instruction is the word the encoder writes for it: each word has one meaning (R83, R97).
-/
def Obligations.EncodeInvertsDecode : Prop := ∀ (w : Word) (i : Instr), decode w = .known i → encode i = w

/-- R97 (the spec's decision D18): Unknown is what every word that matches no row decodes to, and it carries the word;
the four cases, the tables of R88 to R90 written out; the fault it raises has the whole word as info; and no two rows
match one word. -/
def Obligations.UnknownIsEveryWordOfNoRow : Prop :=
  (∀ w : Word, (∃ c u, decode w = .unknown c u) ↔ isTableWord w = false) ∧
  (∀ (w : Word) c u, decode w = .unknown c u → u = w) ∧
  (∀ w : Word, decode w = .unknown .opcode w ↔
    (opField w).toNat ∈ [0x10, 0x11, 0x12, 0x13, 0x14, 0x15, 0x16, 0x17, 0x18, 0x19, 0x1A, 0x1B, 0x1C, 0x1D, 0x1E, 0x1F,
      0x22, 0x26, 0x2A, 0x2C, 0x2D, 0x2E, 0x2F, 0x30, 0x31, 0x32, 0x33, 0x34, 0x35, 0x36, 0x38, 0x39, 0x3A, 0x3B, 0x3C,
      0x3D, 0x3E]) ∧
  (∀ w : Word, decode w = .unknown .function w ↔
    opField w = 0x00#6 ∧ (functField w).toNat ∈ [0x01, 0x05, 0x0A, 0x0B, 0x0C, 0x0D, 0x0E, 0x0F, 0x14, 0x15, 0x16, 0x17,
      0x1C, 0x1D, 0x1E, 0x1F, 0x28, 0x29, 0x2C, 0x2D, 0x2E, 0x2F, 0x30, 0x31, 0x32, 0x33, 0x34, 0x35, 0x36, 0x37, 0x38,
      0x39, 0x3A, 0x3B, 0x3C, 0x3D, 0x3E, 0x3F]) ∧
  (∀ w : Word, decode w = .unknown .selector w ↔
    opField w = 0x01#6 ∧ (rtField w).toNat ∉ [0x00, 0x01, 0x10, 0x11]) ∧
  (∀ w : Word, decode w = .unknown .reservedField w ↔
    isTableWord w = false ∧ decode w ≠ .unknown .opcode w ∧ decode w ≠ .unknown .function w ∧
    decode w ≠ .unknown .selector w) ∧
  (∀ (s : State) (w : Word) c u, FetchesWord s w → decode w = .unknown c u → s.cfg.unknownPolicy = .fatal →
    step s = .next (faultedWith s .decodeUnknown w)) ∧
  (∀ r ∈ opcodeRows, ∀ q ∈ opcodeRows, ∀ w : Word, r.matchesWord w = true → q.matchesWord w = true → r = q)

/-- A word that decodes to an instruction matches the row of that instruction's mnemonic, and no other row. -/
def Obligations.DecodedInstructionIsItsRow : Prop :=
  ∀ (w : Word) (i : Instr), decode w = .known i →
    ∀ r ∈ opcodeRows, (r.matchesWord w = true ↔ r.mnemonic = i.mnemonic)

/-- R91 (the spec's decision D13): an admitted opcode with a nonzero must-be-zero field decodes as Unknown, line by
line of its table. -/
def Obligations.NonzeroReservedFieldIsUnknown : Prop :=
  ∀ (rs rt rd : Reg) (sa : BitVec 5) (imm : BitVec 16),
  (∀ f ∈ [0x00#6, 0x02#6, 0x03#6], rs ≠ 0#5 →
    decode (encodeR rs rt rd sa f) = .unknown .reservedField (encodeR rs rt rd sa f)) ∧
  (∀ f ∈ [0x04#6, 0x06#6, 0x07#6], sa ≠ 0#5 →
    decode (encodeR rs rt rd sa f) = .unknown .reservedField (encodeR rs rt rd sa f)) ∧
  (∀ f ∈ [0x20#6, 0x21#6, 0x22#6, 0x23#6, 0x24#6, 0x25#6, 0x26#6, 0x27#6, 0x2A#6, 0x2B#6], sa ≠ 0#5 →
    decode (encodeR rs rt rd sa f) = .unknown .reservedField (encodeR rs rt rd sa f)) ∧
  (∀ f ∈ [0x18#6, 0x19#6, 0x1A#6, 0x1B#6], (rd ≠ 0#5 ∨ sa ≠ 0#5) →
    decode (encodeR rs rt rd sa f) = .unknown .reservedField (encodeR rs rt rd sa f)) ∧
  (∀ f ∈ [0x10#6, 0x12#6], (rs ≠ 0#5 ∨ rt ≠ 0#5 ∨ sa ≠ 0#5) →
    decode (encodeR rs rt rd sa f) = .unknown .reservedField (encodeR rs rt rd sa f)) ∧
  (∀ f ∈ [0x11#6, 0x13#6], (rt ≠ 0#5 ∨ rd ≠ 0#5 ∨ sa ≠ 0#5) →
    decode (encodeR rs rt rd sa f) = .unknown .reservedField (encodeR rs rt rd sa f)) ∧
  ((rt ≠ 0#5 ∨ rd ≠ 0#5 ∨ sa ≠ 0#5) →
    decode (encodeR rs rt rd sa 0x08#6) = .unknown .reservedField (encodeR rs rt rd sa 0x08#6)) ∧
  ((rt ≠ 0#5 ∨ sa ≠ 0#5) →
    decode (encodeR rs rt rd sa 0x09#6) = .unknown .reservedField (encodeR rs rt rd sa 0x09#6)) ∧
  (∀ op ∈ [0x06#6, 0x07#6], rt ≠ 0#5 →
    decode (encodeI op rs rt imm) = .unknown .reservedField (encodeI op rs rt imm)) ∧
  (rs ≠ 0#5 →
    decode (encodeI 0x0F#6 rs rt imm) = .unknown .reservedField (encodeI 0x0F#6 rs rt imm))

/-- Words written out from the spec's encoding decode to the instructions they stand for, one of each family. -/
def Obligations.WrittenOutWordsDecode : Prop :=
  decode 0x20080005#32 = .known (.addi 0#5 8#5 5#16) ∧
  decode 0x00221822#32 = .known (.sub 1#5 2#5 3#5) ∧
  decode 0x00021902#32 = .known (.srl 2#5 3#5 4#5) ∧
  decode 0x0022001A#32 = .known (.div 1#5 2#5) ∧
  decode 0x00001810#32 = .known (.mfhi 3#5) ∧
  decode 0x84220002#32 = .known (.lh 1#5 2#5 2#16) ∧
  decode 0xFC220008#32 = .known (.sd 1#5 2#5 8#16) ∧
  decode 0x1422FFFE#32 = .known (.bne 1#5 2#5 0xFFFE#16) ∧
  decode 0x04310001#32 = .known (.bgezal 1#5 1#16) ∧
  decode 0x0C000004#32 = .known (.jal 4#26) ∧
  decode 0x00201009#32 = .known (.jalr 1#5 2#5) ∧
  decode 0x0000000D#32 = .unknown .function 0x0000000D#32

/-- R93 (of general knowledge in the spec): the word 0 is NOP. It decodes as SLL r0, r0, 0, and has no effect but that
of a completed step. -/
def Obligations.ZeroWordIsNop : Prop :=
  decode 0x00000000#32 = .known (.sll 0#5 0#5 0#5) ∧
  ∀ s : State, ∃ t, exec (.sll 0#5 0#5 0#5) s = .next t ∧
    KeepsRegs s t ∧ KeepsHiLo s t ∧ KeepsMemory s t ∧ Ordinary s t

/-! ### The step -/

/-- Where the word at `pc` is fetched and decodes to an instruction, the step is the execution of that instruction. -/
def Obligations.StepRunsDecodedInstruction : Prop :=
  ∀ (s : State) (w : Word) (i : Instr), FetchesWord s w → decode w = .known i → step s = exec i s

/-- R111 (the spec's decision D16): a step in status Faulted or Halted changes nothing and returns the stored record
or the status Halted. -/
def Obligations.StoppedStepChangesNothing : Prop :=
  ∀ s : State, s.status = .faulted ∨ s.status = .halted →
    step s = .next s ∧
    hostCall .step s = .next (s, .stepped
      { status := s.status, pc := s.pc, fault := s.fault, deltas := [], memWrite := none, log := none })

/-- R112 (the spec's decision D15): in status Ready or Running a step reads the stop request first; set, it halts the
block and nothing else. -/
def Obligations.StopRequestHalts : Prop :=
  ∀ s : State, s.status = .ready ∨ s.status = .running → s.stopRequest = true →
    step s = .next { s with status := .halted }

/-- R113: the fetch is a 4-byte read at `pc`; an unaligned `pc` faults Misaligned, one in no region Unmapped, both with
info `pc`; otherwise the fetch gives the word of `MemRead(pc, 4)`. -/
def Obligations.FetchReadsWordOrFaults : Prop :=
  ∀ s : State, Fetches s →
    (s.pc.toNat % 4 ≠ 0 → step s = .next (faultedWith s .misaligned s.pc)) ∧
    (s.pc.toNat % 4 = 0 → s.mem.regionOf s.pc.toNat 4 = none → step s = .next (faultedWith s .unmapped s.pc)) ∧
    (s.pc.toNat % 4 = 0 → (s.mem.regionOf s.pc.toNat 4).isSome = true →
      ∃ v, s.mem.read s.pc .b4 = .ok v ∧ fetch s = .ok (v.extractLsb' 0 32))

/-- R115 (the spec's decision D14): an Unknown word raises DecodeUnknown under Fatal; under Skip the step completes
with no effect and logs it. -/
def Obligations.UnknownWordFollowsPolicy : Prop :=
  ∀ (s : State) (w : Word) (c : UnknownCase) (u : Word), FetchesWord s w → decode w = .unknown c u →
    (s.cfg.unknownPolicy = .fatal → step s = .next (faultedWith s .decodeUnknown w)) ∧
    (s.cfg.unknownPolicy = .skip → ∃ t,
      hostCall .step s = .next (t, .stepped
        { status := .running, pc := t.pc, fault := s.fault, deltas := [], memWrite := none,
          log := some { pc := s.pc, word := w } }) ∧
      step s = .next t ∧ KeepsRegs s t ∧ KeepsHiLo s t ∧ KeepsMemory s t ∧ Ordinary s t)

/-- R116 (the spec's decision D10): a Branch or Jump in a delay slot, of a taken or a not-taken transfer, faults with
the word as info. -/
def Obligations.TransferInDelaySlotFaults : Prop :=
  ∀ (s : State) (w : Word) (i : Instr), FetchesWord s w → decode w = .known i →
    s.delay ≠ .normal → i.opClass = .branch ∨ i.opClass = .jump →
    step s = .next (faultedWith s (.unpredictable .branchInDelaySlot) w)

/-- R276: a step that faults sets the status and the record, with `pc` the faulting instruction's address, changes
nothing else, and returns the fault to the caller with nothing committed. -/
def Obligations.FaultEntryChangesNothingElse : Prop :=
  ∀ s t : State, step s = .next t → s.status ≠ .faulted → t.status = .faulted →
    ∃ kind info, t = faultedWith s kind info ∧
      hostCall .step s = .next (t, .stepped
        { status := .faulted, pc := s.pc, fault := some { kind := kind, info := info, pc := s.pc }, deltas := [],
          memWrite := none, log := none }) ∧
      hostCall .getProgramCounter t = .next (t, .programCounter s.pc)

/-- R119: after a completed step, `pc` is the pending target if the step was the slot of a taken transfer, else the next
word, modulo 2^32. -/
def Obligations.CompletedStepAdvances : Prop :=
  ∀ s t : State, step s = .next t → t.status ≠ .faulted → t.status ≠ .halted →
    (∀ a, s.delay = .slotTaken a → t.pc = a) ∧
    (s.delay = .normal ∨ s.delay = .slotNotTaken → t.pc = s.pc + 4#32)

/-- R121 (the spec's decisions D21, D32): the hazard state after a completed step, by the instruction that ran; a
skipped word counts as any other. -/
def Obligations.HazardStateAfterStep : Prop :=
  ∀ (s t : State) (w : Word), FetchesWord s w → step s = .next t → t.status = .running →
    ((∃ rd, decode w = .known (.mfhi rd) ∨ decode w = .known (.mflo rd)) →
      t.sinceHiLoRead = 0 ∧ t.hiloFresh = false) ∧
    ((∀ rd, decode w ≠ .known (.mfhi rd) ∧ decode w ≠ .known (.mflo rd)) →
      t.sinceHiLoRead.val = min (s.sinceHiLoRead.val + 1) 2 ∧
      ((∃ rs rt, decode w = .known (.mult rs rt) ∨ decode w = .known (.multu rs rt) ∨ decode w = .known (.div rs rt) ∨
          decode w = .known (.divu rs rt)) → t.hiloFresh = true) ∧
      ((∀ rs rt, decode w ≠ .known (.mult rs rt) ∧ decode w ≠ .known (.multu rs rt) ∧ decode w ≠ .known (.div rs rt) ∧
          decode w ≠ .known (.divu rs rt)) → t.hiloFresh = s.hiloFresh))

/-- R125, the branch-delay invariant: after a taken transfer at `A`, `pc` is A+4, and only the step that executes the
instruction there sets `pc` to the target. That this step also leaves the delay state Normal is R120's sentence, which
the spec derives from R116, its decision D10 (log 16). -/
def Obligations.RedirectionFollowsDelaySlot : Prop :=
  ∀ (s t : State) (target : Word), step s = .next t → t.status = .running → t.delay = .slotTaken target →
    t.pc = s.pc + 4#32 ∧
    ∀ u : State, step t = .next u → u.status = .running → u.pc = target ∧ u.delay = .normal

/-- Every step answers a next state: a step fault is an effect on the state, never an outcome that stops the model. The
form is the model's choice (log 1). A step that neither faults nor halts leaves the status Running (R122, the spec's
decision D17), and after a delay slot the delay state Normal (R120). -/
def Obligations.EveryStepHasNextState : Prop :=
  ∀ s : State, ∃ t, step s = .next t ∧ (t.status = .running ∨ t.status = .faulted ∨ t.status = .halted) ∧
    (t.status = .running → s.delay ≠ .normal → t.delay = .normal)

/-! ### Whole-machine rules -/

/-- R24: only MULT, MULTU, DIV and DIVU write HI and LO, MTHI only HI, MTLO only LO; and only MFHI and MFLO read them:
changing HI and LO beforehand changes nothing but HI and LO afterwards, and those only where they are not written. -/
def Obligations.HiLoAccessIsConfined : Prop :=
  (∀ (i : Instr) (s t : State), exec i s = .next t →
    (∀ rs rt, i ≠ .mult rs rt ∧ i ≠ .multu rs rt ∧ i ≠ .div rs rt ∧ i ≠ .divu rs rt) →
    ((∀ rs, i ≠ .mthi rs) → t.hi = s.hi) ∧ ((∀ rs, i ≠ .mtlo rs) → t.lo = s.lo)) ∧
  (∀ (i : Instr) (s t : State) (h l : Dword), exec i s = .next t → (∀ rd, i ≠ .mfhi rd ∧ i ≠ .mflo rd) →
    ∃ h' l', exec i { s with hi := h, lo := l } = .next { t with hi := h', lo := l' } ∧
      (h' = t.hi ∨ (h' = h ∧ t.hi = s.hi)) ∧ (l' = t.lo ∨ (l' = l ∧ t.lo = s.lo)))

/-- Only a Store changes memory: every other instruction leaves every byte as it was (R64, files 41 to 45). -/
def Obligations.OnlyStoresChangeMemory : Prop :=
  ∀ (i : Instr) (s t : State), exec i s = .next t → i.opClass ≠ .store → KeepsMemory s t

/-- R72: no operation of the host, a step and a run of any length among them, changes a byte of the cartridge. -/
def Obligations.CartridgeBytesNeverChange : Prop :=
  ∀ (op : HostOp) (s t : State) (reply : HostReply), s.mem.mapOk = true → hostCall op s = .next (t, reply) →
    ∀ a : Nat, cartridgeBase ≤ a → a < cartridgeBase + s.mem.cartLength → t.mem.byteAt a = s.mem.byteAt a

/-- No operation of the host changes the configuration or the address map (R131, R36). -/
def Obligations.ConfigurationNeverChanges : Prop :=
  ∀ (op : HostOp) (s t : State) (reply : HostReply), hostCall op s = .next (t, reply) → t.cfg = s.cfg ∧ KeepsMap s t

/-- The invariant holds after reset. The entry point, the absence of an image and `draws` are the model's choices (logs
2, 7 and 3). -/
def Obligations.InvariantHoldsAtReset : Prop := State.reset.Inv

/-- The invariant holds after construction over any AddressSpace that `mount` builds, at any entry point, in any
configuration (R36, R131, R311). -/
def Obligations.InvariantHoldsAtConstruction : Prop :=
  ∀ (base : Word) (size : Nat) (image : CartridgeImage) (mem : Memory) (entryPoint : Word) (cfg : Config),
    mount base size image = .next mem → (newInterpreter mem entryPoint cfg).Inv

/-- Every step from a state with the invariant leads to one with it. -/
def Obligations.StepKeepsInvariant : Prop := ∀ s t : State, s.Inv → step s = .next t → t.Inv

/-- Every operation of the host, a run of any length among them, keeps the invariant. -/
def Obligations.HostCallKeepsInvariant : Prop :=
  ∀ (op : HostOp) (s t : State) (reply : HostReply), s.Inv → hostCall op s = .next (t, reply) → t.Inv

/-- R21: r0 reads zero in every state, and a write to it changes nothing; and what a write to another register leaves.
-/
def Obligations.RegisterZeroIsHardWired : Prop :=
  ∀ (s : State) (r : Reg) (v : Dword),
    s.reg 0#5 = 0#64 ∧ s.setReg 0#5 v = s ∧ WritesOnly s (s.setReg r v) r v

/-! ### Immediate and register arithmetic -/

/-- ADD, SUB and ADDI where the exact result fits (R142, R161, R163). -/
def Obligations.SignedAddSubtractResult : Prop :=
  ∀ (s : State) (rs rt rd : Reg) (imm : BitVec 16),
  (Usable32 s (s.reg rs) → Usable32 s (s.reg rt) →
    -2147483648 ≤ (lowWord s rs).toInt + (lowWord s rt).toInt → (lowWord s rs).toInt + (lowWord s rt).toInt ≤ 2147483647 →
    ∃ t, exec (.add rs rt rd) s = .next t ∧
      OnlyWrites s t rd (BitVec.ofInt 64 ((lowWord s rs).toInt + (lowWord s rt).toInt))) ∧
  (Usable32 s (s.reg rs) → Usable32 s (s.reg rt) →
    -2147483648 ≤ (lowWord s rs).toInt - (lowWord s rt).toInt → (lowWord s rs).toInt - (lowWord s rt).toInt ≤ 2147483647 →
    ∃ t, exec (.sub rs rt rd) s = .next t ∧
      OnlyWrites s t rd (BitVec.ofInt 64 ((lowWord s rs).toInt - (lowWord s rt).toInt))) ∧
  (Usable32 s (s.reg rs) →
    -2147483648 ≤ (lowWord s rs).toInt + imm.toInt → (lowWord s rs).toInt + imm.toInt ≤ 2147483647 →
    ∃ t, exec (.addi rs rt imm) s = .next t ∧
      OnlyWrites s t rt (BitVec.ofInt 64 ((lowWord s rs).toInt + imm.toInt)))

/-- R141 (ADDI by the spec's decision D2): ADD, SUB and ADDI fault when the exact result lies outside the signed
32-bit range, with no register written, r0 as destination included; ADDU, SUBU and ADDIU never raise it. -/
def Obligations.SignedOverflowFaults : Prop :=
  ∀ (s : State) (rs rt rd : Reg) (imm : BitVec 16),
  (Usable32 s (s.reg rs) → Usable32 s (s.reg rt) →
    (lowWord s rs).toInt + (lowWord s rt).toInt < -2147483648 ∨ 2147483647 < (lowWord s rs).toInt + (lowWord s rt).toInt →
    exec (.add rs rt rd) s = .next (faultedWith s .arithmeticOverflow (encode (.add rs rt rd)))) ∧
  (Usable32 s (s.reg rs) → Usable32 s (s.reg rt) →
    (lowWord s rs).toInt - (lowWord s rt).toInt < -2147483648 ∨ 2147483647 < (lowWord s rs).toInt - (lowWord s rt).toInt →
    exec (.sub rs rt rd) s = .next (faultedWith s .arithmeticOverflow (encode (.sub rs rt rd)))) ∧
  (Usable32 s (s.reg rs) →
    (lowWord s rs).toInt + imm.toInt < -2147483648 ∨ 2147483647 < (lowWord s rs).toInt + imm.toInt →
    exec (.addi rs rt imm) s = .next (faultedWith s .arithmeticOverflow (encode (.addi rs rt imm)))) ∧
  (∀ i ∈ [Instr.addu rs rt rd, .subu rs rt rd, .addiu rs rt imm], ∀ info,
    exec i s ≠ .next (faultedWith s .arithmeticOverflow info))

/-- ADDU, SUBU and ADDIU: modulo 2^32, then sign-extended (R143, R162, R164). -/
def Obligations.WrappingAddSubtractResult : Prop :=
  ∀ (s : State) (rs rt rd : Reg) (imm : BitVec 16),
  (Usable32 s (s.reg rs) → Usable32 s (s.reg rt) →
    ∃ t, exec (.addu rs rt rd) s = .next t ∧ OnlyWrites s t rd ((lowWord s rs + lowWord s rt).signExtend 64)) ∧
  (Usable32 s (s.reg rs) → Usable32 s (s.reg rt) →
    ∃ t, exec (.subu rs rt rd) s = .next t ∧ OnlyWrites s t rd ((lowWord s rs - lowWord s rt).signExtend 64)) ∧
  (Usable32 s (s.reg rs) →
    ∃ t, exec (.addiu rs rt imm) s = .next t ∧
      OnlyWrites s t rt ((lowWord s rs + BitVec.ofInt 32 imm.toInt).signExtend 64))

/-- The 32-bit operations on a source that is not canonical, under the Fault policy (R140): each instruction of its
list, on each source it tests. -/
def Obligations.NonCanonicalOperandFaults : Prop :=
  ∀ (s : State) (rs rt rd : Reg) (sa : BitVec 5) (imm : BitVec 16),
  (¬ Usable32 s (s.reg rs) → ∀ i ∈ [Instr.addi rs rt imm, .addiu rs rt imm],
    exec i s = .next (faultedWith s (.unpredictable .nonCanonicalOperand) (encode i))) ∧
  (¬ Usable32 s (s.reg rs) ∨ ¬ Usable32 s (s.reg rt) →
    ∀ i ∈ [Instr.add rs rt rd, .addu rs rt rd, .sub rs rt rd, .subu rs rt rd],
    exec i s = .next (faultedWith s (.unpredictable .nonCanonicalOperand) (encode i))) ∧
  (¬ Usable32 s (s.reg rt) → ∀ i ∈ [Instr.srl rt rd sa, .sra rt rd sa, .srlv rs rt rd, .srav rs rt rd],
    exec i s = .next (faultedWith s (.unpredictable .nonCanonicalOperand) (encode i))) ∧
  (s.sinceHiLoRead = 2 → ¬ Usable32 s (s.reg rs) ∨ ¬ Usable32 s (s.reg rt) →
    ∀ i ∈ [Instr.mult rs rt, .multu rs rt, .div rs rt, .divu rs rt],
    exec i s = .next (faultedWith s (.unpredictable .nonCanonicalOperand) (encode i)))

/-- SLT, SLTU, SLTI and SLTIU: 64-bit compares; SLTIU's immediate is sign-extended, then unsigned (R144, R145, R169,
R170). -/
def Obligations.CompareResult : Prop :=
  ∀ (s : State) (rs rt rd : Reg) (imm : BitVec 16),
  (∃ t, exec (.slt rs rt rd) s = .next t ∧
    OnlyWrites s t rd (if (s.reg rs).toInt < (s.reg rt).toInt then 1#64 else 0#64)) ∧
  (∃ t, exec (.sltu rs rt rd) s = .next t ∧
    OnlyWrites s t rd (if (s.reg rs).toNat < (s.reg rt).toNat then 1#64 else 0#64)) ∧
  (∃ t, exec (.slti rs rt imm) s = .next t ∧
    OnlyWrites s t rt (if (s.reg rs).toInt < imm.toInt then 1#64 else 0#64)) ∧
  (∃ t, exec (.sltiu rs rt imm) s = .next t ∧
    OnlyWrites s t rt (if (s.reg rs).toNat < (BitVec.ofInt 64 imm.toInt).toNat then 1#64 else 0#64))

/-- AND, OR, XOR and NOR on 64 bits; ANDI, ORI and XORI with the zero-extended immediate; LUI (R146 to R149, R165 to
R168). -/
def Obligations.LogicResult : Prop :=
  ∀ (s : State) (rs rt rd : Reg) (imm : BitVec 16),
  (∃ t, exec (.and rs rt rd) s = .next t ∧ OnlyWrites s t rd (s.reg rs &&& s.reg rt)) ∧
  (∃ t, exec (.or rs rt rd) s = .next t ∧ OnlyWrites s t rd (s.reg rs ||| s.reg rt)) ∧
  (∃ t, exec (.xor rs rt rd) s = .next t ∧ OnlyWrites s t rd (s.reg rs ^^^ s.reg rt)) ∧
  (∃ t, exec (.nor rs rt rd) s = .next t ∧ OnlyWrites s t rd (~~~(s.reg rs ||| s.reg rt))) ∧
  (∃ t, exec (.andi rs rt imm) s = .next t ∧ OnlyWrites s t rt (s.reg rs &&& BitVec.ofNat 64 imm.toNat)) ∧
  (∃ t, exec (.ori rs rt imm) s = .next t ∧ OnlyWrites s t rt (s.reg rs ||| BitVec.ofNat 64 imm.toNat)) ∧
  (∃ t, exec (.xori rs rt imm) s = .next t ∧ OnlyWrites s t rt (s.reg rs ^^^ BitVec.ofNat 64 imm.toNat)) ∧
  (∃ t, exec (.lui rt imm) s = .next t ∧ OnlyWrites s t rt (BitVec.ofInt 64 (imm.toInt * 65536)))

/-- The shifts: by `sa`, or by bits 4 to 0 of `x[rs]`; SLL and SLLV need no canonical operand (R171 to R176). -/
def Obligations.ShiftResult : Prop :=
  ∀ (s : State) (rs rt rd : Reg) (sa : BitVec 5),
  (∃ t, exec (.sll rt rd sa) s = .next t ∧ OnlyWrites s t rd ((lowWord s rt <<< sa.toNat).signExtend 64)) ∧
  (∃ t, exec (.sllv rs rt rd) s = .next t ∧
    OnlyWrites s t rd ((lowWord s rt <<< ((s.reg rs).toNat % 32)).signExtend 64)) ∧
  (Usable32 s (s.reg rt) →
    (∃ t, exec (.srl rt rd sa) s = .next t ∧ OnlyWrites s t rd ((lowWord s rt >>> sa.toNat).signExtend 64)) ∧
    (∃ t, exec (.srlv rs rt rd) s = .next t ∧
      OnlyWrites s t rd ((lowWord s rt >>> ((s.reg rs).toNat % 32)).signExtend 64)) ∧
    (∃ t, exec (.sra rt rd sa) s = .next t ∧
      OnlyWrites s t rd (BitVec.ofInt 64 ((lowWord s rt).toInt / 2 ^ sa.toNat))) ∧
    (∃ t, exec (.srav rs rt rd) s = .next t ∧
      OnlyWrites s t rd (BitVec.ofInt 64 ((lowWord s rt).toInt / 2 ^ ((s.reg rs).toNat % 32)))))

/-! ### Multiply, divide, HI and LO -/

/-- MULT and MULTU: the halves of the exact product, each sign-extended (R191, R192). -/
def Obligations.MultiplyResult : Prop :=
  ∀ (s : State) (rs rt : Reg), s.sinceHiLoRead = 2 → Usable32 s (s.reg rs) → Usable32 s (s.reg rt) →
  (∃ t, exec (.mult rs rt) s = .next t ∧ t.draws = s.draws ∧
    OnlyComputes s t
      ((BitVec.ofInt 32 ((lowWord s rs).toInt * (lowWord s rt).toInt / 4294967296)).signExtend 64)
      ((BitVec.ofInt 32 ((lowWord s rs).toInt * (lowWord s rt).toInt)).signExtend 64)) ∧
  (∃ t, exec (.multu rs rt) s = .next t ∧ t.draws = s.draws ∧
    OnlyComputes s t
      ((BitVec.ofNat 32 ((lowWord s rs).toNat * (lowWord s rt).toNat / 4294967296)).signExtend 64)
      ((BitVec.ofNat 32 ((lowWord s rs).toNat * (lowWord s rt).toNat)).signExtend 64))

/-- DIV and DIVU by a divisor that is not zero: LO the quotient, truncated toward zero in DIV, HI the remainder, with
the sign of the dividend in DIV; -2^31 / -1 gives LO = -2^31 and HI = 0 (R193, R194). -/
def Obligations.DivideResult : Prop :=
  ∀ (s : State) (rs rt : Reg), s.sinceHiLoRead = 2 → Usable32 s (s.reg rs) → Usable32 s (s.reg rt) →
  lowWord s rt ≠ 0#32 →
  (∃ t, exec (.div rs rt) s = .next t ∧ t.draws = s.draws ∧
    OnlyComputes s t
      (BitVec.ofInt 64 ((lowWord s rs).toInt.tmod (lowWord s rt).toInt))
      ((BitVec.ofInt 32 ((lowWord s rs).toInt.tdiv (lowWord s rt).toInt)).signExtend 64)) ∧
  (∃ t, exec (.divu rs rt) s = .next t ∧ t.draws = s.draws ∧
    OnlyComputes s t
      ((BitVec.ofNat 32 ((lowWord s rs).toNat % (lowWord s rt).toNat)).signExtend 64)
      ((BitVec.ofNat 32 ((lowWord s rs).toNat / (lowWord s rt).toNat)).signExtend 64))

/-- A division by zero raises nothing: it completes, and HI and LO hold the next draw, of which nothing is known; the
draw is taken, so the next division by zero takes another (R193, R194). The form of the draw is log 3's. -/
def Obligations.DivideByZeroTakesDraw : Prop :=
  ∀ (s : State) (rs rt : Reg), s.sinceHiLoRead = 2 → Usable32 s (s.reg rs) → Usable32 s (s.reg rt) →
  lowWord s rt = 0#32 →
  ∀ i ∈ [Instr.div rs rt, .divu rs rt], ∃ t, exec i s = .next t ∧ t.draws = s.draws + 1 ∧
    OnlyComputes s t (Config.divDraw s.draws).1 (Config.divDraw s.draws).2

/-- MFHI and MFLO (R195, R196): all 64 bits, in every state; r0 as destination discards the value and still resets the
hazard state. -/
def Obligations.MoveFromHiLoResult : Prop :=
  ∀ (s : State) (rd : Reg),
  (∃ t, exec (.mfhi rd) s = .next t ∧ OnlyReadsOut s t rd s.hi) ∧
  (∃ t, exec (.mflo rd) s = .next t ∧ OnlyReadsOut s t rd s.lo)

/-- MTHI and MTLO outside the hazards (R197, R198): all 64 bits, with no canonical check, the other register kept. -/
def Obligations.MoveToHiLoResult : Prop :=
  ∀ (s : State) (rs : Reg), s.sinceHiLoRead = 2 → s.hiloFresh = false →
  (∃ t, exec (.mthi rs) s = .next t ∧ t.hi = s.reg rs ∧ t.lo = s.lo ∧ KeepsRegs s t ∧ KeepsMemory s t ∧ Ordinary s t) ∧
  (∃ t, exec (.mtlo rs) s = .next t ∧ t.lo = s.reg rs ∧ t.hi = s.hi ∧ KeepsRegs s t ∧ KeepsMemory s t ∧ Ordinary s t)

/-- R190 (the spec's decision D21): the two hazard checks, the read check first; and after an MFHI or MFLO the check
stops a writer at the first and the second following step, and, when the two are other instructions, no longer at the
third. -/
def Obligations.HiLoHazardsFault : Prop :=
  (∀ (s : State) (rs rt : Reg), s.sinceHiLoRead.val < 2 →
    ∀ i ∈ [Instr.mult rs rt, .multu rs rt, .div rs rt, .divu rs rt, .mthi rs, .mtlo rs],
    exec i s = .next (faultedWith s (.unpredictable .hiLoReadHazard) (encode i))) ∧
  (∀ (s : State) (rs : Reg), s.sinceHiLoRead = 2 → s.hiloFresh = true →
    ∀ i ∈ [Instr.mthi rs, .mtlo rs],
    exec i s = .next (faultedWith s (.unpredictable .hiLoOverwrite) (encode i))) ∧
  (∀ (s0 s1 s2 s3 : State) (rd : Reg) (i j k : Instr), i = .mfhi rd ∨ i = .mflo rd →
    exec i s0 = .next s1 → exec j s1 = .next s2 → s2.status = .running → exec k s2 = .next s3 → s3.status = .running →
    s1.sinceHiLoRead.val < 2 ∧ s2.sinceHiLoRead.val < 2 ∧
    ((∀ q, j ≠ .mfhi q ∧ j ≠ .mflo q ∧ k ≠ .mfhi q ∧ k ≠ .mflo q) → s3.sinceHiLoRead = 2))

/-! ### Loads and stores -/

/-- R210 (the spec's decisions D4, D9): the effective address is bits 31 to 0 of base plus sign-extended offset,
modulo 2^64; a sum that is not canonical faults under the Fault policy, in every load and store; no load or store
changes the base register but a load into it. -/
def Obligations.EffectiveAddressRule : Prop :=
  ∀ (s : State) (rs rt : Reg) (imm : BitVec 16),
  (Usable32 s (s.reg rs + BitVec.ofInt 64 imm.toInt) →
    effectiveAddress s rs imm = .ok ((s.reg rs + BitVec.ofInt 64 imm.toInt).extractLsb' 0 32)) ∧
  (¬ Usable32 s (s.reg rs + BitVec.ofInt 64 imm.toInt) →
    ∀ i ∈ [Instr.lb rs rt imm, .lbu rs rt imm, .lh rs rt imm, .lhu rs rt imm, .lw rs rt imm, .lwu rs rt imm,
      .ld rs rt imm, .sb rs rt imm, .sh rs rt imm, .sw rs rt imm, .sd rs rt imm],
    exec i s = .next (faultedWith s (.unpredictable .nonCanonicalAddress) (encode i))) ∧
  (∀ i ∈ [Instr.lb rs rt imm, .lbu rs rt imm, .lh rs rt imm, .lhu rs rt imm, .lw rs rt imm, .lwu rs rt imm,
      .ld rs rt imm, .sb rs rt imm, .sh rs rt imm, .sw rs rt imm, .sd rs rt imm],
    ∀ t, exec i s = .next t → (rt ≠ rs ∨ i.opClass = .store) → t.reg rs = s.reg rs)

/-- The loads where the address is aligned and one region holds the access: big-endian, sign-extended or zero-extended
(R58, R211, R213 to R219). -/
def Obligations.LoadResult : Prop :=
  ∀ (s : State) (rs rt : Reg) (imm : BitVec 16) (ea : Word), effectiveAddress s rs imm = .ok ea →
  ((s.mem.regionOf ea.toNat 1).isSome = true →
    (∃ t, exec (.lb rs rt imm) s = .next t ∧ OnlyWrites s t rt ((s.mem.byteAt ea.toNat).signExtend 64)) ∧
    (∃ t, exec (.lbu rs rt imm) s = .next t ∧ OnlyWrites s t rt ((s.mem.byteAt ea.toNat).setWidth 64))) ∧
  (ea.toNat % 2 = 0 → (s.mem.regionOf ea.toNat 2).isSome = true →
    (∃ t, exec (.lh rs rt imm) s = .next t ∧
      OnlyWrites s t rt ((s.mem.byteAt ea.toNat ++ s.mem.byteAt (ea.toNat + 1)).signExtend 64)) ∧
    (∃ t, exec (.lhu rs rt imm) s = .next t ∧
      OnlyWrites s t rt ((s.mem.byteAt ea.toNat ++ s.mem.byteAt (ea.toNat + 1)).setWidth 64))) ∧
  (ea.toNat % 4 = 0 → (s.mem.regionOf ea.toNat 4).isSome = true →
    (∃ t, exec (.lw rs rt imm) s = .next t ∧
      OnlyWrites s t rt ((s.mem.byteAt ea.toNat ++ s.mem.byteAt (ea.toNat + 1) ++ s.mem.byteAt (ea.toNat + 2) ++
        s.mem.byteAt (ea.toNat + 3)).signExtend 64)) ∧
    (∃ t, exec (.lwu rs rt imm) s = .next t ∧
      OnlyWrites s t rt ((s.mem.byteAt ea.toNat ++ s.mem.byteAt (ea.toNat + 1) ++ s.mem.byteAt (ea.toNat + 2) ++
        s.mem.byteAt (ea.toNat + 3)).setWidth 64))) ∧
  (ea.toNat % 8 = 0 → (s.mem.regionOf ea.toNat 8).isSome = true →
    ∃ t, exec (.ld rs rt imm) s = .next t ∧
      OnlyWrites s t rt (s.mem.byteAt ea.toNat ++ s.mem.byteAt (ea.toNat + 1) ++ s.mem.byteAt (ea.toNat + 2) ++
        s.mem.byteAt (ea.toNat + 3) ++ s.mem.byteAt (ea.toNat + 4) ++ s.mem.byteAt (ea.toNat + 5) ++
        s.mem.byteAt (ea.toNat + 6) ++ s.mem.byteAt (ea.toNat + 7)))

/-- The stores where the address is aligned and RDRAM holds the access: the low bytes of `x[rt]` go to the effective
address and the bytes after it, most significant first, and every other byte of memory stays (R59, R212, R220 to
R223). -/
def Obligations.StoreResult : Prop :=
  ∀ (s : State) (rs rt : Reg) (imm : BitVec 16) (ea : Word), effectiveAddress s rs imm = .ok ea →
  (s.mem.regionOf ea.toNat 1 = some s.mem.rdram →
    ∃ t, exec (.sb rs rt imm) s = .next t ∧ OnlyStores s t ea.toNat 1 (s.reg rt)) ∧
  (ea.toNat % 2 = 0 → s.mem.regionOf ea.toNat 2 = some s.mem.rdram →
    ∃ t, exec (.sh rs rt imm) s = .next t ∧ OnlyStores s t ea.toNat 2 (s.reg rt)) ∧
  (ea.toNat % 4 = 0 → s.mem.regionOf ea.toNat 4 = some s.mem.rdram →
    ∃ t, exec (.sw rs rt imm) s = .next t ∧ OnlyStores s t ea.toNat 4 (s.reg rt)) ∧
  (ea.toNat % 8 = 0 → s.mem.regionOf ea.toNat 8 = some s.mem.rdram →
    ∃ t, exec (.sd rs rt imm) s = .next t ∧ OnlyStores s t ea.toNat 8 (s.reg rt))

/-- R56 (the spec's decision D7): the checks of an access run in the order alignment, mapping, permission, and the
first that fails is its fault. -/
def Obligations.AccessChecksRunInOrder : Prop :=
  ∀ (m : Memory) (a : Word) (n : Width),
  (a.toNat % n.bytes ≠ 0 → m.read a n = .error .misaligned ∧ m.checkWrite a n = .error .misaligned) ∧
  (a.toNat % n.bytes = 0 →
    (∀ g ∈ m.regions, ¬ (g.base ≤ a.toNat ∧ a.toNat + n.bytes ≤ g.base + g.length)) →
    m.read a n = .error .unmapped ∧ m.checkWrite a n = .error .unmapped) ∧
  (a.toNat % n.bytes = 0 → ∀ g, m.regionOf a.toNat n.bytes = some g →
    (∃ v, m.read a n = .ok v) ∧
    (g.permission = .readOnly → m.checkWrite a n = .error .writeProtected) ∧
    (g.permission = .readWrite → m.checkWrite a n = .ok ()))

/-- A load or store whose access fails faults with the effective address as info, and changes nothing else (R211, R212,
R273). -/
def Obligations.DataAccessFaults : Prop :=
  ∀ (s : State) (rs rt : Reg) (imm : BitVec 16) (ea : Word), effectiveAddress s rs imm = .ok ea →
  (∀ p ∈ [(Instr.lb rs rt imm, Width.b1), (.lbu rs rt imm, .b1), (.lh rs rt imm, .b2), (.lhu rs rt imm, .b2),
      (.lw rs rt imm, .b4), (.lwu rs rt imm, .b4), (.ld rs rt imm, .b8)],
    (s.mem.read ea p.2 = .error .misaligned → exec p.1 s = .next (faultedWith s .misaligned ea)) ∧
    (s.mem.read ea p.2 = .error .unmapped → exec p.1 s = .next (faultedWith s .unmapped ea))) ∧
  (∀ p ∈ [(Instr.sb rs rt imm, Width.b1), (.sh rs rt imm, .b2), (.sw rs rt imm, .b4), (.sd rs rt imm, .b8)],
    (s.mem.checkWrite ea p.2 = .error .misaligned → exec p.1 s = .next (faultedWith s .misaligned ea)) ∧
    (s.mem.checkWrite ea p.2 = .error .unmapped → exec p.1 s = .next (faultedWith s .unmapped ea)) ∧
    (s.mem.checkWrite ea p.2 = .error .writeProtected → exec p.1 s = .next (faultedWith s .writeProtected ea)))

/-- R60: accesses of mixed widths see the same bytes: after an 8-byte store at `a`, the narrower reads within it give
the parts of the value that big-endian order puts there. -/
def Obligations.MixedWidthsSeeSameBytes : Prop :=
  ∀ (m : Memory) (a : Word) (v : Dword), m.wf = true → m.checkWrite a .b8 = .ok () →
  (m.store a.toNat 8 v).read a .b8 = .ok v ∧
  (m.store a.toNat 8 v).read a .b4 = .ok ((v.extractLsb' 32 32).setWidth 64) ∧
  (m.store a.toNat 8 v).read (a + 4#32) .b4 = .ok ((v.extractLsb' 0 32).setWidth 64) ∧
  (m.store a.toNat 8 v).read (a + 2#32) .b2 = .ok ((v.extractLsb' 32 16).setWidth 64) ∧
  (m.store a.toNat 8 v).read (a + 7#32) .b1 = .ok ((v.extractLsb' 0 8).setWidth 64)

/-- A word that SW stores at the next `pc` is the word the very next step fetches (R69). -/
def Obligations.StoredWordIsFetchedNext : Prop :=
  ∀ (s t : State) (rs rt : Reg) (imm : BitVec 16), s.mem.wf = true → s.stopRequest = false →
    exec (.sw rs rt imm) s = .next t → t.status = .running → effectiveAddress s rs imm = .ok t.pc →
    FetchesWord t (lowWord s rt)

/-! ### Branches and jumps -/

/-- BEQ, BNE, BLEZ, BGTZ, BLTZ and BGEZ outside a delay slot: 64-bit tests, the target counted in words from the delay
slot (R241, R243 to R248). -/
def Obligations.BranchResult : Prop :=
  ∀ (s : State) (rs rt : Reg) (imm : BitVec 16), s.delay = .normal →
  (∃ t, exec (.beq rs rt imm) s = .next t ∧ KeepsRegs s t ∧
    Transfers s t (if s.reg rs = s.reg rt then .slotTaken (s.pc + 4#32 + BitVec.ofInt 32 (imm.toInt * 4))
      else .slotNotTaken)) ∧
  (∃ t, exec (.bne rs rt imm) s = .next t ∧ KeepsRegs s t ∧
    Transfers s t (if s.reg rs ≠ s.reg rt then .slotTaken (s.pc + 4#32 + BitVec.ofInt 32 (imm.toInt * 4))
      else .slotNotTaken)) ∧
  (∃ t, exec (.blez rs imm) s = .next t ∧ KeepsRegs s t ∧
    Transfers s t (if (s.reg rs).toInt ≤ 0 then .slotTaken (s.pc + 4#32 + BitVec.ofInt 32 (imm.toInt * 4))
      else .slotNotTaken)) ∧
  (∃ t, exec (.bgtz rs imm) s = .next t ∧ KeepsRegs s t ∧
    Transfers s t (if 0 < (s.reg rs).toInt then .slotTaken (s.pc + 4#32 + BitVec.ofInt 32 (imm.toInt * 4))
      else .slotNotTaken)) ∧
  (∃ t, exec (.bltz rs imm) s = .next t ∧ KeepsRegs s t ∧
    Transfers s t (if (s.reg rs).toInt < 0 then .slotTaken (s.pc + 4#32 + BitVec.ofInt 32 (imm.toInt * 4))
      else .slotNotTaken)) ∧
  (∃ t, exec (.bgez rs imm) s = .next t ∧ KeepsRegs s t ∧
    Transfers s t (if 0 ≤ (s.reg rs).toInt then .slotTaken (s.pc + 4#32 + BitVec.ofInt 32 (imm.toInt * 4))
      else .slotNotTaken))

/-- BLTZAL and BGEZAL outside a delay slot, the source not r31: the link is written whether or not the branch is taken
(R242, R249, R250). -/
def Obligations.BranchAndLinkResult : Prop :=
  ∀ (s : State) (rs : Reg) (imm : BitVec 16), s.delay = .normal → rs ≠ 31#5 →
  (∃ t, exec (.bltzal rs imm) s = .next t ∧ WritesOnly s t 31#5 ((s.pc + 8#32).signExtend 64) ∧
    Transfers s t (if (s.reg rs).toInt < 0 then .slotTaken (s.pc + 4#32 + BitVec.ofInt 32 (imm.toInt * 4))
      else .slotNotTaken)) ∧
  (∃ t, exec (.bgezal rs imm) s = .next t ∧ WritesOnly s t 31#5 ((s.pc + 8#32).signExtend 64) ∧
    Transfers s t (if 0 ≤ (s.reg rs).toInt then .slotTaken (s.pc + 4#32 + BitVec.ofInt 32 (imm.toInt * 4))
      else .slotNotTaken))

/-- J and JAL outside a delay slot: the segment bits come from the delay slot's address (R241, R242, R251, R252). -/
def Obligations.JumpResult : Prop :=
  ∀ (s : State) (target : BitVec 26), s.delay = .normal →
  (∃ t, exec (.j target) s = .next t ∧ KeepsRegs s t ∧
    Transfers s t (.slotTaken (((s.pc + 4#32) &&& 0xF0000000#32) ||| BitVec.ofNat 32 (target.toNat * 4)))) ∧
  (∃ t, exec (.jal target) s = .next t ∧ WritesOnly s t 31#5 ((s.pc + 8#32).signExtend 64) ∧
    Transfers s t (.slotTaken (((s.pc + 4#32) &&& 0xF0000000#32) ||| BitVec.ofNat 32 (target.toNat * 4))))

/-- JR and JALR outside a delay slot: the target is bits 31 to 0 of the register, unchecked for alignment; JALR reads it
before it writes the link, and r0 as its destination discards the link (R241, R242, R253, R254). -/
def Obligations.JumpRegisterResult : Prop :=
  ∀ (s : State) (rs rd : Reg), s.delay = .normal → Usable32 s (s.reg rs) →
  (∃ t, exec (.jr rs) s = .next t ∧ KeepsRegs s t ∧ Transfers s t (.slotTaken (lowWord s rs))) ∧
  (rs ≠ rd →
    ∃ t, exec (.jalr rs rd) s = .next t ∧ WritesOnly s t rd ((s.pc + 8#32).signExtend 64) ∧
      Transfers s t (.slotTaken (lowWord s rs)))

/-- What a transfer outside a delay slot faults on: a link register that is also the source, first, and a jump register
that is not canonical (R241, R249, R250, R253, R254, R275). -/
def Obligations.TransferOperandFaults : Prop :=
  ∀ (s : State) (rs rd : Reg) (imm : BitVec 16), s.delay = .normal →
  (∀ i ∈ [Instr.bltzal 31#5 imm, .bgezal 31#5 imm, .jalr rs rs],
    exec i s = .next (faultedWith s (.unpredictable .linkRegisterSource) (encode i))) ∧
  (¬ Usable32 s (s.reg rs) →
    exec (.jr rs) s = .next (faultedWith s (.unpredictable .nonCanonicalAddress) (encode (.jr rs))) ∧
    (rs ≠ rd →
      exec (.jalr rs rd) s = .next (faultedWith s (.unpredictable .nonCanonicalAddress) (encode (.jalr rs rd)))))

/-- R255 (the spec's decision D11): from an aligned address only JR and JALR give a target that is not word-aligned.
It is held unchanged; the delay slot takes `pc` to it, and the fetch there faults Misaligned, or Unmapped where no
region holds an aligned one. -/
def Obligations.BadTargetFaultsAtItsFetch : Prop :=
  (∀ (i : Instr) (s t : State) (a : Word), s.pc.toNat % 4 = 0 → exec i s = .next t → t.status = .running →
    t.delay = .slotTaken a → a.toNat % 4 ≠ 0 → (∃ rs, i = .jr rs) ∨ (∃ rs rd, i = .jalr rs rd)) ∧
  (∀ (s t : State) (rs rd : Reg), exec (.jr rs) s = .next t ∨ exec (.jalr rs rd) s = .next t → t.status = .running →
    t.delay = .slotTaken (lowWord s rs)) ∧
  (∀ (s t : State) (a : Word), s.delay = .slotTaken a → step s = .next t → t.status = .running →
    t.stopRequest = false →
    (a.toNat % 4 ≠ 0 → step t = .next (faultedWith t .misaligned a) ∧ t.pc = a) ∧
    (a.toNat % 4 = 0 → t.mem.regionOf a.toNat 4 = none → step t = .next (faultedWith t .unmapped a) ∧ t.pc = a))

/-! ### Reset, the host and the loader -/

/-- R36 (the spec's decision D24): what construction leaves in every piece of state; and `State.reset` is the
construction in the default map and configuration, over an empty image, with none mounted, which is the model's choice
(log 7), at the entry point that is the model's choice (log 2). -/
def Obligations.ConstructionLeavesResetValues : Prop :=
  (∀ (mem : Memory) (entryPoint : Word) (cfg : Config) (s : State), s = newInterpreter mem entryPoint cfg →
    (∀ r, s.reg r = 0#64) ∧ s.hi = 0#64 ∧ s.lo = 0#64 ∧ s.pc = entryPoint ∧ s.delay = .normal ∧ s.sinceHiLoRead = 2 ∧
    s.hiloFresh = false ∧ s.status = .ready ∧ s.fault = none ∧ s.stopRequest = false ∧ s.mem = mem ∧ s.cfg = cfg) ∧
  State.reset = newInterpreter Memory.empty 0x10000000#32 { unknownPolicy := .fatal, nonCanonical32 := .fault }

/-- R301 (the spec's decision D24): `reset(entryPoint)` in any status sets every piece of state to its reset value,
clears the record and the stop request, and touches neither memory nor the configuration. -/
def Obligations.ResetKeepsMemoryAndConfiguration : Prop :=
  ∀ (s : State) (entryPoint : Word), ∃ t, hostCall (.reset entryPoint) s = .next (t, .done) ∧
    (∀ r, t.reg r = 0#64) ∧ t.hi = 0#64 ∧ t.lo = 0#64 ∧ t.pc = entryPoint ∧ t.delay = .normal ∧ t.sinceHiLoRead = 2 ∧
    t.hiloFresh = false ∧ t.status = .ready ∧ t.fault = none ∧ t.stopRequest = false ∧ t.mem = s.mem ∧ t.cfg = s.cfg

/-- `run` always answers, makes at most `maxSteps` step calls, stops early only in a final status, and returns the
status and the record of the state it ends in; a final status or a budget of 0 makes no step; and from a status that
is not final, a run of one more is one step, at the stop request as it stands at that boundary, and then the run of
the rest, counted one more (R127 to R129, the spec's decision D20). A stop request that has arrived stays (log 10). -/
def Obligations.RunStaysWithinBudget : Prop :=
  (∀ (maxSteps : Nat) (arrivals : List Bool) (s : State), ∃ t steps,
    hostCall (.run maxSteps arrivals) s = .next (t, .ran { status := t.status, steps := steps, fault := t.fault }) ∧
    steps ≤ maxSteps ∧ (steps < maxSteps → t.status = .faulted ∨ t.status = .halted) ∧
    (s.status = .faulted ∨ s.status = .halted ∨ maxSteps = 0 → t = s ∧ steps = 0)) ∧
  (∀ (n : Nat) (arrives : Bool) (arrivals : List Bool) (s t u : State) (r : RunResult),
    s.status = .ready ∨ s.status = .running →
    step { s with stopRequest := s.stopRequest || arrives } = .next t →
    hostCall (.run n arrivals) t = .next (u, .ran r) →
    hostCall (.run (n + 1) (arrives :: arrivals)) s = .next (u, .ran { r with steps := r.steps + 1 }) ∧
    (arrives = false → arrivals = [] → hostCall (.run (n + 1) []) s = .next (u, .ran { r with steps := r.steps + 1 })))

/-- A later `run` continues from the state an earlier one left: two budgets spent one after the other are their sum
spent at once (R130). -/
def Obligations.RunContinuesWhereItStopped : Prop :=
  ∀ (m n : Nat) (s t u : State) (j k : Nat), runLoop m [] s = .next (t, j) → runLoop n [] t = .next (u, k) →
    runLoop (m + n) [] s = .next (u, j + k)

/-- R307, R308, R309 (the spec's decision D27): the loader's classification by the first four bytes, and the bytes of
the image it gives. -/
def Obligations.LoaderClassifiesAndNormalizes : Prop :=
  ∀ bytes : List Byte,
  ((loadCartridge bytes).kind = .bigEndian ↔ bytes.take 4 = [0x80#8, 0x37#8, 0x12#8, 0x40#8]) ∧
  ((loadCartridge bytes).kind = .byteSwapped ↔ bytes.take 4 = [0x37#8, 0x80#8, 0x40#8, 0x12#8]) ∧
  ((loadCartridge bytes).kind = .littleEndian ↔ bytes.take 4 = [0x40#8, 0x12#8, 0x37#8, 0x80#8]) ∧
  (loadCartridge bytes).bytes.length = bytes.length ∧
  ((loadCartridge bytes).kind = .bigEndian ∨ (loadCartridge bytes).kind = .unknown → (loadCartridge bytes).bytes = bytes) ∧
  ((loadCartridge bytes).kind = .byteSwapped →
    (∀ k, 2 * k + 1 < bytes.length →
      (loadCartridge bytes).bytes[2 * k]? = bytes[2 * k + 1]? ∧ (loadCartridge bytes).bytes[2 * k + 1]? = bytes[2 * k]?) ∧
    (∀ k, 2 * k + 1 = bytes.length → (loadCartridge bytes).bytes[2 * k]? = bytes[2 * k]?)) ∧
  ((loadCartridge bytes).kind = .littleEndian →
    (∀ k j, 4 * k + 3 < bytes.length → j < 4 → (loadCartridge bytes).bytes[4 * k + j]? = bytes[4 * k + (3 - j)]?) ∧
    (∀ k j, 4 * k + j < bytes.length → bytes.length ≤ 4 * k + 3 → (loadCartridge bytes).bytes[4 * k + j]? = bytes[4 * k + j]?))

/-- R311 (the spec's decision D28): `mount` builds RDRAM, all zero, and the cartridge, holding the image's bytes, or
none for an empty image, which overlaps nothing (log 11); it refuses regions that overlap or a cartridge that passes
2^32. The range of the RDRAM parameters is a premise (R7, R51). -/
def Obligations.MountBuildsTwoRegions : Prop :=
  ∀ (base : Word) (size : Nat) (image : CartridgeImage), 0 < size → base.toNat + size ≤ 0x100000000 →
  (0x10000000 + image.bytes.length ≤ 0x100000000 →
    (image.bytes = [] ∨ base.toNat + size ≤ 0x10000000 ∨ 0x10000000 + image.bytes.length ≤ base.toNat) →
    ∃ m, mount base size image = .next m ∧
      (∀ g, g ∈ m.regions ↔ g = { base := base.toNat, length := size, permission := .readWrite } ∨
        (image.bytes ≠ [] ∧ g = { base := 0x10000000, length := image.bytes.length, permission := .readOnly })) ∧
      (∀ k (h : k < image.bytes.length), m.byteAt (0x10000000 + k) = image.bytes[k]) ∧
      (∀ a, a < 0x10000000 ∨ 0x10000000 + image.bytes.length ≤ a → m.byteAt a = 0#8)) ∧
  (¬ (0x10000000 + image.bytes.length ≤ 0x100000000) ∨
    ¬ (image.bytes = [] ∨ base.toNat + size ≤ 0x10000000 ∨ 0x10000000 + image.bytes.length ≤ base.toNat) →
    mount base size image = .refused .mountRefused)

/-- The host's own accesses (the spec's decision D29, byte order D5): a register index above 31 is refused (R134), and
`setRegister` changes the one register and nothing else, neither the hazard state nor any other field (R138); a memory
read that passes its checks answers the bytes there and changes nothing, a write that passes them changes only the
bytes it names, and one that fails them is returned to the host as a fault (R71); two operations at once are refused
(R139). The refusal of such an index by `setRegister` is the model's reading (log 9). -/
def Obligations.HostAccessIsChecked : Prop :=
  ∀ s : State,
  (∀ k, k < 32 → hostCall (.getRegister k) s = .next (s, .register (s.reg (BitVec.ofNat 5 k)))) ∧
  (∀ k v, k < 32 → ∃ t, hostCall (.setRegister k v) s = .next (t, .done) ∧ WritesOnly s t (BitVec.ofNat 5 k) v ∧
    t = s.setReg (BitVec.ofNat 5 k) v ∧ t = { s with x := t.x }) ∧
  (∀ k v, 32 ≤ k → hostCall (.getRegister k) s = .refused (.registerIndex k) ∧
    hostCall (.setRegister k v) s = .refused (.registerIndex k)) ∧
  (∀ a n v, s.mem.read a n = .ok v → hostCall (.read a n) s = .next (s, .bytes v) ∧ v.toNat < 2 ^ (8 * n.bytes) ∧
    ∀ k, k < n.bytes → v.extractLsb' (8 * (n.bytes - 1 - k)) 8 = s.mem.byteAt (a.toNat + k)) ∧
  (∀ a n k, s.mem.read a n = .error k → hostCall (.read a n) s = .fault (.hostAccess k a)) ∧
  (∀ a n v, s.mem.checkWrite a n = .ok () → ∃ t, hostCall (.write a n v) s = .next (t, .done) ∧
    t = { s with mem := t.mem } ∧ KeepsMap s t ∧
    (∀ b : Nat, b < a.toNat ∨ a.toNat + n.bytes ≤ b → t.mem.byteAt b = s.mem.byteAt b) ∧
    (s.mem.wf = true →
      ∀ k, k < n.bytes → t.mem.byteAt (a.toNat + k) = v.extractLsb' (8 * (n.bytes - 1 - k)) 8)) ∧
  (∀ a n v k, s.mem.checkWrite a n = .error k → hostCall (.write a n v) s = .fault (.hostAccess k a)) ∧
  (∀ p q rest, hostBoundary (p :: q :: rest) s = .refused .concurrentHostOperations)
end

