-- ==== Sys2Proof/Laws/State.lean ====
section
/-! SUPPORT. The small lemmas of every update of the state: one per field, so that no later proof unfolds a record
update, and what a register read answers after each. -/

namespace Sys2Proof.Machine

/-! ### A write of a general register -/

@[simp] theorem State.setReg_hi (s : State) (r : Reg) (v : Dword) : (s.setReg r v).hi = s.hi := by unfold State.setReg; split <;> rfl
@[simp] theorem State.setReg_lo (s : State) (r : Reg) (v : Dword) : (s.setReg r v).lo = s.lo := by unfold State.setReg; split <;> rfl
@[simp] theorem State.setReg_pc (s : State) (r : Reg) (v : Dword) : (s.setReg r v).pc = s.pc := by unfold State.setReg; split <;> rfl
@[simp] theorem State.setReg_delay (s : State) (r : Reg) (v : Dword) : (s.setReg r v).delay = s.delay := by unfold State.setReg; split <;> rfl
@[simp] theorem State.setReg_sinceHiLoRead (s : State) (r : Reg) (v : Dword) : (s.setReg r v).sinceHiLoRead = s.sinceHiLoRead := by unfold State.setReg; split <;> rfl
@[simp] theorem State.setReg_hiloFresh (s : State) (r : Reg) (v : Dword) : (s.setReg r v).hiloFresh = s.hiloFresh := by unfold State.setReg; split <;> rfl
@[simp] theorem State.setReg_status (s : State) (r : Reg) (v : Dword) : (s.setReg r v).status = s.status := by unfold State.setReg; split <;> rfl
@[simp] theorem State.setReg_fault (s : State) (r : Reg) (v : Dword) : (s.setReg r v).fault = s.fault := by unfold State.setReg; split <;> rfl
@[simp] theorem State.setReg_stopRequest (s : State) (r : Reg) (v : Dword) : (s.setReg r v).stopRequest = s.stopRequest := by unfold State.setReg; split <;> rfl
@[simp] theorem State.setReg_cfg (s : State) (r : Reg) (v : Dword) : (s.setReg r v).cfg = s.cfg := by unfold State.setReg; split <;> rfl
@[simp] theorem State.setReg_mem (s : State) (r : Reg) (v : Dword) : (s.setReg r v).mem = s.mem := by unfold State.setReg; split <;> rfl
@[simp] theorem State.setReg_draws (s : State) (r : Reg) (v : Dword) : (s.setReg r v).draws = s.draws := by unfold State.setReg; split <;> rfl

/-! ### A write of a named register -/

@[simp] theorem State.writeName_x (s : State) (r : Reg) (v : Dword) : s.writeName (.x r) v = s.setReg r v := rfl
@[simp] theorem State.writeName_hi (s : State) (v : Dword) : s.writeName .hi v = { s with hi := v } := rfl
@[simp] theorem State.writeName_lo (s : State) (v : Dword) : s.writeName .lo v = { s with lo := v } := rfl
@[simp] theorem State.writeAll_nil (s : State) : s.writeAll [] = s := rfl
@[simp] theorem State.writeAll_cons (s : State) (n : RegName) (v : Dword) (rest : List (RegName × Dword)) :
    s.writeAll ((n, v) :: rest) = (s.writeName n v).writeAll rest := rfl


/-! ### Completion of a step -/

@[simp] theorem State.finish_x (s : State) (u : HiLoUse) (o : BranchOutcome) : (s.finish u o).x = s.x := rfl
@[simp] theorem State.finish_hi (s : State) (u : HiLoUse) (o : BranchOutcome) : (s.finish u o).hi = s.hi := rfl
@[simp] theorem State.finish_lo (s : State) (u : HiLoUse) (o : BranchOutcome) : (s.finish u o).lo = s.lo := rfl
@[simp] theorem State.finish_pc (s : State) (u : HiLoUse) (o : BranchOutcome) : (s.finish u o).pc = s.nextPc := rfl
@[simp] theorem State.finish_delay (s : State) (u : HiLoUse) (o : BranchOutcome) : (s.finish u o).delay = o.nextDelay := rfl
@[simp] theorem State.finish_sinceHiLoRead (s : State) (u : HiLoUse) (o : BranchOutcome) : (s.finish u o).sinceHiLoRead = nextSinceHiLoRead u s.sinceHiLoRead := rfl
@[simp] theorem State.finish_hiloFresh (s : State) (u : HiLoUse) (o : BranchOutcome) : (s.finish u o).hiloFresh = nextHiloFresh u s.hiloFresh := rfl
@[simp] theorem State.finish_status (s : State) (u : HiLoUse) (o : BranchOutcome) : (s.finish u o).status = .running := rfl
@[simp] theorem State.finish_fault (s : State) (u : HiLoUse) (o : BranchOutcome) : (s.finish u o).fault = s.fault := rfl
@[simp] theorem State.finish_stopRequest (s : State) (u : HiLoUse) (o : BranchOutcome) : (s.finish u o).stopRequest = s.stopRequest := rfl
@[simp] theorem State.finish_cfg (s : State) (u : HiLoUse) (o : BranchOutcome) : (s.finish u o).cfg = s.cfg := rfl
@[simp] theorem State.finish_mem (s : State) (u : HiLoUse) (o : BranchOutcome) : (s.finish u o).mem = s.mem := rfl
@[simp] theorem State.finish_draws (s : State) (u : HiLoUse) (o : BranchOutcome) : (s.finish u o).draws = s.draws := rfl

/-! ### Draws taken -/

@[simp] theorem State.takeDraws_x (s : State) (n : Nat) : (s.takeDraws n).x = s.x := rfl
@[simp] theorem State.takeDraws_hi (s : State) (n : Nat) : (s.takeDraws n).hi = s.hi := rfl
@[simp] theorem State.takeDraws_lo (s : State) (n : Nat) : (s.takeDraws n).lo = s.lo := rfl
@[simp] theorem State.takeDraws_pc (s : State) (n : Nat) : (s.takeDraws n).pc = s.pc := rfl
@[simp] theorem State.takeDraws_delay (s : State) (n : Nat) : (s.takeDraws n).delay = s.delay := rfl
@[simp] theorem State.takeDraws_sinceHiLoRead (s : State) (n : Nat) : (s.takeDraws n).sinceHiLoRead = s.sinceHiLoRead := rfl
@[simp] theorem State.takeDraws_hiloFresh (s : State) (n : Nat) : (s.takeDraws n).hiloFresh = s.hiloFresh := rfl
@[simp] theorem State.takeDraws_status (s : State) (n : Nat) : (s.takeDraws n).status = s.status := rfl
@[simp] theorem State.takeDraws_fault (s : State) (n : Nat) : (s.takeDraws n).fault = s.fault := rfl
@[simp] theorem State.takeDraws_stopRequest (s : State) (n : Nat) : (s.takeDraws n).stopRequest = s.stopRequest := rfl
@[simp] theorem State.takeDraws_cfg (s : State) (n : Nat) : (s.takeDraws n).cfg = s.cfg := rfl
@[simp] theorem State.takeDraws_mem (s : State) (n : Nat) : (s.takeDraws n).mem = s.mem := rfl
@[simp] theorem State.takeDraws_draws (s : State) (n : Nat) : (s.takeDraws n).draws = s.draws + n := rfl

/-! ### Fault entry -/

@[simp] theorem State.takeFault_x (s : State) (w : Word) (r : Raise) : (s.takeFault w r).x = s.x := rfl
@[simp] theorem State.takeFault_hi (s : State) (w : Word) (r : Raise) : (s.takeFault w r).hi = s.hi := rfl
@[simp] theorem State.takeFault_lo (s : State) (w : Word) (r : Raise) : (s.takeFault w r).lo = s.lo := rfl
@[simp] theorem State.takeFault_pc (s : State) (w : Word) (r : Raise) : (s.takeFault w r).pc = s.pc := rfl
@[simp] theorem State.takeFault_delay (s : State) (w : Word) (r : Raise) : (s.takeFault w r).delay = s.delay := rfl
@[simp] theorem State.takeFault_sinceHiLoRead (s : State) (w : Word) (r : Raise) : (s.takeFault w r).sinceHiLoRead = s.sinceHiLoRead := rfl
@[simp] theorem State.takeFault_hiloFresh (s : State) (w : Word) (r : Raise) : (s.takeFault w r).hiloFresh = s.hiloFresh := rfl
@[simp] theorem State.takeFault_status (s : State) (w : Word) (r : Raise) : (s.takeFault w r).status = .faulted := rfl
@[simp] theorem State.takeFault_fault (s : State) (w : Word) (r : Raise) : (s.takeFault w r).fault = some { kind := r.kind, info := r.info w, pc := s.pc } := rfl
@[simp] theorem State.takeFault_stopRequest (s : State) (w : Word) (r : Raise) : (s.takeFault w r).stopRequest = s.stopRequest := rfl
@[simp] theorem State.takeFault_cfg (s : State) (w : Word) (r : Raise) : (s.takeFault w r).cfg = s.cfg := rfl
@[simp] theorem State.takeFault_mem (s : State) (w : Word) (r : Raise) : (s.takeFault w r).mem = s.mem := rfl
@[simp] theorem State.takeFault_draws (s : State) (w : Word) (r : Raise) : (s.takeFault w r).draws = s.draws := rfl

/-! ### The stop request taken -/

@[simp] theorem State.takeStop_x (s : State)  : (s.takeStop).x = s.x := rfl
@[simp] theorem State.takeStop_hi (s : State)  : (s.takeStop).hi = s.hi := rfl
@[simp] theorem State.takeStop_lo (s : State)  : (s.takeStop).lo = s.lo := rfl
@[simp] theorem State.takeStop_pc (s : State)  : (s.takeStop).pc = s.pc := rfl
@[simp] theorem State.takeStop_delay (s : State)  : (s.takeStop).delay = s.delay := rfl
@[simp] theorem State.takeStop_sinceHiLoRead (s : State)  : (s.takeStop).sinceHiLoRead = s.sinceHiLoRead := rfl
@[simp] theorem State.takeStop_hiloFresh (s : State)  : (s.takeStop).hiloFresh = s.hiloFresh := rfl
@[simp] theorem State.takeStop_status (s : State)  : (s.takeStop).status = .halted := rfl
@[simp] theorem State.takeStop_fault (s : State)  : (s.takeStop).fault = s.fault := rfl
@[simp] theorem State.takeStop_stopRequest (s : State)  : (s.takeStop).stopRequest = s.stopRequest := rfl
@[simp] theorem State.takeStop_cfg (s : State)  : (s.takeStop).cfg = s.cfg := rfl
@[simp] theorem State.takeStop_mem (s : State)  : (s.takeStop).mem = s.mem := rfl
@[simp] theorem State.takeStop_draws (s : State)  : (s.takeStop).draws = s.draws := rfl

/-! ### The stop request made -/

@[simp] theorem State.requestStop_x (s : State)  : (s.requestStop).x = s.x := rfl
@[simp] theorem State.requestStop_hi (s : State)  : (s.requestStop).hi = s.hi := rfl
@[simp] theorem State.requestStop_lo (s : State)  : (s.requestStop).lo = s.lo := rfl
@[simp] theorem State.requestStop_pc (s : State)  : (s.requestStop).pc = s.pc := rfl
@[simp] theorem State.requestStop_delay (s : State)  : (s.requestStop).delay = s.delay := rfl
@[simp] theorem State.requestStop_sinceHiLoRead (s : State)  : (s.requestStop).sinceHiLoRead = s.sinceHiLoRead := rfl
@[simp] theorem State.requestStop_hiloFresh (s : State)  : (s.requestStop).hiloFresh = s.hiloFresh := rfl
@[simp] theorem State.requestStop_status (s : State)  : (s.requestStop).status = s.status := rfl
@[simp] theorem State.requestStop_fault (s : State)  : (s.requestStop).fault = s.fault := rfl
@[simp] theorem State.requestStop_stopRequest (s : State)  : (s.requestStop).stopRequest = true := rfl
@[simp] theorem State.requestStop_cfg (s : State)  : (s.requestStop).cfg = s.cfg := rfl
@[simp] theorem State.requestStop_mem (s : State)  : (s.requestStop).mem = s.mem := rfl
@[simp] theorem State.requestStop_draws (s : State)  : (s.requestStop).draws = s.draws := rfl

/-! ### Reset -/

@[simp] theorem State.resetTo_x (s : State) (entryPoint : Word) : (s.resetTo entryPoint).x = Vector.replicate 32 0#64 := rfl
@[simp] theorem State.resetTo_hi (s : State) (entryPoint : Word) : (s.resetTo entryPoint).hi = 0#64 := rfl
@[simp] theorem State.resetTo_lo (s : State) (entryPoint : Word) : (s.resetTo entryPoint).lo = 0#64 := rfl
@[simp] theorem State.resetTo_pc (s : State) (entryPoint : Word) : (s.resetTo entryPoint).pc = entryPoint := rfl
@[simp] theorem State.resetTo_delay (s : State) (entryPoint : Word) : (s.resetTo entryPoint).delay = .normal := rfl
@[simp] theorem State.resetTo_sinceHiLoRead (s : State) (entryPoint : Word) : (s.resetTo entryPoint).sinceHiLoRead = 2 := rfl
@[simp] theorem State.resetTo_hiloFresh (s : State) (entryPoint : Word) : (s.resetTo entryPoint).hiloFresh = false := rfl
@[simp] theorem State.resetTo_status (s : State) (entryPoint : Word) : (s.resetTo entryPoint).status = .ready := rfl
@[simp] theorem State.resetTo_fault (s : State) (entryPoint : Word) : (s.resetTo entryPoint).fault = none := rfl
@[simp] theorem State.resetTo_stopRequest (s : State) (entryPoint : Word) : (s.resetTo entryPoint).stopRequest = false := rfl
@[simp] theorem State.resetTo_cfg (s : State) (entryPoint : Word) : (s.resetTo entryPoint).cfg = s.cfg := rfl
@[simp] theorem State.resetTo_mem (s : State) (entryPoint : Word) : (s.resetTo entryPoint).mem = s.mem := rfl
@[simp] theorem State.resetTo_draws (s : State) (entryPoint : Word) : (s.resetTo entryPoint).draws = s.draws := rfl

/-! ### The store of an effect -/

@[simp] theorem State.commitStore_none (s : State) : s.commitStore none = s := rfl
@[simp] theorem State.commitStore_some (s : State) (st : Store) :
    s.commitStore (some st) = { s with mem := s.mem.store st.address.toNat st.width.bytes st.value } := rfl
@[simp] theorem State.commitStore_x (s : State) (st : Option Store) : (s.commitStore st).x = s.x := by cases st <;> rfl
@[simp] theorem State.commitStore_hi (s : State) (st : Option Store) : (s.commitStore st).hi = s.hi := by cases st <;> rfl
@[simp] theorem State.commitStore_lo (s : State) (st : Option Store) : (s.commitStore st).lo = s.lo := by cases st <;> rfl
@[simp] theorem State.commitStore_pc (s : State) (st : Option Store) : (s.commitStore st).pc = s.pc := by cases st <;> rfl
@[simp] theorem State.commitStore_delay (s : State) (st : Option Store) : (s.commitStore st).delay = s.delay := by cases st <;> rfl
@[simp] theorem State.commitStore_sinceHiLoRead (s : State) (st : Option Store) : (s.commitStore st).sinceHiLoRead = s.sinceHiLoRead := by cases st <;> rfl
@[simp] theorem State.commitStore_hiloFresh (s : State) (st : Option Store) : (s.commitStore st).hiloFresh = s.hiloFresh := by cases st <;> rfl
@[simp] theorem State.commitStore_status (s : State) (st : Option Store) : (s.commitStore st).status = s.status := by cases st <;> rfl
@[simp] theorem State.commitStore_fault (s : State) (st : Option Store) : (s.commitStore st).fault = s.fault := by cases st <;> rfl
@[simp] theorem State.commitStore_stopRequest (s : State) (st : Option Store) : (s.commitStore st).stopRequest = s.stopRequest := by cases st <;> rfl
@[simp] theorem State.commitStore_cfg (s : State) (st : Option Store) : (s.commitStore st).cfg = s.cfg := by cases st <;> rfl
@[simp] theorem State.commitStore_draws (s : State) (st : Option Store) : (s.commitStore st).draws = s.draws := by cases st <;> rfl

/-! ### Register writes in a list -/

@[simp] theorem State.writeAll_pc (l : List (RegName × Dword)) (s : State) : (s.writeAll l).pc = s.pc := by
  induction l generalizing s with
  | nil => rfl
  | cons p rest ih => obtain ⟨n, v⟩ := p; cases n <;> simp [ih]
@[simp] theorem State.writeAll_delay (l : List (RegName × Dword)) (s : State) : (s.writeAll l).delay = s.delay := by
  induction l generalizing s with
  | nil => rfl
  | cons p rest ih => obtain ⟨n, v⟩ := p; cases n <;> simp [ih]
@[simp] theorem State.writeAll_sinceHiLoRead (l : List (RegName × Dword)) (s : State) : (s.writeAll l).sinceHiLoRead = s.sinceHiLoRead := by
  induction l generalizing s with
  | nil => rfl
  | cons p rest ih => obtain ⟨n, v⟩ := p; cases n <;> simp [ih]
@[simp] theorem State.writeAll_hiloFresh (l : List (RegName × Dword)) (s : State) : (s.writeAll l).hiloFresh = s.hiloFresh := by
  induction l generalizing s with
  | nil => rfl
  | cons p rest ih => obtain ⟨n, v⟩ := p; cases n <;> simp [ih]
@[simp] theorem State.writeAll_status (l : List (RegName × Dword)) (s : State) : (s.writeAll l).status = s.status := by
  induction l generalizing s with
  | nil => rfl
  | cons p rest ih => obtain ⟨n, v⟩ := p; cases n <;> simp [ih]
@[simp] theorem State.writeAll_fault (l : List (RegName × Dword)) (s : State) : (s.writeAll l).fault = s.fault := by
  induction l generalizing s with
  | nil => rfl
  | cons p rest ih => obtain ⟨n, v⟩ := p; cases n <;> simp [ih]
@[simp] theorem State.writeAll_stopRequest (l : List (RegName × Dword)) (s : State) : (s.writeAll l).stopRequest = s.stopRequest := by
  induction l generalizing s with
  | nil => rfl
  | cons p rest ih => obtain ⟨n, v⟩ := p; cases n <;> simp [ih]
@[simp] theorem State.writeAll_cfg (l : List (RegName × Dword)) (s : State) : (s.writeAll l).cfg = s.cfg := by
  induction l generalizing s with
  | nil => rfl
  | cons p rest ih => obtain ⟨n, v⟩ := p; cases n <;> simp [ih]
@[simp] theorem State.writeAll_mem (l : List (RegName × Dword)) (s : State) : (s.writeAll l).mem = s.mem := by
  induction l generalizing s with
  | nil => rfl
  | cons p rest ih => obtain ⟨n, v⟩ := p; cases n <;> simp [ih]
@[simp] theorem State.writeAll_draws (l : List (RegName × Dword)) (s : State) : (s.writeAll l).draws = s.draws := by
  induction l generalizing s with
  | nil => rfl
  | cons p rest ih => obtain ⟨n, v⟩ := p; cases n <;> simp [ih]

/-! ### Reading registers -/

/-- r0 reads as zero (R21). -/
@[simp] theorem State.reg_zero (s : State) : s.reg 0#5 = 0#64 := rfl

/-- `reg` reads only the register file. -/
theorem State.reg_congr {s t : State} (h : t.x = s.x) (r : Reg) : t.reg r = s.reg r := by
  unfold State.reg; rw [h]

/-- What `reg` reads after one write (R20 to R22). -/
theorem State.reg_setReg (s : State) (r q : Reg) (v : Dword) :
    (s.setReg r v).reg q = if q = r ∧ q ≠ 0#5 then v else s.reg q := by
  unfold State.reg State.setReg
  by_cases hq : q = 0#5
  · simp [hq]
  · by_cases hr : r = 0#5
    · have : q ≠ r := fun h => hq (h.trans hr)
      simp [hq, hr]
    · by_cases h : q = r
      · subst h; simp [hq]
      · have : r.toNat ≠ q.toNat := fun e => h (BitVec.eq_of_toNat_eq e.symm)
        simp [hq, hr, h, this]

@[simp] theorem State.reg_finish (s : State) (u : HiLoUse) (o : BranchOutcome) (r : Reg) :
    (s.finish u o).reg r = s.reg r := rfl
@[simp] theorem State.reg_takeDraws (s : State) (n : Nat) (r : Reg) : (s.takeDraws n).reg r = s.reg r := rfl
@[simp] theorem State.reg_takeFault (s : State) (w : Word) (f : Raise) (r : Reg) : (s.takeFault w f).reg r = s.reg r := rfl
@[simp] theorem State.reg_commitStore (s : State) (st : Option Store) (r : Reg) : (s.commitStore st).reg r = s.reg r := by
  cases st <;> rfl
@[simp] theorem State.reg_with_hi (s : State) (v : Dword) (r : Reg) : ({ s with hi := v } : State).reg r = s.reg r := rfl
@[simp] theorem State.reg_with_lo (s : State) (v : Dword) (r : Reg) : ({ s with lo := v } : State).reg r = s.reg r := rfl

/-! ### The next program counter -/

@[simp] theorem State.nextPc_normal {s : State} (h : s.delay = .normal) : s.nextPc = s.pc + 4#32 := by
  unfold State.nextPc; rw [h]
@[simp] theorem State.nextPc_slotTaken {s : State} {a : Word} (h : s.delay = .slotTaken a) : s.nextPc = a := by
  unfold State.nextPc; rw [h]
@[simp] theorem State.nextPc_slotNotTaken {s : State} (h : s.delay = .slotNotTaken) : s.nextPc = s.pc + 4#32 := by
  unfold State.nextPc; rw [h]

/-- `nextPc` reads only `pc` and `delay`. -/
theorem State.nextPc_congr {s t : State} (hp : t.pc = s.pc) (hd : t.delay = s.delay) : t.nextPc = s.nextPc := by
  unfold State.nextPc; rw [hp, hd]

end Sys2Proof.Machine
end

