-- ==== Sys2Proof/Laws/Memory.lean ====
section
/-! SUPPORT. The laws of memory: a read after a write, the frame of a write, and the canonical form kept by every memory
operation; then, for each access, one lemma that says all it can do. -/

namespace Sys2Proof.Machine

/-! ### Cells -/

/-- Addresses strictly rise. -/
abbrev Rising (l : List Host.Cell) : Prop := l.Pairwise (fun c d => c.1 < d.1)

/-- A write leaves every other address alone. -/
theorem cellsGet_cellsSet_other (l : List Host.Cell) {a b : Nat} (v : Byte) (h : b ≠ a) :
    cellsGet (cellsSet l a v) b = cellsGet l b := by
  induction l with
  | nil => unfold cellsSet; split <;> simp [cellsGet, h]
  | cons c rest ih =>
    obtain ⟨k, w⟩ := c
    unfold cellsSet
    split
    · split <;> simp [cellsGet, h]
    · split
      · next hk => subst hk; split <;> simp [cellsGet, h]
      · simp [cellsGet, ih]

/-- An address below every cell reads as unlisted. -/
theorem cellsGet_below (l : List Host.Cell) {a : Nat} (h : ∀ c ∈ l, a < c.1) : cellsGet l a = unlistedByte := by
  induction l with
  | nil => rfl
  | cons c rest ih =>
    have hc := h c (by simp)
    simp only [cellsGet]
    rw [if_neg (by omega)]
    exact ih (fun d hd => h d (by simp [hd]))

/-- A write gives the value written. -/
theorem cellsGet_cellsSet_same (l : List Host.Cell) (a : Nat) (v : Byte) (h : Rising l) :
    cellsGet (cellsSet l a v) a = v := by
  induction l with
  | nil => unfold cellsSet; split <;> simp_all [cellsGet]
  | cons c rest ih =>
    obtain ⟨k, w⟩ := c
    rw [Rising, List.pairwise_cons] at h
    unfold cellsSet
    split
    · next hk =>
      split
      · next hv =>
        rw [hv]
        refine cellsGet_below _ (fun d hd => ?_)
        rcases List.mem_cons.1 hd with rfl | hd
        · exact hk
        · exact Nat.lt_trans hk (h.1 d hd)
      · simp [cellsGet]
    · split
      · next hk =>
        subst hk
        split
        · next hv => rw [hv]; exact cellsGet_below _ (fun d hd => h.1 d hd)
        · simp [cellsGet]
      · next hk => simp [cellsGet, hk, ih h.2]

/-- A cell after a write is the written one or an old one, and the written one is listed only if it must be. -/
theorem mem_cellsSet {l : List Host.Cell} {a : Nat} {v : Byte} {c : Host.Cell} (h : c ∈ cellsSet l a v) :
    (c = (a, v) ∧ v ≠ unlistedByte) ∨ c ∈ l := by
  induction l with
  | nil => unfold cellsSet at h; split at h <;> simp_all
  | cons d rest ih =>
    obtain ⟨k, w⟩ := d
    unfold cellsSet at h
    split at h
    · split at h <;> simp_all
    · split at h
      · split at h
        · exact .inr (by simp [h])
        · simp_all; tauto
      · rcases List.mem_cons.1 h with h | h
        · exact .inr (by simp [h])
        · rcases ih h with h | h
          · exact .inl h
          · exact .inr (by simp [h])

/-- A write keeps the addresses rising. -/
theorem rising_cellsSet {l : List Host.Cell} (a : Nat) (v : Byte) (h : Rising l) : Rising (cellsSet l a v) := by
  induction l with
  | nil => unfold cellsSet; split <;> simp
  | cons d rest ih =>
    obtain ⟨k, w⟩ := d
    rw [Rising, List.pairwise_cons] at h
    unfold cellsSet
    split
    · next hk =>
      split
      · exact List.pairwise_cons.2 h
      · refine List.pairwise_cons.2 ⟨fun c hc => ?_, List.pairwise_cons.2 h⟩
        rcases List.mem_cons.1 hc with rfl | hc
        · exact hk
        · exact Nat.lt_trans hk (h.1 c hc)
    · next hk =>
      split
      · next e =>
        subst e
        split
        · exact h.2
        · exact List.pairwise_cons.2 h
      · next e =>
        refine List.pairwise_cons.2 ⟨fun c hc => ?_, ih h.2⟩
        rcases mem_cellsSet hc with ⟨rfl, _⟩ | hc
        · show k < a; omega
        · exact h.1 c hc

/-! ### Bytes of memory -/

@[simp] theorem Memory.setByte_rdramBase (m : Memory) (a : Nat) (v : Byte) : (m.setByte a v).rdramBase = m.rdramBase := rfl
@[simp] theorem Memory.setByte_rdramSize (m : Memory) (a : Nat) (v : Byte) : (m.setByte a v).rdramSize = m.rdramSize := rfl
@[simp] theorem Memory.setByte_cartLength (m : Memory) (a : Nat) (v : Byte) : (m.setByte a v).cartLength = m.cartLength := rfl

/-- A write of one byte leaves every other byte alone (R57). -/
theorem Memory.byteAt_setByte_other (m : Memory) {a b : Nat} (v : Byte) (h : b ≠ a) :
    (m.setByte a v).byteAt b = m.byteAt b := cellsGet_cellsSet_other _ v h

/-- A write of one byte gives the byte written (R66). -/
theorem Memory.byteAt_setByte_same (m : Memory) (a : Nat) (v : Byte) (h : Rising m.cells) :
    (m.setByte a v).byteAt a = v := cellsGet_cellsSet_same _ a v h

@[simp] theorem Memory.store_rdramBase (m : Memory) (a n : Nat) (v : Dword) : (m.store a n v).rdramBase = m.rdramBase := by
  induction n generalizing v with
  | zero => rfl
  | succ n ih => simp [Memory.store, ih]
@[simp] theorem Memory.store_rdramSize (m : Memory) (a n : Nat) (v : Dword) : (m.store a n v).rdramSize = m.rdramSize := by
  induction n generalizing v with
  | zero => rfl
  | succ n ih => simp [Memory.store, ih]
@[simp] theorem Memory.store_cartLength (m : Memory) (a n : Nat) (v : Dword) : (m.store a n v).cartLength = m.cartLength := by
  induction n generalizing v with
  | zero => rfl
  | succ n ih => simp [Memory.store, ih]

/-- A store keeps the addresses of the cells rising. -/
theorem Memory.rising_store (m : Memory) (a n : Nat) (v : Dword) (h : Rising m.cells) : Rising (m.store a n v).cells := by
  induction n generalizing v with
  | zero => exact h
  | succ n ih => exact rising_cellsSet _ _ (ih _)

/-- A store leaves every byte outside the stored ones alone (R57, R64). -/
theorem Memory.byteAt_store_other (m : Memory) {a n b : Nat} (v : Dword) (h : b < a ∨ a + n ≤ b) :
    (m.store a n v).byteAt b = m.byteAt b := by
  induction n generalizing v with
  | zero => rfl
  | succ n ih =>
    rw [Memory.store, Memory.byteAt_setByte_other _ _ (by omega), ih _ (by omega)]

/-- A store of `n` bytes puts at `a + k` the byte of `v` that big-endian order gives it (R59). -/
theorem Memory.byteAt_store (m : Memory) {a n k : Nat} (v : Dword) (h : Rising m.cells) (hk : k < n) :
    (m.store a n v).byteAt (a + k) = v.extractLsb' (8 * (n - 1 - k)) 8 := by
  induction n generalizing v with
  | zero => omega
  | succ n ih =>
    by_cases e : k = n
    · subst e
      rw [Memory.store, Memory.byteAt_setByte_same _ _ _ (Memory.rising_store _ _ _ _ h)]
      ext i hi
      simp [show i < 64 by omega]
    · rw [Memory.store, Memory.byteAt_setByte_other _ _ (by omega), ih _ (by omega)]
      ext i hi
      have h1 : 8 + (8 * (n - 1 - k) + i) = 8 * (n - k) + i := by omega
      simp [h1]

/-! ### What a read assembles -/

/-- Appending one byte to a value is a shift by 8 and an or, at 64 bits. -/
theorem setWidth_append_byte {w : Nat} (x : BitVec w) (b : Byte) :
    (x ++ b).setWidth 64 = (x.setWidth 64) <<< 8 ||| b.setWidth 64 := by
  apply BitVec.eq_of_getLsbD_eq
  intro i hi
  simp only [BitVec.getLsbD_setWidth, BitVec.getLsbD_append, BitVec.getLsbD_or, BitVec.getLsbD_shiftLeft]
  by_cases h : i < 8
  · simp [h, hi]
  · simp [h, hi, show i - 8 < 64 by omega, BitVec.getLsbD_of_ge b i (by omega)]

/-- What a read of each width assembles: big-endian, most significant byte at the lowest address (R58). -/
theorem Memory.load_one (m : Memory) (a : Nat) : m.load a 1 = (m.byteAt a).setWidth 64 := by simp [Memory.load]
theorem Memory.load_two (m : Memory) (a : Nat) : m.load a 2 = (m.byteAt a ++ m.byteAt (a + 1)).setWidth 64 := by
  rw [setWidth_append_byte (w := 8), ← Memory.load_one]; rfl
theorem Memory.load_four (m : Memory) (a : Nat) : m.load a 4 =
    (m.byteAt a ++ m.byteAt (a + 1) ++ m.byteAt (a + 2) ++ m.byteAt (a + 3)).setWidth 64 := by
  rw [setWidth_append_byte (w := 8 + 8 + 8), setWidth_append_byte (w := 8 + 8), ← Memory.load_two]; rfl
theorem Memory.load_eight (m : Memory) (a : Nat) : m.load a 8 =
    m.byteAt a ++ m.byteAt (a + 1) ++ m.byteAt (a + 2) ++ m.byteAt (a + 3) ++ m.byteAt (a + 4) ++ m.byteAt (a + 5) ++
      m.byteAt (a + 6) ++ m.byteAt (a + 7) := by
  rw [← BitVec.setWidth_eq (m.byteAt a ++ m.byteAt (a + 1) ++ m.byteAt (a + 2) ++ m.byteAt (a + 3) ++ m.byteAt (a + 4) ++
    m.byteAt (a + 5) ++ m.byteAt (a + 6) ++ m.byteAt (a + 7))]
  rw [setWidth_append_byte (w := 8 + 8 + 8 + 8 + 8 + 8 + 8), setWidth_append_byte (w := 8 + 8 + 8 + 8 + 8 + 8),
    setWidth_append_byte (w := 8 + 8 + 8 + 8 + 8), setWidth_append_byte (w := 8 + 8 + 8 + 8), ← Memory.load_four]; rfl

/-- No access is wider than 8 bytes (R50). -/
theorem Width.bytes_le (n : Width) : n.bytes ≤ 8 := by cases n <;> decide

/-- A load of `n` bytes sets no bit above them, at any width: what it answers fits in `8 * n` bits (R50, R58). -/
theorem Memory.getLsbD_load_above (m : Memory) (a : Nat) {n i : Nat} (h : 8 * n ≤ i) : (m.load a n).getLsbD i = false := by
  induction n generalizing i with
  | zero => simp [Memory.load]
  | succ n ih => simp [Memory.load, ih (show 8 * n ≤ i - 8 by omega), BitVec.getLsbD_of_ge _ i (show 8 ≤ i by omega)]

theorem Memory.toNat_load (m : Memory) (a n : Nat) : (m.load a n).toNat < 2 ^ (8 * n) :=
  Nat.lt_pow_two_of_testBit _ fun i hi => by rw [BitVec.testBit_toNat]; exact m.getLsbD_load_above a hi

/-- Each byte of a loaded value is the byte of memory that big-endian order puts there (R58). -/
theorem Memory.byte_load (m : Memory) (a : Nat) {n k : Nat} (hk : k < n) (hn : n ≤ 8) :
    (m.load a n).extractLsb' (8 * (n - 1 - k)) 8 = m.byteAt (a + k) := by
  induction n with
  | zero => omega
  | succ n ih =>
    apply BitVec.eq_of_getLsbD_eq
    intro i hi
    by_cases h : k = n
    · subst h
      simp [Memory.load, hi, show i < 64 by omega]
    · rw [← ih (by omega) (by omega)]
      simp [Memory.load, hi, show ¬ 8 * (n - k) + i < 8 by omega, show 8 * (n - k) + i < 64 by omega,
        show 8 * (n - k) + i - 8 = 8 * (n - 1 - k) + i by omega,
        BitVec.getLsbD_of_ge (m.byteAt (a + n)) (8 * (n - k) + i) (by omega)]
      rw [BitVec.getLsbD_eq_getElem]

/-- A read inside the bytes of a store gives the part of the value that big-endian order puts there (R58 to R60). -/
theorem Memory.load_store (m : Memory) {a n k j : Nat} (v : Dword) (h : Rising m.cells) (hj : k + j ≤ n) (hn : n ≤ 8) :
    (m.store a n v).load (a + k) j = (v.extractLsb' (8 * (n - k - j)) (8 * j)).setWidth 64 := by
  induction j with
  | zero => simp [Memory.load]
  | succ j ih =>
    rw [Memory.load, ih (by omega), Nat.add_assoc, Memory.byteAt_store m v h (by omega)]
    apply BitVec.eq_of_getLsbD_eq
    intro i hi
    simp only [BitVec.getLsbD_setWidth, BitVec.getLsbD_or, BitVec.getLsbD_shiftLeft, BitVec.getLsbD_extractLsb']
    by_cases h8 : i < 8
    · simp [h8, hi, show i < 8 * (j + 1) by omega, show n - 1 - (k + j) = n - k - (j + 1) by omega]
    · simp [h8, hi, show i - 8 < 64 by omega, show (i - 8 < 8 * j) = (i < 8 * (j + 1)) by simp; omega,
        show 8 * (n - k - j) + (i - 8) = 8 * (n - k - (j + 1)) + i by omega]

/-! ### The map -/

/-- The regions depend on the map only. -/
theorem Memory.regions_congr {m q : Memory} (hb : q.rdramBase = m.rdramBase) (hs : q.rdramSize = m.rdramSize)
    (hc : q.cartLength = m.cartLength) : q.regions = m.regions := by
  unfold Memory.regions Memory.rdram Memory.cartridge; rw [hb, hs, hc]

@[simp] theorem Memory.regions_setByte (m : Memory) (a : Nat) (v : Byte) : (m.setByte a v).regions = m.regions :=
  Memory.regions_congr rfl rfl rfl
@[simp] theorem Memory.regions_store (m : Memory) (a n : Nat) (v : Dword) : (m.store a n v).regions = m.regions :=
  Memory.regions_congr (by simp) (by simp) (by simp)
@[simp] theorem Memory.mapped_store (m : Memory) (a n : Nat) (v : Dword) (b : Nat) :
    (m.store a n v).mapped b = m.mapped b := by unfold Memory.mapped Memory.regionOf; simp
@[simp] theorem Memory.mapOk_store (m : Memory) (a n : Nat) (v : Dword) : (m.store a n v).mapOk = m.mapOk := by
  unfold Memory.mapOk; simp

/-- A region of the map is RDRAM, read-write, or the cartridge, read-only and not empty (R53). -/
theorem Memory.mem_regions {m : Memory} {g : Region} (h : g ∈ m.regions) :
    g = m.rdram ∨ (g = m.cartridge ∧ m.cartLength ≠ 0) := by
  unfold Memory.regions at h
  split at h
  · exact .inl (by simpa using h)
  · split at h <;> simp at h <;> tauto

/-- The regions of a map (R53, R311). -/
theorem Memory.mem_regions_iff (m : Memory) (g : Region) :
    g ∈ m.regions ↔ g = m.rdram ∨ (m.cartLength ≠ 0 ∧ g = m.cartridge) := by
  unfold Memory.regions
  split
  · simp_all
  · split <;> simp_all; tauto

/-- A legal map, taken apart (R51, R52, R311). -/
theorem Memory.mapOk_iff (m : Memory) : m.mapOk = true ↔
    0 < m.rdramSize ∧ m.rdramBase.toNat + m.rdramSize ≤ addressLimit ∧ cartridgeBase + m.cartLength ≤ addressLimit ∧
    (m.cartLength = 0 ∨ m.rdramBase.toNat + m.rdramSize ≤ cartridgeBase ∨
      cartridgeBase + m.cartLength ≤ m.rdramBase.toNat) := by
  unfold Memory.mapOk
  simp only [Bool.and_eq_true, Bool.or_eq_true, decide_eq_true_eq, and_assoc, or_assoc]

/-- The region found for an access is a region of the map and holds the whole access (R54). -/
theorem Memory.regionOf_spec {m : Memory} {a n : Nat} {g : Region} (h : m.regionOf a n = some g) :
    g ∈ m.regions ∧ g.base ≤ a ∧ a + n ≤ g.base + g.length := by
  refine ⟨List.mem_of_find?_eq_some h, ?_⟩
  simpa [Region.holds] using List.find?_some h

/-- A region of the map that holds a whole access makes it mapped (R54). -/
theorem Memory.regionOf_isSome_of {m : Memory} {a n : Nat} {g : Region} (hg : g ∈ m.regions) (hb : g.base ≤ a)
    (he : a + n ≤ g.base + g.length) : (m.regionOf a n).isSome = true := by
  rw [Memory.regionOf, List.find?_isSome]
  exact ⟨g, hg, by simp [Region.holds, hb, he]⟩

/-- Every byte of a mapped access is mapped (R54). -/
theorem Memory.mapped_of_regionOf {m : Memory} {a n k : Nat} {g : Region} (h : m.regionOf a n = some g) (hk : k < n) :
    m.mapped (a + k) = true := by
  obtain ⟨hg, hb, he⟩ := Memory.regionOf_spec h
  exact Memory.regionOf_isSome_of hg (by omega) (by omega)

/-! ### The canonical form -/

/-- The canonical form, taken apart. -/
theorem Memory.wf_iff (m : Memory) : m.wf = true ↔
    m.mapOk = true ∧ Rising m.cells ∧ (∀ c ∈ m.cells, c.2 ≠ unlistedByte) ∧ (∀ c ∈ m.cells, m.mapped c.1 = true) := by
  unfold Memory.wf
  simp [and_assoc]

/-- Writing one mapped byte keeps the canonical form. -/
theorem Memory.wf_setByte {m : Memory} {a : Nat} (v : Byte) (h : m.wf = true) (ha : m.mapped a = true) :
    (m.setByte a v).wf = true := by
  rw [Memory.wf_iff] at h ⊢
  obtain ⟨h1, h2, h3, h4⟩ := h
  refine ⟨h1, rising_cellsSet a v h2, fun c hc => ?_, fun c hc => ?_⟩
  · rcases mem_cellsSet hc with ⟨rfl, hv⟩ | hc
    · exact hv
    · exact h3 c hc
  · show m.mapped c.1 = true
    rcases mem_cellsSet hc with ⟨rfl, _⟩ | hc
    · exact ha
    · exact h4 c hc

/-- A store into mapped bytes keeps the canonical form. -/
theorem Memory.wf_store {m : Memory} {a n : Nat} (v : Dword) (h : m.wf = true)
    (ha : ∀ k, k < n → m.mapped (a + k) = true) : (m.store a n v).wf = true := by
  induction n generalizing v with
  | zero => exact h
  | succ n ih =>
    exact Memory.wf_setByte _ (ih _ (fun k hk => ha k (by omega))) (by simpa using ha n (by omega))

/-! ### Accesses -/

/-- All that the first two checks of an access can do (R54 to R56). -/
theorem Memory.locate_cases (m : Memory) (a : Word) (n : Width) :
    (m.locate a n = .error .misaligned ∧ a.toNat % n.bytes ≠ 0) ∨
    (m.locate a n = .error .unmapped ∧ a.toNat % n.bytes = 0 ∧ m.regionOf a.toNat n.bytes = none) ∨
    (∃ g, m.locate a n = .ok g ∧ a.toNat % n.bytes = 0 ∧ m.regionOf a.toNat n.bytes = some g) := by
  unfold Memory.locate
  split
  · exact .inl ⟨rfl, ‹_›⟩
  · split
    · exact .inr (.inl ⟨rfl, by omega, ‹_›⟩)
    · exact .inr (.inr ⟨_, rfl, by omega, ‹_›⟩)

/-- All that a read can do (R50, R56). -/
theorem Memory.read_cases (m : Memory) (a : Word) (n : Width) :
    (m.read a n = .error .misaligned ∧ a.toNat % n.bytes ≠ 0) ∨
    (m.read a n = .error .unmapped ∧ a.toNat % n.bytes = 0 ∧ m.regionOf a.toNat n.bytes = none) ∨
    (∃ g, m.read a n = .ok (m.load a.toNat n.bytes) ∧ a.toNat % n.bytes = 0 ∧ m.regionOf a.toNat n.bytes = some g) := by
  rcases m.locate_cases a n with ⟨h, h1⟩ | ⟨h, h1, h2⟩ | ⟨g, h, h1, h2⟩
  · exact .inl ⟨by simp [Memory.read, h, bind, Except.bind], h1⟩
  · exact .inr (.inl ⟨by simp [Memory.read, h, bind, Except.bind], h1, h2⟩)
  · exact .inr (.inr ⟨g, by simp [Memory.read, h, bind, Except.bind, pure, Except.pure], h1, h2⟩)

/-- All that the checks of a write can do (R56, R57). -/
theorem Memory.checkWrite_cases (m : Memory) (a : Word) (n : Width) :
    (m.checkWrite a n = .error .misaligned ∧ a.toNat % n.bytes ≠ 0) ∨
    (m.checkWrite a n = .error .unmapped ∧ a.toNat % n.bytes = 0 ∧ m.regionOf a.toNat n.bytes = none) ∨
    (∃ g, m.checkWrite a n = .error .writeProtected ∧ a.toNat % n.bytes = 0 ∧
      m.regionOf a.toNat n.bytes = some g ∧ g.permission = .readOnly) ∨
    (∃ g, m.checkWrite a n = .ok () ∧ a.toNat % n.bytes = 0 ∧
      m.regionOf a.toNat n.bytes = some g ∧ g.permission = .readWrite) := by
  rcases m.locate_cases a n with ⟨h, h1⟩ | ⟨h, h1, h2⟩ | ⟨g, h, h1, h2⟩
  · exact .inl ⟨by simp [Memory.checkWrite, h, bind, Except.bind], h1⟩
  · exact .inr (.inl ⟨by simp [Memory.checkWrite, h, bind, Except.bind], h1, h2⟩)
  · cases hp : g.permission with
    | readOnly => exact .inr (.inr (.inl ⟨g, by simp [Memory.checkWrite, h, hp, bind, Except.bind], h1, h2, hp⟩))
    | readWrite =>
      exact .inr (.inr (.inr ⟨g, by simp [Memory.checkWrite, h, hp, bind, Except.bind, pure, Except.pure], h1, h2, hp⟩))

/-- A write that passes its checks touches RDRAM only (R53, R57). -/
theorem Memory.checkWrite_ok {m : Memory} {a : Word} {n : Width} (h : m.checkWrite a n = .ok ()) :
    a.toNat % n.bytes = 0 ∧ m.regionOf a.toNat n.bytes = some m.rdram := by
  rcases m.checkWrite_cases a n with ⟨e, _⟩ | ⟨e, _⟩ | ⟨g, e, _⟩ | ⟨g, _, h1, h2, hp⟩
  · rw [e] at h; cases h
  · rw [e] at h; cases h
  · rw [e] at h; cases h
  · refine ⟨h1, ?_⟩
    rcases Memory.mem_regions (Memory.regionOf_spec h2).1 with rfl | ⟨rfl, _⟩
    · exact h2
    · cases hp

/-- The accesses as the step makes them: the fault gains its address. -/
@[simp] theorem accessAt_ok {α : Type} (a : Word) (v : α) : accessAt a (.ok v) = .ok v := rfl
@[simp] theorem accessAt_error {α : Type} (a : Word) (k : AccessFault) :
    accessAt (α := α) a (.error k) = .error (.access k a) := rfl

end Sys2Proof.Machine
end

