-- ==== Sys2Proof/Laws/Ops.lean ====
section
/-! SUPPORT. One lemma per shared operation that says once all it can do: narrowing, the overflow rule, the attempt and
the execution of an instruction, the commit of its effect. -/

namespace Sys2Proof.Machine

/-! ### Operands -/

/-- All that `narrow` can do: the low word of a usable value, or the fault of its reason (R140, R210, R241). -/
theorem narrow_cases (cfg : Config) (reason : UnpredictableReason) (v : Dword) :
    (narrow cfg reason v = .ok (low32 v) ∧ (canon v = true ∨ cfg.nonCanonical32 = .low32)) ∨
    (narrow cfg reason v = .error (.unpredictable reason) ∧ canon v = false ∧ cfg.nonCanonical32 = .fault) := by
  unfold narrow
  cases canon v <;> cases cfg.nonCanonical32 <;> simp

/-- A usable value is narrowed to its low word. -/
theorem narrow_ok {cfg : Config} {v : Dword} (reason : UnpredictableReason)
    (h : canon v = true ∨ cfg.nonCanonical32 = .low32) : narrow cfg reason v = .ok (low32 v) := by
  rcases narrow_cases cfg reason v with ⟨e, _⟩ | ⟨_, h1, h2⟩
  · exact e
  · simp [h1, h2] at h

/-- A value that is not canonical faults under the `Fault` policy. -/
theorem narrow_error {cfg : Config} {v : Dword} (reason : UnpredictableReason) (h : canon v = false)
    (hp : cfg.nonCanonical32 = .fault) : narrow cfg reason v = .error (.unpredictable reason) := by
  simp [narrow, h, hp]

/-- Canonical, as an equation (R11). -/
theorem canon_iff (v : Dword) : canon v = true ↔ v = sext64 (low32 v) := by simp [canon]

/-- An exact result in range is kept (R141). -/
theorem exact32_ok {z : Int} (h1 : -2147483648 ≤ z) (h2 : z ≤ 2147483647) : exact32 z = .ok (BitVec.ofInt 32 z) := by
  have : overflows32 z = false := by simp [overflows32]; omega
  simp [exact32, this]

/-- An exact result out of range overflows (R141). -/
theorem exact32_error {z : Int} (h : z < -2147483648 ∨ 2147483647 < z) : exact32 z = .error .arithmeticOverflow := by
  have : overflows32 z = true := by simp [overflows32]; omega
  simp [exact32, this]

/-! ### Execution -/

/-- An instruction outside a slot, or one that is no transfer, is attempted with its own effect (R116). -/
theorem attempt_eq {i : Instr} {s : State} (e : Except Raise Effect) (h : transferInSlot i s = false) :
    attempt i s e = e := by simp [attempt, h]

/-- A transfer in a slot is never attempted (R116). -/
theorem attempt_inSlot {i : Instr} {s : State} (e : Except Raise Effect) (h : transferInSlot i s = true) :
    attempt i s e = .error (.unpredictable .branchInDelaySlot) := by simp [attempt, h]

/-- When the delay-slot check of R116 stops an instruction. -/
theorem transferInSlot_iff (i : Instr) (s : State) :
    transferInSlot i s = true ↔ s.delay ≠ .normal ∧ (i.opClass = .branch ∨ i.opClass = .jump) := by
  simp [transferInSlot]

/-- All that executing an instruction can do: commit its effect, or take a fault (R118). -/
theorem execute_cases (i : Instr) (s : State) (e : Except Raise Effect) :
    (∃ f, e = .ok f ∧ transferInSlot i s = false ∧ execute i s e = .next (s.commit i f)) ∨
    (∃ r, attempt i s e = .error r ∧ execute i s e = .next (s.takeFault (encode i) r)) := by
  unfold execute
  cases h : attempt i s e with
  | ok f =>
    refine .inl ⟨f, ?_, ?_, rfl⟩ <;> unfold attempt at h <;> split at h <;> simp_all
  | error r => exact .inr ⟨r, rfl, rfl⟩

/-- The execution of an instruction whose effect is not stopped (R117, R118). -/
theorem execute_ok {i : Instr} {s : State} {f : Effect} (h : transferInSlot i s = false) :
    execute i s (.ok f) = .next (s.commit i f) := by simp [execute, attempt, h]

/-- The execution of an instruction whose rule raises (R117, R118). -/
theorem execute_error {i : Instr} {s : State} {r : Raise} (h : transferInSlot i s = false) :
    execute i s (.error r) = .next (s.takeFault (encode i) r) := by simp [execute, attempt, h]

/-! ### The commit -/

/-- The fields that the commit of an effect does not take from its writes, its store or its draws. -/
@[simp] theorem State.commit_pc (s : State) (i : Instr) (e : Effect) : (s.commit i e).pc = s.nextPc := by
  unfold State.commit; rw [State.finish_pc]; exact State.nextPc_congr (by simp) (by simp)
@[simp] theorem State.commit_delay (s : State) (i : Instr) (e : Effect) : (s.commit i e).delay = e.outcome.nextDelay := rfl
@[simp] theorem State.commit_sinceHiLoRead (s : State) (i : Instr) (e : Effect) :
    (s.commit i e).sinceHiLoRead = nextSinceHiLoRead (hiLoUse i) s.sinceHiLoRead := by simp [State.commit]
@[simp] theorem State.commit_hiloFresh (s : State) (i : Instr) (e : Effect) :
    (s.commit i e).hiloFresh = nextHiloFresh (hiLoUse i) s.hiloFresh := by simp [State.commit]
@[simp] theorem State.commit_status (s : State) (i : Instr) (e : Effect) : (s.commit i e).status = .running := rfl
@[simp] theorem State.commit_fault (s : State) (i : Instr) (e : Effect) : (s.commit i e).fault = s.fault := by
  simp [State.commit]
@[simp] theorem State.commit_stopRequest (s : State) (i : Instr) (e : Effect) :
    (s.commit i e).stopRequest = s.stopRequest := by simp [State.commit]
@[simp] theorem State.commit_cfg (s : State) (i : Instr) (e : Effect) : (s.commit i e).cfg = s.cfg := by
  simp [State.commit]
@[simp] theorem State.commit_draws (s : State) (i : Instr) (e : Effect) : (s.commit i e).draws = s.draws + e.draws := by
  simp [State.commit]
@[simp] theorem State.commit_reg (s : State) (i : Instr) (e : Effect) (r : Reg) :
    (s.commit i e).reg r = (s.writeAll e.writes).reg r := by simp [State.commit]
@[simp] theorem State.commit_hi (s : State) (i : Instr) (e : Effect) : (s.commit i e).hi = (s.writeAll e.writes).hi := by
  simp [State.commit]
@[simp] theorem State.commit_lo (s : State) (i : Instr) (e : Effect) : (s.commit i e).lo = (s.writeAll e.writes).lo := by
  simp [State.commit]
@[simp] theorem State.commit_x (s : State) (i : Instr) (e : Effect) : (s.commit i e).x = (s.writeAll e.writes).x := by
  simp [State.commit]

/-- The memory after a commit: the store's, or the old one (R117). -/
theorem State.commit_mem (s : State) (i : Instr) (e : Effect) :
    (s.commit i e).mem = match e.store with
      | none => s.mem
      | some st => s.mem.store st.address.toNat st.width.bytes st.value := by
  cases h : e.store <;> simp [State.commit, h]

/-- The commit of one register write. -/
@[simp] theorem State.commit_write_mem (s : State) (i : Instr) (rd : Reg) (v : Dword) :
    (s.commit i (.write rd v)).mem = s.mem := by simp [State.commit_mem, Effect.write]

end Sys2Proof.Machine
end

