-- ==== Sys2Proof/Laws/Exec.lean ====
section
/-! SUPPORT. `exec` is the execution of the effect of its instruction; what any effect can hold; and, from both, what any
instruction can do. -/

namespace Sys2Proof.Machine

/-- Every meaning executes the effect of its own instruction (R117). -/
theorem exec_eq_execute (i : Instr) (s : State) : exec i s = execute i s (effectOf i s) := by
  cases i <;> rfl

/-- All that executing an instruction can do (R118). -/
theorem exec_cases (i : Instr) (s : State) :
    (∃ f, effectOf i s = .ok f ∧ transferInSlot i s = false ∧ exec i s = .next (s.commit i f)) ∨
    (∃ r, attempt i s (effectOf i s) = .error r ∧ exec i s = .next (s.takeFault (encode i) r)) := by
  rw [exec_eq_execute]; exact execute_cases i s _

/-- A completed instruction, run outside a slot or no transfer, is the commit of its effect. -/
theorem exec_of_effect {i : Instr} {s : State} {f : Effect} (h : effectOf i s = .ok f)
    (hs : transferInSlot i s = false) : exec i s = .next (s.commit i f) := by
  rw [exec_eq_execute, h, execute_ok hs]

/-- An instruction whose rule raises, run outside a slot or no transfer, takes that fault. -/
theorem exec_of_raise {i : Instr} {s : State} {r : Raise} (h : effectOf i s = .error r)
    (hs : transferInSlot i s = false) : exec i s = .next (s.takeFault (encode i) r) := by
  rw [exec_eq_execute, h, execute_error hs]

/-- An instruction that is no Branch or Jump passes the delay-slot check in every state. -/
theorem transferInSlot_other {i : Instr} (s : State) (hb : i.opClass ≠ .branch) (hj : i.opClass ≠ .jump) :
    transferInSlot i s = false := by simp [transferInSlot, hb, hj]

/-- Outside a delay slot every instruction passes the check. -/
theorem transferInSlot_normal (i : Instr) {s : State} (h : s.delay = .normal) : transferInSlot i s = false := by
  simp [transferInSlot, h]

/-! ### Effects -/

/-- A store's effect is one store of the checked width at the effective address, and nothing else (R212). -/
theorem storeEffect_ok {s : State} {rs rt : Reg} {imm : BitVec 16} {n : Width} {f : Effect}
    (h : storeEffect s rs rt imm n = .ok f) :
    ∃ ea, effectiveAddress s rs imm = .ok ea ∧ s.mem.checkWrite ea n = .ok () ∧
      f = { store := some { address := ea, width := n, value := lowBytes n (s.reg rt) } } := by
  unfold storeEffect at h
  cases ha : effectiveAddress s rs imm with
  | error r => rw [ha] at h; cases h
  | ok ea =>
    rw [ha] at h
    cases hw : s.mem.checkWrite ea n with
    | error k => simp [bind, Except.bind, hw] at h
    | ok u =>
      simp [bind, Except.bind, pure, Except.pure, hw] at h
      exact ⟨ea, rfl, hw, h.symm⟩

end Sys2Proof.Machine
end

