-- ==== Sys2Proof/Laws/Complete.lean ====
section
/-! SUPPORT. What the commit of each shape of effect leaves, in the words of Safety.lean: one lemma per shape, for every
instruction whose effect has that shape. -/

namespace Sys2Proof.Machine

/-- Committing any effect completes the step (R119, R122). -/
theorem completed_commit (s : State) (i : Instr) (f : Effect) : Completed s (s.commit i f) := by
  refine ⟨⟨fun a ha => ?_, fun ha => ?_⟩, by simp, by simp [KeepsHost]⟩
  · simp [ha]
  · cases hd : s.delay with
    | normal => simp [hd]
    | slotNotTaken => simp [hd]
    | slotTaken a => exact absurd hd (ha a)

/-- An effect with no store changes no memory (R64). -/
theorem keepsMemory_commit {f : Effect} (s : State) (i : Instr) (h : f.store = none) : KeepsMemory s (s.commit i f) := by
  have : (s.commit i f).mem = s.mem := by rw [State.commit_mem, h]
  simp [KeepsMemory, KeepsMap, this]

/-- An instruction that neither reads nor computes HI and LO counts one step (R121). -/
theorem countsStep_commit {i : Instr} (s : State) (f : Effect) (h : hiLoUse i = .other) : CountsStep s (s.commit i f) := by
  simp [CountsStep, h, nextSinceHiLoRead, nextHiloFresh, countStep]

/-- An instruction that is no transfer and takes no draw completes as an ordinary one (R119 to R122). -/
theorem ordinary_commit {i : Instr} {f : Effect} (s : State) (hu : hiLoUse i = .other) (ho : f.outcome = .none)
    (hd : f.draws = 0) : Ordinary s (s.commit i f) :=
  ⟨completed_commit s i f, by simp [ho, BranchOutcome.nextDelay], countsStep_commit s f hu, by simp [hd]⟩

/-- An instruction whose effect is one register write completes and changes only that register (R20, R21, R118). -/
theorem exec_write {i : Instr} {s : State} {rd : Reg} {v : Dword} (h : effectOf i s = .ok (.write rd v))
    (hs : transferInSlot i s = false) (hu : hiLoUse i = .other) : ∃ t, exec i s = .next t ∧ OnlyWrites s t rd v := by
  refine ⟨_, exec_of_effect h hs, fun r => ?_, ?_, keepsMemory_commit s i rfl, ordinary_commit s hu rfl rfl⟩
  · simp [Effect.write, State.reg_setReg]
  · simp [KeepsHiLo, Effect.write]

/-- A store that passes its checks completes and changes only the bytes it names (R59, R64, R212). -/
theorem exec_store {i : Instr} {s : State} {ea : Word} {n : Width} {v : Dword}
    (h : effectOf i s = .ok { store := some { address := ea, width := n, value := v } })
    (hs : transferInSlot i s = false) (hu : hiLoUse i = .other) :
    ∃ t, exec i s = .next t ∧ t.mem = s.mem.store ea.toNat n.bytes v ∧ OnlyStores s t ea.toNat n.bytes v := by
  have hm : ∀ f : Effect, f.store = some { address := ea, width := n, value := v } →
      (s.commit i f).mem = s.mem.store ea.toNat n.bytes v := fun f hf => by rw [State.commit_mem, hf]
  refine ⟨_, exec_of_effect h hs, hm _ rfl, fun r => by simp, by simp [KeepsHiLo], ordinary_commit s hu rfl rfl, ?_,
    fun b hb => ?_, fun hw k hk => ?_⟩
  · simp [KeepsMap, hm]
  · rw [hm _ rfl, Memory.byteAt_store_other _ _ hb]
  · rw [hm _ rfl, Memory.byteAt_store _ _ ((Memory.wf_iff _).1 hw).2.1 hk]

/-- A transfer that writes no register completes with its outcome pending (R117, R120, R240). -/
theorem exec_transfer {i : Instr} {s : State} {o : BranchOutcome} (h : effectOf i s = .ok { outcome := o })
    (hs : transferInSlot i s = false) (hu : hiLoUse i = .other) :
    ∃ t, exec i s = .next t ∧ KeepsRegs s t ∧ Transfers s t o.nextDelay :=
  ⟨_, exec_of_effect h hs, fun r => by simp, completed_commit s i _, by simp, countsStep_commit s _ hu, by simp,
    by simp [KeepsHiLo], keepsMemory_commit s i rfl⟩

/-- A transfer that links completes with its outcome pending and the link written (R117, R120, R242). -/
theorem exec_link {i : Instr} {s : State} {o : BranchOutcome} {rd : Reg} {v : Dword}
    (h : effectOf i s = .ok { writes := [(.x rd, v)], outcome := o })
    (hs : transferInSlot i s = false) (hu : hiLoUse i = .other) :
    ∃ t, exec i s = .next t ∧ WritesOnly s t rd v ∧ Transfers s t o.nextDelay :=
  ⟨_, exec_of_effect h hs, fun r => by simp [State.reg_setReg], completed_commit s i _, by simp,
    countsStep_commit s _ hu, by simp, by simp [KeepsHiLo], keepsMemory_commit s i rfl⟩

/-- A fault taken, in the words of Safety.lean (R118, R276). -/
theorem takeFault_eq (s : State) (w : Word) (r : Raise) : s.takeFault w r = faultedWith s r.kind (r.info w) := rfl

end Sys2Proof.Machine
end

