-- ==== Sys2Proof/Laws/Effects.lean ====
section
/-! SUPPORT. What the effect of any instruction can be: one inversion lemma over all of them, and what follows from it. -/

namespace Sys2Proof.Machine

/-- A computation that succeeds after another succeeded. -/
theorem bind_ok {α β : Type} {x : Except Raise α} {g : α → Except Raise β} {b : β} (h : (x >>= g) = .ok b) :
    ∃ a, x = .ok a ∧ g a = .ok b := by
  cases x with
  | error r => cases h
  | ok a => exact ⟨a, rfl, h⟩

/-- Passing the read check: no MFHI or MFLO within the last two steps (R190). -/
theorem hiloReadCheck_ok {s : State} {u : Unit} (h : hiloReadCheck s = .ok u) : s.sinceHiLoRead = 2 := by
  unfold hiloReadCheck at h
  split at h
  · cases h
  · apply Fin.ext; have := s.sinceHiLoRead.isLt; show _ = 2; omega

/-- Passing the overwrite check: no unread multiply or divide result (R190). -/
theorem hiloOverwriteCheck_ok {s : State} {u : Unit} (h : hiloOverwriteCheck s = .ok u) : s.hiloFresh = false := by
  unfold hiloOverwriteCheck at h
  split at h
  · cases h
  · simpa using ‹¬ s.hiloFresh = true›

/-- The shapes of effects: a register write, a multiply or divide, a division by zero, MTHI, MTLO, a store, and a
transfer without and with a link. Each with what its instruction has passed. -/
inductive EffectShape (i : Instr) (s : State) : Effect → Prop where
  | write (rd : Reg) (v : Dword) (hc : i.opClass ≠ .store ∧ i.opClass ≠ .branch ∧ i.opClass ≠ .jump)
      (hu : hiLoUse i ≠ .computes) : EffectShape i s (.write rd v)
  | hilo (hi lo : Dword) (hc : i.opClass = .arithmeticRegister) (hu : hiLoUse i = .computes)
      (hz : s.sinceHiLoRead = 2) : EffectShape i s (.hilo hi lo)
  | divByZero (hc : i.opClass = .arithmeticRegister) (hu : hiLoUse i = .computes)
      (hz : s.sinceHiLoRead = 2) : EffectShape i s (divByZero s)
  | mthi (rs : Reg) (h : i = .mthi rs) (hz : s.sinceHiLoRead = 2) (hf : s.hiloFresh = false) :
      EffectShape i s { writes := [(.hi, s.reg rs)] }
  | mtlo (rs : Reg) (h : i = .mtlo rs) (hz : s.sinceHiLoRead = 2) (hf : s.hiloFresh = false) :
      EffectShape i s { writes := [(.lo, s.reg rs)] }
  | store (ea : Word) (n : Width) (v : Dword) (hc : i.opClass = .store) (hu : hiLoUse i = .other)
      (hw : s.mem.checkWrite ea n = .ok ()) :
      EffectShape i s { store := some { address := ea, width := n, value := v } }
  | transfer (o : BranchOutcome) (ho : o ≠ .none) (hc : i.opClass = .branch ∨ i.opClass = .jump) (hu : hiLoUse i = .other) :
      EffectShape i s { outcome := o }
  | link (rd : Reg) (v : Dword) (o : BranchOutcome) (ho : o ≠ .none) (hc : i.opClass = .branch ∨ i.opClass = .jump)
      (hu : hiLoUse i = .other) : EffectShape i s { writes := [(.x rd, v)], outcome := o }

/-- A branch's outcome is taken or not taken (R240). -/
theorem branchIf_outcome (s : State) (c : Bool) (imm : BitVec 16) : (branchIf s c imm).outcome ≠ .none := by
  cases c <;> simp [branchIf]

/-- A branch that writes no register has the shape of a transfer. -/
theorem effectShape_branch {i : Instr} {s : State} {c : Bool} {imm : BitVec 16} {f : Effect}
    (h : Except.ok (branchIf s c imm) = (Except.ok f : Except Raise Effect)) (hc : i.opClass = .branch ∨ i.opClass = .jump)
    (hu : hiLoUse i = .other) : EffectShape i s f := by
  cases h
  exact .transfer (branchIf s c imm).outcome (branchIf_outcome s c imm) hc hu

/-- A branch that links has the shape of a link. -/
theorem effectShape_branchAndLink {i : Instr} {s : State} {rs : Reg} {c : Bool} {imm : BitVec 16} {f : Effect}
    (h : branchAndLink s rs c imm = .ok f) (hc : i.opClass = .branch ∨ i.opClass = .jump)
    (hu : hiLoUse i = .other) : EffectShape i s f := by
  unfold branchAndLink at h
  split at h
  · cases h
  · cases h
    exact .link linkRegister (linkValue s.pc) (branchIf s c imm).outcome (branchIf_outcome s c imm) hc hu

/-- A store has the shape of a store. -/
theorem effectShape_store {i : Instr} {s : State} {rs rt : Reg} {imm : BitVec 16} {n : Width} {f : Effect}
    (h : storeEffect s rs rt imm n = .ok f) (hc : i.opClass = .store) (hu : hiLoUse i = .other) : EffectShape i s f := by
  obtain ⟨ea, _, hw, rfl⟩ := storeEffect_ok h
  exact .store ea n _ hc hu hw

/-- Every effect has one of the shapes. -/
theorem effectShape {i : Instr} {s : State} {f : Effect} (h : effectOf i s = .ok f) : EffectShape i s f := by
  cases i
  case sll | sllv | and | or | xor | nor | slt | sltu | slti | sltiu | andi | ori | xori | lui | mfhi | mflo =>
    cases h; exact .write _ _ (by simp [Instr.opClass]) (by simp [hiLoUse])
  case srl | sra | srlv | srav | addiu | lb | lh | lw | lbu | lhu | lwu | ld =>
    obtain ⟨a, _, h⟩ := bind_ok h
    cases h; exact .write _ _ (by simp [Instr.opClass]) (by simp [hiLoUse])
  case addi | addu | subu =>
    obtain ⟨a, _, h⟩ := bind_ok h
    obtain ⟨b, _, h⟩ := bind_ok h
    cases h; exact .write _ _ (by simp [Instr.opClass]) (by simp [hiLoUse])
  case add | sub =>
    obtain ⟨a, _, h⟩ := bind_ok h
    obtain ⟨b, _, h⟩ := bind_ok h
    obtain ⟨r, _, h⟩ := bind_ok h
    cases h; exact .write _ _ (by simp [Instr.opClass]) (by simp [hiLoUse])
  case mult | multu =>
    obtain ⟨_, hz, h⟩ := bind_ok h
    obtain ⟨a, _, h⟩ := bind_ok h
    obtain ⟨b, _, h⟩ := bind_ok h
    cases h; exact .hilo _ _ rfl rfl (hiloReadCheck_ok hz)
  case div | divu =>
    obtain ⟨_, hz, h⟩ := bind_ok h
    obtain ⟨a, _, h⟩ := bind_ok h
    obtain ⟨b, _, h⟩ := bind_ok h
    split at h
    · cases h; exact .divByZero rfl rfl (hiloReadCheck_ok hz)
    · cases h; exact .hilo _ _ rfl rfl (hiloReadCheck_ok hz)
  case mthi =>
    obtain ⟨_, hz, h⟩ := bind_ok h
    obtain ⟨_, hf, h⟩ := bind_ok h
    cases h; exact .mthi _ rfl (hiloReadCheck_ok hz) (hiloOverwriteCheck_ok hf)
  case mtlo =>
    obtain ⟨_, hz, h⟩ := bind_ok h
    obtain ⟨_, hf, h⟩ := bind_ok h
    cases h; exact .mtlo _ rfl (hiloReadCheck_ok hz) (hiloOverwriteCheck_ok hf)
  case sb | sh | sw | sd => exact effectShape_store h rfl rfl
  case beq | bne | blez | bgtz | bltz | bgez => exact effectShape_branch h (.inl rfl) rfl
  case bltzal | bgezal => exact effectShape_branchAndLink h (.inl rfl) rfl
  case j => cases h; exact .transfer _ (by simp) (.inr rfl) rfl
  case jal => cases h; exact .link _ _ _ (by simp) (.inr rfl) rfl
  case jr =>
    obtain ⟨t, _, h⟩ := bind_ok h
    cases h; exact .transfer _ (by simp) (.inr rfl) rfl
  case jalr =>
    simp only [effectOf, jalrEffect] at h
    split at h
    · cases h
    · obtain ⟨t, _, h⟩ := bind_ok h
      cases h; exact .link _ _ _ (by simp) (.inr rfl) rfl

end Sys2Proof.Machine
end

