-- ==== Sys2Proof/Laws/Encode.lean ====
section
/-! SUPPORT. The fields of an encoded word, and a word put together again from its fields (R81, R82). -/

namespace Sys2Proof

section fields
variable (rs rt rd : Reg) (sa : BitVec 5) (op f : BitVec 6) (imm : BitVec 16) (t : BitVec 26)

@[simp] theorem opField_encodeR : opField (encodeR rs rt rd sa f) = 0x00#6 := by
  change (0x00#6 ++ rs ++ rt ++ rd ++ sa ++ f).extractLsb' 26 6 = _; simp only [BitVec.extractLsb'_append_eq_ite]; simp
@[simp] theorem rsField_encodeR : rsField (encodeR rs rt rd sa f) = rs := by
  change (0x00#6 ++ rs ++ rt ++ rd ++ sa ++ f).extractLsb' 21 5 = _; simp only [BitVec.extractLsb'_append_eq_ite]; simp
@[simp] theorem rtField_encodeR : rtField (encodeR rs rt rd sa f) = rt := by
  change (0x00#6 ++ rs ++ rt ++ rd ++ sa ++ f).extractLsb' 16 5 = _; simp only [BitVec.extractLsb'_append_eq_ite]; simp
@[simp] theorem rdField_encodeR : rdField (encodeR rs rt rd sa f) = rd := by
  change (0x00#6 ++ rs ++ rt ++ rd ++ sa ++ f).extractLsb' 11 5 = _; simp only [BitVec.extractLsb'_append_eq_ite]; simp
@[simp] theorem saField_encodeR : saField (encodeR rs rt rd sa f) = sa := by
  change (0x00#6 ++ rs ++ rt ++ rd ++ sa ++ f).extractLsb' 6 5 = _; simp only [BitVec.extractLsb'_append_eq_ite]; simp
@[simp] theorem functField_encodeR : functField (encodeR rs rt rd sa f) = f := by
  change (0x00#6 ++ rs ++ rt ++ rd ++ sa ++ f).extractLsb' 0 6 = _; simp only [BitVec.extractLsb'_append_eq_ite]; simp
@[simp] theorem opField_encodeI : opField (encodeI op rs rt imm) = op := by
  change (op ++ rs ++ rt ++ imm).extractLsb' 26 6 = _; simp only [BitVec.extractLsb'_append_eq_ite]; simp
@[simp] theorem rsField_encodeI : rsField (encodeI op rs rt imm) = rs := by
  change (op ++ rs ++ rt ++ imm).extractLsb' 21 5 = _; simp only [BitVec.extractLsb'_append_eq_ite]; simp
@[simp] theorem rtField_encodeI : rtField (encodeI op rs rt imm) = rt := by
  change (op ++ rs ++ rt ++ imm).extractLsb' 16 5 = _; simp only [BitVec.extractLsb'_append_eq_ite]; simp
@[simp] theorem immField_encodeI : immField (encodeI op rs rt imm) = imm := by
  change (op ++ rs ++ rt ++ imm).extractLsb' 0 16 = _; simp only [BitVec.extractLsb'_append_eq_ite]; simp
@[simp] theorem opField_encodeJ : opField (encodeJ op t) = op := by
  change (op ++ t).extractLsb' 26 6 = _; simp only [BitVec.extractLsb'_append_eq_ite]; simp
@[simp] theorem targetField_encodeJ : targetField (encodeJ op t) = t := by
  change (op ++ t).extractLsb' 0 26 = _; simp only [BitVec.extractLsb'_append_eq_ite]; simp

end fields

/-- An R-type word is its six fields. -/
theorem append_fieldsR (w : Word) : (opField w ++ rsField w ++ rtField w ++ rdField w ++ saField w ++ functField w : BitVec (6+5+5+5+5+6)) = w := by
  apply BitVec.eq_of_getLsbD_eq
  intro i hi
  simp only [opField, rsField, rtField, rdField, saField, functField, BitVec.getLsbD_append, BitVec.getLsbD_extractLsb']
  by_cases h1 : i < 6
  · simp [h1]
  by_cases h2 : i - 6 < 5
  · simp [h1, h2, show 6 + (i - 6) = i by omega]
  by_cases h3 : i - 6 - 5 < 5
  · simp [h1, h2, h3, show 11 + (i - 6 - 5) = i by omega]
  by_cases h4 : i - 6 - 5 - 5 < 5
  · simp [h1, h2, h3, h4, show 16 + (i - 6 - 5 - 5) = i by omega]
  by_cases h5 : i - 6 - 5 - 5 - 5 < 5
  · simp [h1, h2, h3, h4, h5, show 21 + (i - 6 - 5 - 5 - 5) = i by omega]
  · simp [h1, h2, h3, h4, h5, show 26 + (i - 6 - 5 - 5 - 5 - 5) = i by omega]
    omega

/-- An I-type word is its four fields. -/
theorem append_fieldsI (w : Word) : (opField w ++ rsField w ++ rtField w ++ immField w : BitVec (6+5+5+16)) = w := by
  apply BitVec.eq_of_getLsbD_eq
  intro i hi
  simp only [opField, rsField, rtField, immField, BitVec.getLsbD_append, BitVec.getLsbD_extractLsb']
  by_cases h1 : i < 16
  · simp [h1]
  by_cases h2 : i - 16 < 5
  · simp [h1, h2, show 16 + (i - 16) = i by omega]
  by_cases h3 : i - 16 - 5 < 5
  · simp [h1, h2, h3, show 21 + (i - 16 - 5) = i by omega]
  · simp [h1, h2, h3, show 26 + (i - 16 - 5 - 5) = i by omega]
    omega

/-- A J-type word is its two fields. -/
theorem append_fieldsJ (w : Word) : (opField w ++ targetField w : BitVec (6+26)) = w := by
  apply BitVec.eq_of_getLsbD_eq
  intro i hi
  simp only [opField, targetField, BitVec.getLsbD_append, BitVec.getLsbD_extractLsb']
  by_cases h1 : i < 26
  · simp [h1]
  · simp [h1, show 26 + (i - 26) = i by omega]
    omega

end Sys2Proof
end

