-- ==== Sys2Proof/Laws/Loader.lean ====
section
/-! SUPPORT. The cells of a mounted image: their bytes, their order and the canonical form of a mounted AddressSpace and
of one where a word was placed. -/

namespace Sys2Proof.Machine

/-- A cell of an image lies in the image and is not the unlisted byte. -/
theorem mem_cellsOfBytes {a : Nat} {bytes : List Byte} {c : Host.Cell} (h : c ∈ cellsOfBytes a bytes) :
    a ≤ c.1 ∧ c.1 < a + bytes.length ∧ c.2 ≠ unlistedByte := by
  induction bytes generalizing a with
  | nil => cases h
  | cons b rest ih =>
    unfold cellsOfBytes at h
    split at h
    · obtain ⟨h1, h2, h3⟩ := ih h
      exact ⟨by omega, by simp only [List.length_cons]; omega, h3⟩
    · rcases List.mem_cons.1 h with rfl | h
      · simp_all
      · obtain ⟨h1, h2, h3⟩ := ih h
        exact ⟨by omega, by simp only [List.length_cons]; omega, h3⟩

/-- The cells of an image rise. -/
theorem rising_cellsOfBytes (a : Nat) (bytes : List Byte) : Rising (cellsOfBytes a bytes) := by
  induction bytes generalizing a with
  | nil => exact List.Pairwise.nil
  | cons b rest ih =>
    unfold cellsOfBytes
    split
    · exact ih _
    · exact List.pairwise_cons.2 ⟨fun c hc => (mem_cellsOfBytes hc).1, ih _⟩

/-- The bytes of an image, read back. -/
theorem cellsGet_cellsOfBytes (a : Nat) (bytes : List Byte) {k : Nat} (h : k < bytes.length) :
    cellsGet (cellsOfBytes a bytes) (a + k) = bytes[k] := by
  induction bytes generalizing a k with
  | nil => cases h
  | cons b rest ih =>
    have below : ∀ c ∈ cellsOfBytes (a + 1) rest, a < c.1 := fun c hc => (mem_cellsOfBytes hc).1
    unfold cellsOfBytes
    cases k with
    | zero =>
      split
      · next hb => exact (cellsGet_below _ below).trans hb.symm
      · simp [cellsGet]
    | succ k =>
      have := ih (a + 1) (k := k) (by simpa using h)
      rw [show a + (k + 1) = a + 1 + k by omega]
      split
      · simpa using this
      · rw [cellsGet, if_neg (by omega), this]; rfl

/-- Outside the image nothing is listed. -/
theorem cellsGet_cellsOfBytes_outside (a : Nat) (bytes : List Byte) {b : Nat} (h : b < a ∨ a + bytes.length ≤ b) :
    cellsGet (cellsOfBytes a bytes) b = unlistedByte := by
  induction bytes generalizing a with
  | nil => rfl
  | cons c rest ih =>
    have hr := ih (a + 1) (by simp at h; omega)
    unfold cellsOfBytes
    split
    · exact hr
    · rw [cellsGet, if_neg (by simp at h; omega), hr]

/-- An AddressSpace whose map is legal is in canonical form when mounted (R311). -/
theorem wf_mountedMemory {base : Word} {size : Nat} {image : CartridgeImage}
    (h : (mountedMemory base size image).mapOk = true) : (mountedMemory base size image).wf = true := by
  rw [Memory.wf_iff]
  refine ⟨h, rising_cellsOfBytes _ _, fun c hc => (mem_cellsOfBytes hc).2.2, fun c hc => ?_⟩
  have hm := mem_cellsOfBytes (a := cartridgeBase) (bytes := image.bytes) hc
  refine Memory.regionOf_isSome_of (g := (mountedMemory base size image).cartridge) ?_ hm.1 ?_
  · have : (mountedMemory base size image).cartLength ≠ 0 := by
      show image.bytes.length ≠ 0
      omega
    unfold Memory.regions
    rw [if_neg this]
    split <;> simp
  · show c.1 + 1 ≤ cartridgeBase + image.bytes.length
    omega

/-- All that `mount` can do (R311). -/
theorem mount_cases (base : Word) (size : Nat) (image : CartridgeImage) :
    (mount base size image = .next (mountedMemory base size image) ∧ (mountedMemory base size image).mapOk = true) ∨
    (mount base size image = .refused .mountRefused ∧ (mountedMemory base size image).mapOk = false) := by
  unfold mount
  cases h : (mountedMemory base size image).mapOk <;> simp

/-- The AddressSpace of `State.reset` is in canonical form. -/
theorem wf_empty : Memory.empty.wf = true := by decide

/-- Making the cartridge reach an address keeps every mapped byte mapped. -/
theorem mapped_reaching {m : Memory} {a b : Nat} (h : m.mapped b = true) : (m.reaching a).mapped b = true := by
  unfold Memory.reaching
  split
  · exact h
  · next hn =>
    split
    · next ha =>
      obtain ⟨g, hg⟩ := Option.isSome_iff_exists.1 h
      obtain ⟨hm, h1, h2⟩ := Memory.regionOf_spec hg
      rcases (Memory.mem_regions_iff m g).1 hm with rfl | ⟨hc, rfl⟩
      · exact Memory.regionOf_isSome_of (g := m.rdram)
          ((Memory.mem_regions_iff _ _).2 (.inl (by simp only [Memory.rdram]))) h1 h2
      · simp only [Memory.cartridge] at h1 h2
        have hlt : ¬ a + 4 ≤ cartridgeBase + m.cartLength := fun hle =>
          hn (Memory.regionOf_isSome_of (g := m.cartridge) ((Memory.mem_regions_iff _ _).2 (.inr ⟨hc, rfl⟩))
            (by simpa only [Memory.cartridge] using ha) (by simpa only [Memory.cartridge] using hle))
        refine Memory.regionOf_isSome_of ((Memory.mem_regions_iff _ _).2 (.inr ⟨?_, rfl⟩)) ?_ ?_ <;>
          simp only [Memory.cartridge] <;> omega
    · exact h

/-- Placing a word keeps the canonical form, wherever the map it needs is legal. -/
theorem wf_placeWord {m : Memory} {a : Nat} (w : Word) (h : m.wf = true) (hm : (m.reaching a).mapOk = true) :
    (m.placeWord a w).wf = true := by
  unfold Memory.placeWord
  split
  · next hr =>
    obtain ⟨g, hg⟩ := Option.isSome_iff_exists.1 hr
    obtain ⟨_, h2, h3, h4⟩ := (Memory.wf_iff m).1 h
    have hcells : (m.reaching a).cells = m.cells := by
      unfold Memory.reaching
      split
      · rfl
      · split <;> rfl
    refine Memory.wf_store _ ((Memory.wf_iff _).2 ⟨hm, by rw [hcells]; exact h2, by rw [hcells]; exact h3, ?_⟩)
      (fun k hk => Memory.mapped_of_regionOf hg hk)
    rw [hcells]
    exact fun c hc => mapped_reaching (h4 c hc)
  · exact h

end Sys2Proof.Machine
end

