-- ==== Sys2Proof/Laws/PerInstr.lean ====
section
/-! SUPPORT. The family MatchesRow: the word of every instruction is one that the opcode table's row of its mnemonic
matches, with every must-be-zero field of the row's mask zero (R82, R91). -/

namespace Sys2Proof.Laws

/-- A word of each format under a mask, field by field. -/
theorem encodeR_and (rs rt rd sa : BitVec 5) (f : BitVec 6) (m1 m2 m3 m4 : BitVec 5) (m5 : BitVec 6) :
    encodeR rs rt rd sa f &&& (0x3F#6 ++ m1 ++ m2 ++ m3 ++ m4 ++ m5 : BitVec 32) =
    encodeR (rs &&& m1) (rt &&& m2) (rd &&& m3) (sa &&& m4) (f &&& m5) := by
  change (0x00#6 ++ rs ++ rt ++ rd ++ sa ++ f) &&& (0x3F#6 ++ m1 ++ m2 ++ m3 ++ m4 ++ m5) = _
  simp only [BitVec.and_append]
  rfl

theorem encodeI_and (op : BitVec 6) (rs rt : BitVec 5) (imm : BitVec 16) (m0 : BitVec 6) (m1 m2 : BitVec 5)
    (m3 : BitVec 16) : encodeI op rs rt imm &&& (m0 ++ m1 ++ m2 ++ m3 : BitVec 32) =
    encodeI (op &&& m0) (rs &&& m1) (rt &&& m2) (imm &&& m3) := by
  change (op ++ rs ++ rt ++ imm) &&& (m0 ++ m1 ++ m2 ++ m3) = _
  simp only [BitVec.and_append]
  rfl

theorem encodeJ_and (op : BitVec 6) (t : BitVec 26) (m0 : BitVec 6) (m1 : BitVec 26) :
    encodeJ op t &&& (m0 ++ m1 : BitVec 32) = encodeJ (op &&& m0) (t &&& m1) := by
  change (op ++ t) &&& (m0 ++ m1) = _
  simp only [BitVec.and_append]
  rfl

namespace MatchesRow

/-- The row of the mnemonic is in the table and matches the encoded word. -/
def Statement (i : Instr) : Prop := ∃ r ∈ opcodeRows, r.mnemonic = i.mnemonic ∧ encode i &&& r.mask = r.pattern

theorem sll (rt rd : Reg) (sa : BitVec 5) : Statement (.sll rt rd sa) :=
  ⟨⟨"SLL", 0x00000000#32, 0xFFE0003F#32⟩, by decide, rfl, (encodeR_and _ _ _ _ _ 0x1f#5 0x0#5 0x0#5 0x0#5 0x3f#6).trans (by simp; rfl)⟩
theorem srl (rt rd : Reg) (sa : BitVec 5) : Statement (.srl rt rd sa) :=
  ⟨⟨"SRL", 0x00000002#32, 0xFFE0003F#32⟩, by decide, rfl, (encodeR_and _ _ _ _ _ 0x1f#5 0x0#5 0x0#5 0x0#5 0x3f#6).trans (by simp; rfl)⟩
theorem sra (rt rd : Reg) (sa : BitVec 5) : Statement (.sra rt rd sa) :=
  ⟨⟨"SRA", 0x00000003#32, 0xFFE0003F#32⟩, by decide, rfl, (encodeR_and _ _ _ _ _ 0x1f#5 0x0#5 0x0#5 0x0#5 0x3f#6).trans (by simp; rfl)⟩
theorem sllv (rs rt rd : Reg) : Statement (.sllv rs rt rd) :=
  ⟨⟨"SLLV", 0x00000004#32, 0xFC0007FF#32⟩, by decide, rfl, (encodeR_and _ _ _ _ _ 0x0#5 0x0#5 0x0#5 0x1f#5 0x3f#6).trans (by simp; rfl)⟩
theorem srlv (rs rt rd : Reg) : Statement (.srlv rs rt rd) :=
  ⟨⟨"SRLV", 0x00000006#32, 0xFC0007FF#32⟩, by decide, rfl, (encodeR_and _ _ _ _ _ 0x0#5 0x0#5 0x0#5 0x1f#5 0x3f#6).trans (by simp; rfl)⟩
theorem srav (rs rt rd : Reg) : Statement (.srav rs rt rd) :=
  ⟨⟨"SRAV", 0x00000007#32, 0xFC0007FF#32⟩, by decide, rfl, (encodeR_and _ _ _ _ _ 0x0#5 0x0#5 0x0#5 0x1f#5 0x3f#6).trans (by simp; rfl)⟩
theorem jr (rs : Reg) : Statement (.jr rs) :=
  ⟨⟨"JR", 0x00000008#32, 0xFC1FFFFF#32⟩, by decide, rfl, (encodeR_and _ _ _ _ _ 0x0#5 0x1f#5 0x1f#5 0x1f#5 0x3f#6).trans (by simp; rfl)⟩
theorem jalr (rs rd : Reg) : Statement (.jalr rs rd) :=
  ⟨⟨"JALR", 0x00000009#32, 0xFC1F07FF#32⟩, by decide, rfl, (encodeR_and _ _ _ _ _ 0x0#5 0x1f#5 0x0#5 0x1f#5 0x3f#6).trans (by simp; rfl)⟩
theorem mfhi (rd : Reg) : Statement (.mfhi rd) :=
  ⟨⟨"MFHI", 0x00000010#32, 0xFFFF07FF#32⟩, by decide, rfl, (encodeR_and _ _ _ _ _ 0x1f#5 0x1f#5 0x0#5 0x1f#5 0x3f#6).trans (by simp; rfl)⟩
theorem mthi (rs : Reg) : Statement (.mthi rs) :=
  ⟨⟨"MTHI", 0x00000011#32, 0xFC1FFFFF#32⟩, by decide, rfl, (encodeR_and _ _ _ _ _ 0x0#5 0x1f#5 0x1f#5 0x1f#5 0x3f#6).trans (by simp; rfl)⟩
theorem mflo (rd : Reg) : Statement (.mflo rd) :=
  ⟨⟨"MFLO", 0x00000012#32, 0xFFFF07FF#32⟩, by decide, rfl, (encodeR_and _ _ _ _ _ 0x1f#5 0x1f#5 0x0#5 0x1f#5 0x3f#6).trans (by simp; rfl)⟩
theorem mtlo (rs : Reg) : Statement (.mtlo rs) :=
  ⟨⟨"MTLO", 0x00000013#32, 0xFC1FFFFF#32⟩, by decide, rfl, (encodeR_and _ _ _ _ _ 0x0#5 0x1f#5 0x1f#5 0x1f#5 0x3f#6).trans (by simp; rfl)⟩
theorem mult (rs rt : Reg) : Statement (.mult rs rt) :=
  ⟨⟨"MULT", 0x00000018#32, 0xFC00FFFF#32⟩, by decide, rfl, (encodeR_and _ _ _ _ _ 0x0#5 0x0#5 0x1f#5 0x1f#5 0x3f#6).trans (by simp; rfl)⟩
theorem multu (rs rt : Reg) : Statement (.multu rs rt) :=
  ⟨⟨"MULTU", 0x00000019#32, 0xFC00FFFF#32⟩, by decide, rfl, (encodeR_and _ _ _ _ _ 0x0#5 0x0#5 0x1f#5 0x1f#5 0x3f#6).trans (by simp; rfl)⟩
theorem div (rs rt : Reg) : Statement (.div rs rt) :=
  ⟨⟨"DIV", 0x0000001A#32, 0xFC00FFFF#32⟩, by decide, rfl, (encodeR_and _ _ _ _ _ 0x0#5 0x0#5 0x1f#5 0x1f#5 0x3f#6).trans (by simp; rfl)⟩
theorem divu (rs rt : Reg) : Statement (.divu rs rt) :=
  ⟨⟨"DIVU", 0x0000001B#32, 0xFC00FFFF#32⟩, by decide, rfl, (encodeR_and _ _ _ _ _ 0x0#5 0x0#5 0x1f#5 0x1f#5 0x3f#6).trans (by simp; rfl)⟩
theorem add (rs rt rd : Reg) : Statement (.add rs rt rd) :=
  ⟨⟨"ADD", 0x00000020#32, 0xFC0007FF#32⟩, by decide, rfl, (encodeR_and _ _ _ _ _ 0x0#5 0x0#5 0x0#5 0x1f#5 0x3f#6).trans (by simp; rfl)⟩
theorem addu (rs rt rd : Reg) : Statement (.addu rs rt rd) :=
  ⟨⟨"ADDU", 0x00000021#32, 0xFC0007FF#32⟩, by decide, rfl, (encodeR_and _ _ _ _ _ 0x0#5 0x0#5 0x0#5 0x1f#5 0x3f#6).trans (by simp; rfl)⟩
theorem sub (rs rt rd : Reg) : Statement (.sub rs rt rd) :=
  ⟨⟨"SUB", 0x00000022#32, 0xFC0007FF#32⟩, by decide, rfl, (encodeR_and _ _ _ _ _ 0x0#5 0x0#5 0x0#5 0x1f#5 0x3f#6).trans (by simp; rfl)⟩
theorem subu (rs rt rd : Reg) : Statement (.subu rs rt rd) :=
  ⟨⟨"SUBU", 0x00000023#32, 0xFC0007FF#32⟩, by decide, rfl, (encodeR_and _ _ _ _ _ 0x0#5 0x0#5 0x0#5 0x1f#5 0x3f#6).trans (by simp; rfl)⟩
theorem and (rs rt rd : Reg) : Statement (.and rs rt rd) :=
  ⟨⟨"AND", 0x00000024#32, 0xFC0007FF#32⟩, by decide, rfl, (encodeR_and _ _ _ _ _ 0x0#5 0x0#5 0x0#5 0x1f#5 0x3f#6).trans (by simp; rfl)⟩
theorem or (rs rt rd : Reg) : Statement (.or rs rt rd) :=
  ⟨⟨"OR", 0x00000025#32, 0xFC0007FF#32⟩, by decide, rfl, (encodeR_and _ _ _ _ _ 0x0#5 0x0#5 0x0#5 0x1f#5 0x3f#6).trans (by simp; rfl)⟩
theorem xor (rs rt rd : Reg) : Statement (.xor rs rt rd) :=
  ⟨⟨"XOR", 0x00000026#32, 0xFC0007FF#32⟩, by decide, rfl, (encodeR_and _ _ _ _ _ 0x0#5 0x0#5 0x0#5 0x1f#5 0x3f#6).trans (by simp; rfl)⟩
theorem nor (rs rt rd : Reg) : Statement (.nor rs rt rd) :=
  ⟨⟨"NOR", 0x00000027#32, 0xFC0007FF#32⟩, by decide, rfl, (encodeR_and _ _ _ _ _ 0x0#5 0x0#5 0x0#5 0x1f#5 0x3f#6).trans (by simp; rfl)⟩
theorem slt (rs rt rd : Reg) : Statement (.slt rs rt rd) :=
  ⟨⟨"SLT", 0x0000002A#32, 0xFC0007FF#32⟩, by decide, rfl, (encodeR_and _ _ _ _ _ 0x0#5 0x0#5 0x0#5 0x1f#5 0x3f#6).trans (by simp; rfl)⟩
theorem sltu (rs rt rd : Reg) : Statement (.sltu rs rt rd) :=
  ⟨⟨"SLTU", 0x0000002B#32, 0xFC0007FF#32⟩, by decide, rfl, (encodeR_and _ _ _ _ _ 0x0#5 0x0#5 0x0#5 0x1f#5 0x3f#6).trans (by simp; rfl)⟩
theorem bltz (rs : Reg) (imm : BitVec 16) : Statement (.bltz rs imm) :=
  ⟨⟨"BLTZ", 0x04000000#32, 0xFC1F0000#32⟩, by decide, rfl, (encodeI_and _ _ _ _ 0x3f#6 0x0#5 0x1f#5 0x0#16).trans (by simp; rfl)⟩
theorem bgez (rs : Reg) (imm : BitVec 16) : Statement (.bgez rs imm) :=
  ⟨⟨"BGEZ", 0x04010000#32, 0xFC1F0000#32⟩, by decide, rfl, (encodeI_and _ _ _ _ 0x3f#6 0x0#5 0x1f#5 0x0#16).trans (by simp; rfl)⟩
theorem bltzal (rs : Reg) (imm : BitVec 16) : Statement (.bltzal rs imm) :=
  ⟨⟨"BLTZAL", 0x04100000#32, 0xFC1F0000#32⟩, by decide, rfl, (encodeI_and _ _ _ _ 0x3f#6 0x0#5 0x1f#5 0x0#16).trans (by simp; rfl)⟩
theorem bgezal (rs : Reg) (imm : BitVec 16) : Statement (.bgezal rs imm) :=
  ⟨⟨"BGEZAL", 0x04110000#32, 0xFC1F0000#32⟩, by decide, rfl, (encodeI_and _ _ _ _ 0x3f#6 0x0#5 0x1f#5 0x0#16).trans (by simp; rfl)⟩
theorem j (target : BitVec 26) : Statement (.j target) :=
  ⟨⟨"J", 0x08000000#32, 0xFC000000#32⟩, by decide, rfl, (encodeJ_and _ _ 0x3f#6 0x0#26).trans (by simp; rfl)⟩
theorem jal (target : BitVec 26) : Statement (.jal target) :=
  ⟨⟨"JAL", 0x0C000000#32, 0xFC000000#32⟩, by decide, rfl, (encodeJ_and _ _ 0x3f#6 0x0#26).trans (by simp; rfl)⟩
theorem beq (rs rt : Reg) (imm : BitVec 16) : Statement (.beq rs rt imm) :=
  ⟨⟨"BEQ", 0x10000000#32, 0xFC000000#32⟩, by decide, rfl, (encodeI_and _ _ _ _ 0x3f#6 0x0#5 0x0#5 0x0#16).trans (by simp; rfl)⟩
theorem bne (rs rt : Reg) (imm : BitVec 16) : Statement (.bne rs rt imm) :=
  ⟨⟨"BNE", 0x14000000#32, 0xFC000000#32⟩, by decide, rfl, (encodeI_and _ _ _ _ 0x3f#6 0x0#5 0x0#5 0x0#16).trans (by simp; rfl)⟩
theorem blez (rs : Reg) (imm : BitVec 16) : Statement (.blez rs imm) :=
  ⟨⟨"BLEZ", 0x18000000#32, 0xFC1F0000#32⟩, by decide, rfl, (encodeI_and _ _ _ _ 0x3f#6 0x0#5 0x1f#5 0x0#16).trans (by simp; rfl)⟩
theorem bgtz (rs : Reg) (imm : BitVec 16) : Statement (.bgtz rs imm) :=
  ⟨⟨"BGTZ", 0x1C000000#32, 0xFC1F0000#32⟩, by decide, rfl, (encodeI_and _ _ _ _ 0x3f#6 0x0#5 0x1f#5 0x0#16).trans (by simp; rfl)⟩
theorem addi (rs rt : Reg) (imm : BitVec 16) : Statement (.addi rs rt imm) :=
  ⟨⟨"ADDI", 0x20000000#32, 0xFC000000#32⟩, by decide, rfl, (encodeI_and _ _ _ _ 0x3f#6 0x0#5 0x0#5 0x0#16).trans (by simp; rfl)⟩
theorem addiu (rs rt : Reg) (imm : BitVec 16) : Statement (.addiu rs rt imm) :=
  ⟨⟨"ADDIU", 0x24000000#32, 0xFC000000#32⟩, by decide, rfl, (encodeI_and _ _ _ _ 0x3f#6 0x0#5 0x0#5 0x0#16).trans (by simp; rfl)⟩
theorem slti (rs rt : Reg) (imm : BitVec 16) : Statement (.slti rs rt imm) :=
  ⟨⟨"SLTI", 0x28000000#32, 0xFC000000#32⟩, by decide, rfl, (encodeI_and _ _ _ _ 0x3f#6 0x0#5 0x0#5 0x0#16).trans (by simp; rfl)⟩
theorem sltiu (rs rt : Reg) (imm : BitVec 16) : Statement (.sltiu rs rt imm) :=
  ⟨⟨"SLTIU", 0x2C000000#32, 0xFC000000#32⟩, by decide, rfl, (encodeI_and _ _ _ _ 0x3f#6 0x0#5 0x0#5 0x0#16).trans (by simp; rfl)⟩
theorem andi (rs rt : Reg) (imm : BitVec 16) : Statement (.andi rs rt imm) :=
  ⟨⟨"ANDI", 0x30000000#32, 0xFC000000#32⟩, by decide, rfl, (encodeI_and _ _ _ _ 0x3f#6 0x0#5 0x0#5 0x0#16).trans (by simp; rfl)⟩
theorem ori (rs rt : Reg) (imm : BitVec 16) : Statement (.ori rs rt imm) :=
  ⟨⟨"ORI", 0x34000000#32, 0xFC000000#32⟩, by decide, rfl, (encodeI_and _ _ _ _ 0x3f#6 0x0#5 0x0#5 0x0#16).trans (by simp; rfl)⟩
theorem xori (rs rt : Reg) (imm : BitVec 16) : Statement (.xori rs rt imm) :=
  ⟨⟨"XORI", 0x38000000#32, 0xFC000000#32⟩, by decide, rfl, (encodeI_and _ _ _ _ 0x3f#6 0x0#5 0x0#5 0x0#16).trans (by simp; rfl)⟩
theorem lui (rt : Reg) (imm : BitVec 16) : Statement (.lui rt imm) :=
  ⟨⟨"LUI", 0x3C000000#32, 0xFFE00000#32⟩, by decide, rfl, (encodeI_and _ _ _ _ 0x3f#6 0x1f#5 0x0#5 0x0#16).trans (by simp; rfl)⟩
theorem lb (rs rt : Reg) (imm : BitVec 16) : Statement (.lb rs rt imm) :=
  ⟨⟨"LB", 0x80000000#32, 0xFC000000#32⟩, by decide, rfl, (encodeI_and _ _ _ _ 0x3f#6 0x0#5 0x0#5 0x0#16).trans (by simp; rfl)⟩
theorem lh (rs rt : Reg) (imm : BitVec 16) : Statement (.lh rs rt imm) :=
  ⟨⟨"LH", 0x84000000#32, 0xFC000000#32⟩, by decide, rfl, (encodeI_and _ _ _ _ 0x3f#6 0x0#5 0x0#5 0x0#16).trans (by simp; rfl)⟩
theorem lw (rs rt : Reg) (imm : BitVec 16) : Statement (.lw rs rt imm) :=
  ⟨⟨"LW", 0x8C000000#32, 0xFC000000#32⟩, by decide, rfl, (encodeI_and _ _ _ _ 0x3f#6 0x0#5 0x0#5 0x0#16).trans (by simp; rfl)⟩
theorem lbu (rs rt : Reg) (imm : BitVec 16) : Statement (.lbu rs rt imm) :=
  ⟨⟨"LBU", 0x90000000#32, 0xFC000000#32⟩, by decide, rfl, (encodeI_and _ _ _ _ 0x3f#6 0x0#5 0x0#5 0x0#16).trans (by simp; rfl)⟩
theorem lhu (rs rt : Reg) (imm : BitVec 16) : Statement (.lhu rs rt imm) :=
  ⟨⟨"LHU", 0x94000000#32, 0xFC000000#32⟩, by decide, rfl, (encodeI_and _ _ _ _ 0x3f#6 0x0#5 0x0#5 0x0#16).trans (by simp; rfl)⟩
theorem lwu (rs rt : Reg) (imm : BitVec 16) : Statement (.lwu rs rt imm) :=
  ⟨⟨"LWU", 0x9C000000#32, 0xFC000000#32⟩, by decide, rfl, (encodeI_and _ _ _ _ 0x3f#6 0x0#5 0x0#5 0x0#16).trans (by simp; rfl)⟩
theorem sb (rs rt : Reg) (imm : BitVec 16) : Statement (.sb rs rt imm) :=
  ⟨⟨"SB", 0xA0000000#32, 0xFC000000#32⟩, by decide, rfl, (encodeI_and _ _ _ _ 0x3f#6 0x0#5 0x0#5 0x0#16).trans (by simp; rfl)⟩
theorem sh (rs rt : Reg) (imm : BitVec 16) : Statement (.sh rs rt imm) :=
  ⟨⟨"SH", 0xA4000000#32, 0xFC000000#32⟩, by decide, rfl, (encodeI_and _ _ _ _ 0x3f#6 0x0#5 0x0#5 0x0#16).trans (by simp; rfl)⟩
theorem sw (rs rt : Reg) (imm : BitVec 16) : Statement (.sw rs rt imm) :=
  ⟨⟨"SW", 0xAC000000#32, 0xFC000000#32⟩, by decide, rfl, (encodeI_and _ _ _ _ 0x3f#6 0x0#5 0x0#5 0x0#16).trans (by simp; rfl)⟩
theorem ld (rs rt : Reg) (imm : BitVec 16) : Statement (.ld rs rt imm) :=
  ⟨⟨"LD", 0xDC000000#32, 0xFC000000#32⟩, by decide, rfl, (encodeI_and _ _ _ _ 0x3f#6 0x0#5 0x0#5 0x0#16).trans (by simp; rfl)⟩
theorem sd (rs rt : Reg) (imm : BitVec 16) : Statement (.sd rs rt imm) :=
  ⟨⟨"SD", 0xFC000000#32, 0xFC000000#32⟩, by decide, rfl, (encodeI_and _ _ _ _ 0x3f#6 0x0#5 0x0#5 0x0#16).trans (by simp; rfl)⟩

end MatchesRow

end Sys2Proof.Laws
end

