-- ==== Sys2Proof/Laws/Step.lean ====
section
/-! SUPPORT. All that one step can do, said once, and the fetch it makes. -/

namespace Sys2Proof.Machine

/-- All that a fetch can do (R113). -/
theorem fetch_cases (s : State) :
    (fetch s = .error (.access .misaligned s.pc) ∧ s.pc.toNat % 4 ≠ 0) ∨
    (fetch s = .error (.access .unmapped s.pc) ∧ s.pc.toNat % 4 = 0 ∧ s.mem.regionOf s.pc.toNat 4 = none) ∨
    (fetch s = .ok (s.mem.byteAt s.pc.toNat ++ s.mem.byteAt (s.pc.toNat + 1) ++ s.mem.byteAt (s.pc.toNat + 2) ++
        s.mem.byteAt (s.pc.toNat + 3)) ∧ s.pc.toNat % 4 = 0 ∧ (s.mem.regionOf s.pc.toNat 4).isSome = true) := by
  rcases s.mem.read_cases s.pc .b4 with ⟨h, h1⟩ | ⟨h, h1, h2⟩ | ⟨g, h, h1, h2⟩
  · exact .inl ⟨by simp [fetch, h, bind, Except.bind], h1⟩
  · exact .inr (.inl ⟨by simp [fetch, h, bind, Except.bind], h1, h2⟩)
  · refine .inr (.inr ⟨?_, h1, by rw [show (4 : Nat) = Width.b4.bytes from rfl, h2]; rfl⟩)
    simp only [fetch, h, bind, Except.bind, accessAt_ok, pure, Except.pure, Width.bytes, Memory.load_four]
    congr 1
    unfold low32
    apply BitVec.eq_of_getLsbD_eq
    intro i hi
    simp [hi]
    omega

/-- Reaching the fetch (R111, R112). -/
theorem plan_of_fetches {s : State} (h : Fetches s) : plan s = planFetch s := by
  obtain ⟨h1 | h1, h2⟩ := h <;> simp [plan, h1, h2]

/-- A stopped status plans nothing (R111). -/
theorem plan_of_final {s : State} (h : s.status = .faulted ∨ s.status = .halted) : plan s = .stopped := by
  rcases h with h | h <;> simp [plan, h]

/-- A pending stop request is taken first (R112). -/
theorem plan_of_stop {s : State} (h : s.status = .ready ∨ s.status = .running) (hs : s.stopRequest = true) :
    plan s = .halt := by rcases h with h | h <;> simp [plan, h, hs]

/-- The plan of a step whose word is fetched (R113 to R115). -/
theorem plan_of_word {s : State} {w : Word} (h : FetchesWord s w) : plan s = planWord s.cfg w := by
  obtain ⟨hf, h0, hm, rfl⟩ := h
  rw [plan_of_fetches hf, planFetch]
  rcases fetch_cases s with ⟨_, h1⟩ | ⟨_, _, h1⟩ | ⟨h1, _⟩
  · exact absurd h0 h1
  · rw [h1] at hm; cases hm
  · rw [h1]

/-- A step is decided by its plan (R123). -/
theorem step_eq (s : State) : step s = match plan s with
    | .stopped => .next s
    | .halt => .next s.takeStop
    | .raise w r => .next (s.takeFault w r)
    | .skip _ => .next s.skipWord
    | .run i => exec i s := rfl

/-- All that one step can do (R123). -/
theorem step_cases (s : State) :
    ((s.status = .faulted ∨ s.status = .halted) ∧ step s = .next s) ∨
    ((s.status = .ready ∨ s.status = .running) ∧ s.stopRequest = true ∧ step s = .next s.takeStop) ∨
    (∃ w r, Fetches s ∧ step s = .next (s.takeFault w r)) ∨
    (∃ w c u, FetchesWord s w ∧ decode w = .unknown c u ∧ s.cfg.unknownPolicy = .skip ∧ step s = .next s.skipWord) ∨
    (∃ w i, FetchesWord s w ∧ decode w = .known i ∧ step s = exec i s) := by
  have fetches : Fetches s → (∃ w r, Fetches s ∧ step s = .next (s.takeFault w r)) ∨
      (∃ w c u, FetchesWord s w ∧ decode w = .unknown c u ∧ s.cfg.unknownPolicy = .skip ∧ step s = .next s.skipWord) ∨
      (∃ w i, FetchesWord s w ∧ decode w = .known i ∧ step s = exec i s) := by
    intro h
    have hp := plan_of_fetches h
    rcases fetch_cases s with ⟨h1, _⟩ | ⟨h1, _⟩ | ⟨_, h2, h3⟩
    · exact .inl ⟨s.pc, .access .misaligned s.pc, h, by simp [step_eq, hp, planFetch, h1]⟩
    · exact .inl ⟨s.pc, .access .unmapped s.pc, h, by simp [step_eq, hp, planFetch, h1]⟩
    · obtain ⟨w, hw⟩ : ∃ w, FetchesWord s w := ⟨_, h, h2, h3, rfl⟩
      have hpw := plan_of_word hw
      cases hd : decode w with
      | known i => exact .inr (.inr ⟨w, i, hw, hd, by simp [step_eq, hpw, planWord, hd]⟩)
      | unknown c u =>
        cases hu : s.cfg.unknownPolicy with
        | fatal => exact .inl ⟨u, .decodeUnknown, h, by simp [step_eq, hpw, planWord, hd, hu]⟩
        | skip => exact .inr (.inl ⟨w, c, u, hw, hd, rfl, by simp [step_eq, hpw, planWord, hd, hu]⟩)
  have guards : (s.status = .ready ∨ s.status = .running) →
      (s.stopRequest = true ∧ step s = .next s.takeStop) ∨ Fetches s := by
    intro h
    cases hs : s.stopRequest with
    | false => exact .inr ⟨h, hs⟩
    | true => exact .inl ⟨rfl, by simp [step_eq, plan_of_stop h hs]⟩
  cases hst : s.status with
  | faulted => exact .inl ⟨.inl rfl, by simp [step_eq, plan_of_final (.inl hst)]⟩
  | halted => exact .inl ⟨.inr rfl, by simp [step_eq, plan_of_final (.inr hst)]⟩
  | ready =>
    rcases guards (.inl hst) with h | h
    · exact .inr (.inl ⟨.inl rfl, h⟩)
    · exact .inr (.inr (fetches h))
  | running =>
    rcases guards (.inr hst) with h | h
    · exact .inr (.inl ⟨.inr rfl, h⟩)
    · exact .inr (.inr (fetches h))

end Sys2Proof.Machine
end

