-- ==== Sys2Proof/Machine/Assembly.lean ====
section
/-! DEFINITION. The assembler syntax (30_encoding.md rules R98 to R100): the operands of an instruction in the order
they are written, the pseudo-instructions, and the conventional register names. No step depends on any of it. -/

namespace Sys2Proof.Machine

/-- An operand as assembly writes it (R98). -/
inductive AsmOperand where
  /-- a register, `rN` -/
  | reg (r : Reg)
  /-- an immediate, a shift amount, or a branch offset in words from the delay slot -/
  | number (v : Int)
  /-- `offset(rs)` -/
  | offsetBase (offset : Int) (r : Reg)
  /-- the 32-bit destination of J or JAL -/
  | address (a : Word)
  deriving DecidableEq, Repr

/-- The operands of an instruction at the address `pc`, in the order of the form table of R98. Logical immediates and
the one of LUI are written unsigned, the others signed, as the rules of 41_arith_immediate.md read them. -/
def asmOperands (pc : Word) : Instr → List AsmOperand
  | .sll rt rd sa | .srl rt rd sa | .sra rt rd sa => [.reg rd, .reg rt, .number sa.toNat]
  | .sllv rs rt rd | .srlv rs rt rd | .srav rs rt rd => [.reg rd, .reg rt, .reg rs]
  | .jr rs => [.reg rs]
  | .jalr rs rd => [.reg rd, .reg rs]
  | .mfhi rd | .mflo rd => [.reg rd]
  | .mthi rs | .mtlo rs => [.reg rs]
  | .mult rs rt | .multu rs rt | .div rs rt | .divu rs rt => [.reg rs, .reg rt]
  | .add rs rt rd | .addu rs rt rd | .sub rs rt rd | .subu rs rt rd => [.reg rd, .reg rs, .reg rt]
  | .and rs rt rd | .or rs rt rd | .xor rs rt rd | .nor rs rt rd => [.reg rd, .reg rs, .reg rt]
  | .slt rs rt rd | .sltu rs rt rd => [.reg rd, .reg rs, .reg rt]
  | .bltz rs imm | .bgez rs imm | .bltzal rs imm | .bgezal rs imm => [.reg rs, .number imm.toInt]
  | .j target | .jal target => [.address (jumpTarget pc target)]
  | .beq rs rt imm | .bne rs rt imm => [.reg rs, .reg rt, .number imm.toInt]
  | .blez rs imm | .bgtz rs imm => [.reg rs, .number imm.toInt]
  | .addi rs rt imm | .addiu rs rt imm | .slti rs rt imm | .sltiu rs rt imm => [.reg rt, .reg rs, .number imm.toInt]
  | .andi rs rt imm | .ori rs rt imm | .xori rs rt imm => [.reg rt, .reg rs, .number imm.toNat]
  | .lui rt imm => [.reg rt, .number imm.toNat]
  | .lb rs rt imm | .lh rs rt imm | .lw rs rt imm | .lbu rs rt imm | .lhu rs rt imm | .lwu rs rt imm | .ld rs rt imm =>
    [.reg rt, .offsetBase imm.toInt rs]
  | .sb rs rt imm | .sh rs rt imm | .sw rs rt imm | .sd rs rt imm => [.reg rt, .offsetBase imm.toInt rs]

/-- A number in decimal. -/
def asmNumber : Int → String
  | .ofNat n => n.repr
  | .negSucc n => "-" ++ (n + 1).repr

/-- An operand as text. -/
def AsmOperand.text : AsmOperand → String
  | .reg r => "r" ++ r.toNat.repr
  | .number v => asmNumber v
  | .offsetBase v r => asmNumber v ++ "(r" ++ r.toNat.repr ++ ")"
  | .address a => a.toNat.repr

/-- Operands separated by commas. -/
def asmList : List AsmOperand → String
  | [] => ""
  | [o] => o.text
  | o :: rest => o.text ++ ", " ++ asmList rest

/-- An instruction as assembly writes it, the mnemonic in upper case (R98). -/
def assembly (pc : Word) (i : Instr) : String := i.mnemonic ++ " " ++ asmList (asmOperands pc i)

/-- The pseudo-instructions (R99). A branch offset is the field value, as in R98. -/
inductive Pseudo where
  | nop
  | move (rd rs : Reg)
  | li (rt : Reg) (value : Int)
  | la (rt : Reg) (address : Word)
  | b (offset : BitVec 16)
  | bal (offset : BitVec 16)
  | beqz (rs : Reg) (offset : BitVec 16)
  | bnez (rs : Reg) (offset : BitVec 16)
  | neg (rd rs : Reg)
  | negu (rd rs : Reg)
  | not (rd rs : Reg)
  deriving DecidableEq, Repr

/-- A 32-bit constant by LUI and ORI (R99). -/
def loadConstant (rt : Reg) (v : Word) : List Instr :=
  [.lui rt (v.extractLsb' 16 16), .ori rt rt (v.extractLsb' 0 16)]

/-- What a pseudo-instruction expands to (R99). Where two rows for LI apply, the first is taken. -/
def Pseudo.expand : Pseudo → List Instr
  | .nop => [.sll 0#5 0#5 0#5]
  | .move rd rs => [.addu rs 0#5 rd]
  | .li rt v =>
    if -32768 ≤ v ∧ v ≤ 32767 then [.addiu 0#5 rt (BitVec.ofInt 16 v)]
    else if 0 ≤ v ∧ v ≤ 65535 then [.ori 0#5 rt (BitVec.ofInt 16 v)]
    else loadConstant rt (BitVec.ofInt 32 v)
  | .la rt a => loadConstant rt a
  | .b offset => [.beq 0#5 0#5 offset]
  | .bal offset => [.bgezal 0#5 offset]
  | .beqz rs offset => [.beq rs 0#5 offset]
  | .bnez rs offset => [.bne rs 0#5 offset]
  | .neg rd rs => [.sub 0#5 rs rd]
  | .negu rd rs => [.subu 0#5 rs rd]
  | .not rd rs => [.nor rs 0#5 rd]

/-- The conventional software names, by register number; r30 is also `fp` (R100). -/
def softwareNames : List String :=
  ["zero", "at", "v0", "v1", "a0", "a1", "a2", "a3", "t0", "t1", "t2", "t3", "t4", "t5", "t6", "t7",
   "s0", "s1", "s2", "s3", "s4", "s5", "s6", "s7", "t8", "t9", "k0", "k1", "gp", "sp", "s8", "ra"]

end Sys2Proof.Machine
end

