-- ==== Sys2Proof/Tests/Slice0.lean ====
section
/-! SUPPORT. Tests: the well-formedness smoke, a hand-written word of every instruction, single steps with the results of
the spec's own examples and vectors (95_test_vectors.md), and a witness for every statement that has hypotheses. -/

namespace Sys2Proof.Tests

open Sys2Proof.Machine

/-! ### Helpers: small states -/

/-- A cartridge image that holds the words `ws`. -/
def image (ws : List Word) : CartridgeImage := { bytes := ws.flatMap bytesOfWord, kind := .unknown }

/-- The state at reset with the words `ws` as its cartridge image. -/
def mounted (ws : List Word) : State :=
  newInterpreter (mountedMemory rdramBaseDefault rdramSizeDefault (image ws)) entryPointDefault Config.default

/-- That state with some registers set by the host. -/
def boot (ws : List Word) (regs : List (Reg × Dword)) : State :=
  regs.foldl (fun s p => s.setReg p.1 p.2) (mounted ws)

/-- The eight bytes that the examples of 44_load_store.md find at 0x100. -/
def withExampleBytes (s : State) : State := { s with mem := s.mem.store 0x100 8 0x1280FFFE89ABCDEF#64 }

/-- The state an outcome leads to. -/
def after : Host.Outcome State Fault Refusal → State
  | .next t => t
  | .fault _ => State.reset
  | .refused _ => State.reset

/-- The state after one step of the word `w` at reset. -/
def ran (w : Word) (regs : List (Reg × Dword)) : State := after (step (withExampleBytes (boot [w] regs)))

/-- The `n` bytes of memory from `a` on. -/
def bytesAt (s : State) (a n : Nat) : List Byte := (List.range n).map (fun k => s.mem.byteAt (a + k))

/-! ### Well-formedness -/

theorem test_wellFormed_bltzal : Instr.wellFormed (.bltzal 31#5 0#16) = false := by decide
theorem test_wellFormed_bgezal : Instr.wellFormed (.bgezal 31#5 0#16) = false := by decide
theorem test_wellFormed_jalr : Instr.wellFormed (.jalr 4#5 4#5) = false := by decide
theorem test_wellFormed_bgezal_r30 : Instr.wellFormed (.bgezal 30#5 0#16) = true := by decide
theorem test_wellFormed_jalr_r0 : Instr.wellFormed (.jalr 4#5 0#5) = true := by decide

/-! ### The table, the memory and the interface names -/

theorem test_rows_disjoint : opcodeRows.Pairwise (fun r q => r.disjoint q = true) := by decide
theorem test_reset_memory_wf : State.reset.mem.wf = true := by decide
theorem test_decodeTableWord : decodeTableWord 32 0x20080005 = some (.addi 0#5 8#5 5#16) := by decide
theorem test_withFetchWord : (after (step (State.reset.withFetchWord 32 0x20080005))).reg 8#5 = 5#64 := by decide
theorem test_withFetchWord_wf : (State.reset.withFetchWord 32 0x20080005).mem.wf = true := by decide

/-! ### Assembler text (R98, R99) -/

theorem test_assembly_addi : assembly 0#32 (.addi 0#5 8#5 5#16) = "ADDI r8, r0, 5" := by decide -- R98
theorem test_assembly_bne : assembly 0#32 (.bne 1#5 2#5 0xFFFE#16) = "BNE r1, r2, -2" := by decide -- R244
theorem test_assembly_lw : assembly 0#32 (.lw 1#5 2#5 4#16) = "LW r2, 4(r1)" := by decide -- R217
theorem test_pseudo_nop : Pseudo.nop.expand.map encode = [0x00000000#32] := by decide -- R99
theorem test_pseudo_li : (Pseudo.li 1#5 0x12345678).expand = [.lui 1#5 0x1234#16, .ori 1#5 1#5 0x5678#16] := by decide -- R99
theorem test_softwareNames : softwareNames.length = 32 ∧ softwareNames[29]? = some "sp" := by decide -- R100

/-! ### Decoding: the word of each instruction, as the spec writes it (the example or vector named) -/

theorem test_decode_addi : decode 0x20080005#32 = .known (.addi 0#5 8#5 5#16) := by decide -- T41-1
theorem test_decode_addiu : decode 0x2422FFFF#32 = .known (.addiu 1#5 2#5 0xFFFF#16) := by decide -- T41-11
theorem test_decode_slti : decode 0x2823FFFF#32 = .known (.slti 1#5 3#5 0xFFFF#16) := by decide -- T41-14
theorem test_decode_sltiu : decode 0x2C238000#32 = .known (.sltiu 1#5 3#5 0x8000#16) := by decide -- T41-21
theorem test_decode_andi : decode 0x3024FF00#32 = .known (.andi 1#5 4#5 0xFF00#16) := by decide -- T41-22
theorem test_decode_ori : decode 0x342400FF#32 = .known (.ori 1#5 4#5 0x00FF#16) := by decide -- T41-25
theorem test_decode_xori : decode 0x3824FFFF#32 = .known (.xori 1#5 4#5 0xFFFF#16) := by decide -- T41-26
theorem test_decode_lui : decode 0x3C018000#32 = .known (.lui 1#5 0x8000#16) := by decide -- T41-28
theorem test_decode_add : decode 0x00221820#32 = .known (.add 1#5 2#5 3#5) := by decide -- T42-1
theorem test_decode_addu : decode 0x00221821#32 = .known (.addu 1#5 2#5 3#5) := by decide -- T42-8
theorem test_decode_sub : decode 0x00221822#32 = .known (.sub 1#5 2#5 3#5) := by decide -- T42-11
theorem test_decode_subu : decode 0x00221823#32 = .known (.subu 1#5 2#5 3#5) := by decide -- T42-15
theorem test_decode_and : decode 0x00221824#32 = .known (.and 1#5 2#5 3#5) := by decide -- T42-17
theorem test_decode_or : decode 0x00221825#32 = .known (.or 1#5 2#5 3#5) := by decide -- T42-18
theorem test_decode_xor : decode 0x00221826#32 = .known (.xor 1#5 2#5 3#5) := by decide -- T42-19
theorem test_decode_nor : decode 0x00221827#32 = .known (.nor 1#5 2#5 3#5) := by decide -- T42-20
theorem test_decode_slt : decode 0x0022182A#32 = .known (.slt 1#5 2#5 3#5) := by decide -- T42-23
theorem test_decode_sltu : decode 0x0022182B#32 = .known (.sltu 1#5 2#5 3#5) := by decide -- T42-24
theorem test_decode_sll : decode 0x00021900#32 = .known (.sll 2#5 3#5 4#5) := by decide -- T42-27
theorem test_decode_srl : decode 0x00021902#32 = .known (.srl 2#5 3#5 4#5) := by decide -- T42-30
theorem test_decode_sra : decode 0x00021FC3#32 = .known (.sra 2#5 3#5 31#5) := by decide -- T42-34
theorem test_decode_sllv : decode 0x00221804#32 = .known (.sllv 1#5 2#5 3#5) := by decide -- T42-35
theorem test_decode_srlv : decode 0x00221806#32 = .known (.srlv 1#5 2#5 3#5) := by decide -- T42-37
theorem test_decode_srav : decode 0x00221807#32 = .known (.srav 1#5 2#5 3#5) := by decide -- T42-38
theorem test_decode_mult : decode 0x00220018#32 = .known (.mult 1#5 2#5) := by decide -- T43-1
theorem test_decode_multu : decode 0x00220019#32 = .known (.multu 1#5 2#5) := by decide -- T43-4
theorem test_decode_div : decode 0x0022001A#32 = .known (.div 1#5 2#5) := by decide -- T43-7
theorem test_decode_divu : decode 0x0022001B#32 = .known (.divu 1#5 2#5) := by decide -- T43-13
theorem test_decode_mfhi : decode 0x00001810#32 = .known (.mfhi 3#5) := by decide -- T43-16
theorem test_decode_mflo : decode 0x00002012#32 = .known (.mflo 4#5) := by decide -- T43-17
theorem test_decode_mthi : decode 0x00200011#32 = .known (.mthi 1#5) := by decide -- T43-22
theorem test_decode_mtlo : decode 0x00200013#32 = .known (.mtlo 1#5) := by decide -- T43-23
theorem test_decode_lb : decode 0x80220001#32 = .known (.lb 1#5 2#5 1#16) := by decide -- T44-1
theorem test_decode_lbu : decode 0x90220001#32 = .known (.lbu 1#5 2#5 1#16) := by decide -- T44-3
theorem test_decode_lh : decode 0x84220002#32 = .known (.lh 1#5 2#5 2#16) := by decide -- T44-4
theorem test_decode_lhu : decode 0x94220002#32 = .known (.lhu 1#5 2#5 2#16) := by decide -- T44-6
theorem test_decode_lw : decode 0x8C220004#32 = .known (.lw 1#5 2#5 4#16) := by decide -- T44-9
theorem test_decode_lwu : decode 0x9C220004#32 = .known (.lwu 1#5 2#5 4#16) := by decide -- T44-11
theorem test_decode_ld : decode 0xDC220000#32 = .known (.ld 1#5 2#5 0#16) := by decide -- T44-12
theorem test_decode_sb : decode 0xA0220003#32 = .known (.sb 1#5 2#5 3#16) := by decide -- R220
theorem test_decode_sh : decode 0xA4220002#32 = .known (.sh 1#5 2#5 2#16) := by decide -- R221
theorem test_decode_sw : decode 0xAC220000#32 = .known (.sw 1#5 2#5 0#16) := by decide -- R222
theorem test_decode_sd : decode 0xFC220008#32 = .known (.sd 1#5 2#5 8#16) := by decide -- R223
theorem test_decode_beq : decode 0x10220003#32 = .known (.beq 1#5 2#5 3#16) := by decide -- R243
theorem test_decode_bne : decode 0x1422FFFE#32 = .known (.bne 1#5 2#5 0xFFFE#16) := by decide -- R244
theorem test_decode_blez : decode 0x18200001#32 = .known (.blez 1#5 1#16) := by decide -- R245
theorem test_decode_bgtz : decode 0x1C200001#32 = .known (.bgtz 1#5 1#16) := by decide -- R246
theorem test_decode_bltz : decode 0x04200001#32 = .known (.bltz 1#5 1#16) := by decide -- R247
theorem test_decode_bgez : decode 0x04210001#32 = .known (.bgez 1#5 1#16) := by decide -- R248
theorem test_decode_bltzal : decode 0x04300001#32 = .known (.bltzal 1#5 1#16) := by decide -- R249
theorem test_decode_bgezal : decode 0x04310001#32 = .known (.bgezal 1#5 1#16) := by decide -- R250
theorem test_decode_j : decode 0x08000004#32 = .known (.j 4#26) := by decide -- R251
theorem test_decode_jal : decode 0x0C000004#32 = .known (.jal 4#26) := by decide -- R252
theorem test_decode_jr : decode 0x03E00008#32 = .known (.jr 31#5) := by decide -- R253
theorem test_decode_jalr : decode 0x00201009#32 = .known (.jalr 1#5 2#5) := by decide -- R254

/-! ### One step from reset: the register written -/

theorem test_step_addi : (ran 0x20080005#32 []).reg 8#5 = 0x5#64 := by decide -- T41-1
theorem test_step_addi_edge : (ran 0x20227FFF#32 [(1#5, 0x7FFF8000#64)]).reg 2#5 = 0x7FFFFFFF#64 := by decide -- T41-5
theorem test_step_addiu : (ran 0x24220001#32 [(1#5, 0x7FFFFFFF#64)]).reg 2#5 = 0xFFFFFFFF80000000#64 := by decide -- T41-10
theorem test_step_slti : (ran 0x2823FFFF#32 [(1#5, 0xFFFFFFFFFFFFFFFE#64)]).reg 3#5 = 0x1#64 := by decide -- T41-14
theorem test_step_sltiu : (ran 0x2C238000#32 [(1#5, 0x8000000000000000#64)]).reg 3#5 = 0x1#64 := by decide -- T41-21
theorem test_step_andi : (ran 0x3024FF00#32 [(1#5, 0xFFFFFFFFFFFF1234#64)]).reg 4#5 = 0x1200#64 := by decide -- T41-22
theorem test_step_ori : (ran 0x342400FF#32 [(1#5, 0xFFFFFFFF80000000#64)]).reg 4#5 = 0xFFFFFFFF800000FF#64 := by decide -- T41-25
theorem test_step_xori : (ran 0x3824FFFF#32 [(1#5, 0xFFFFFFFFFFFFFFFF#64)]).reg 4#5 = 0xFFFFFFFFFFFF0000#64 := by decide -- T41-26
theorem test_step_lui : (ran 0x3C018000#32 []).reg 1#5 = 0xFFFFFFFF80000000#64 := by decide -- T41-28
theorem test_step_add : (ran 0x00220820#32 [(1#5, 0x1#64), (2#5, 0x2#64)]).reg 1#5 = 0x3#64 := by decide -- T42-6
theorem test_step_addu : (ran 0x00221821#32 [(1#5, 0x7FFFFFFF#64), (2#5, 0x1#64)]).reg 3#5 = 0xFFFFFFFF80000000#64 := by decide -- T42-8
theorem test_step_sub : (ran 0x00221822#32 [(1#5, 0x5#64), (2#5, 0x7#64)]).reg 3#5 = 0xFFFFFFFFFFFFFFFE#64 := by decide -- T42-11
theorem test_step_subu : (ran 0x00221823#32 [(1#5, 0xFFFFFFFF80000000#64), (2#5, 0x1#64)]).reg 3#5 = 0x7FFFFFFF#64 := by decide -- T42-15
theorem test_step_and : (ran 0x00221824#32 [(1#5, 0xFF00FF00FF00FF00#64), (2#5, 0x0FF00FF00FF00FF0#64)]).reg 3#5 = 0x0F000F000F000F00#64 := by decide -- T42-17
theorem test_step_or : (ran 0x00221825#32 [(1#5, 0xFF00FF00FF00FF00#64), (2#5, 0x0FF00FF00FF00FF0#64)]).reg 3#5 = 0xFFF0FFF0FFF0FFF0#64 := by decide -- T42-18
theorem test_step_xor : (ran 0x00221826#32 [(1#5, 0xFF00FF00FF00FF00#64), (2#5, 0x0FF00FF00FF00FF0#64)]).reg 3#5 = 0xF0F0F0F0F0F0F0F0#64 := by decide -- T42-19
theorem test_step_nor : (ran 0x00221827#32 [(1#5, 0xFF00FF00FF00FF00#64), (2#5, 0x0FF00FF00FF00FF0#64)]).reg 3#5 = 0x000F000F000F000F#64 := by decide -- T42-20
theorem test_step_slt : (ran 0x0022182A#32 [(1#5, 0xFFFFFFFF80000000#64), (2#5, 0x80000000#64)]).reg 3#5 = 0x1#64 := by decide -- T42-25
theorem test_step_sltu : (ran 0x0002182B#32 [(2#5, 0x9#64)]).reg 3#5 = 0x1#64 := by decide -- T42-26
theorem test_step_sll : (ran 0x00021800#32 [(2#5, 0x180000000#64)]).reg 3#5 = 0xFFFFFFFF80000000#64 := by decide -- T42-28
theorem test_step_srl : (ran 0x00021802#32 [(2#5, 0xFFFFFFFF80000000#64)]).reg 3#5 = 0xFFFFFFFF80000000#64 := by decide -- T42-31
theorem test_step_sra : (ran 0x00021903#32 [(2#5, 0xFFFFFFFF80000000#64)]).reg 3#5 = 0xFFFFFFFFF8000000#64 := by decide -- T42-33
theorem test_step_sllv : (ran 0x00221804#32 [(1#5, 0x24#64), (2#5, 0x1#64)]).reg 3#5 = 0x10#64 := by decide -- T42-35
theorem test_step_srlv : (ran 0x00221806#32 [(1#5, 0x1F#64), (2#5, 0xFFFFFFFF80000000#64)]).reg 3#5 = 0x1#64 := by decide -- T42-37
theorem test_step_srav : (ran 0x00221807#32 [(1#5, 0xFFFFFFFFFFFFFFE4#64), (2#5, 0xFFFFFFFF87654321#64)]).reg 3#5 = 0xFFFFFFFFF8765432#64 := by decide -- T42-39
theorem test_step_lb : (ran 0x80220001#32 [(1#5, 0x100#64)]).reg 2#5 = 0xFFFFFFFFFFFFFF80#64 := by decide -- T44-1
theorem test_step_lbu : (ran 0x90220001#32 [(1#5, 0x100#64)]).reg 2#5 = 0x80#64 := by decide -- T44-3
theorem test_step_lh : (ran 0x84220002#32 [(1#5, 0x100#64)]).reg 2#5 = 0xFFFFFFFFFFFFFFFE#64 := by decide -- T44-4
theorem test_step_lhu : (ran 0x94220002#32 [(1#5, 0x100#64)]).reg 2#5 = 0xFFFE#64 := by decide -- T44-6
theorem test_step_lw : (ran 0x8C220004#32 [(1#5, 0x100#64)]).reg 2#5 = 0xFFFFFFFF89ABCDEF#64 := by decide -- T44-9
theorem test_step_lwu : (ran 0x9C220004#32 [(1#5, 0x100#64)]).reg 2#5 = 0x89ABCDEF#64 := by decide -- T44-11
theorem test_step_ld : (ran 0xDC220000#32 [(1#5, 0x100#64)]).reg 2#5 = 0x1280FFFE89ABCDEF#64 := by decide -- T44-12
theorem test_step_jal : (ran 0x0C000004#32 []).reg 31#5 = 0x10000008#64 := by decide -- R252
theorem test_step_bltzal : (ran 0x04300001#32 [(1#5, 0x1#64)]).reg 31#5 = 0x10000008#64 := by decide -- R249
theorem test_step_jalr : (ran 0x00201009#32 [(1#5, 0x10000020#64)]).reg 2#5 = 0x10000008#64 := by decide -- R254
theorem test_step_bgezal : (ran 0x04310001#32 [(1#5, 0x1#64)]).reg 31#5 = 0x10000008#64 := by decide -- R250

/-! ### One step from reset: HI and LO -/

theorem test_hilo_mult : (ran 0x00220018#32 [(1#5, 0xFFFFFFFFFFFFFFFE#64), (2#5, 0x3#64)]).hi = 0xFFFFFFFFFFFFFFFF#64 ∧ (ran 0x00220018#32 [(1#5, 0xFFFFFFFFFFFFFFFE#64), (2#5, 0x3#64)]).lo = 0xFFFFFFFFFFFFFFFA#64 := by
  decide -- T43-1
theorem test_hilo_mult_edge : (ran 0x00220018#32 [(1#5, 0xFFFFFFFF80000000#64), (2#5, 0xFFFFFFFF80000000#64)]).hi = 0x40000000#64 ∧ (ran 0x00220018#32 [(1#5, 0xFFFFFFFF80000000#64), (2#5, 0xFFFFFFFF80000000#64)]).lo = 0x0#64 := by
  decide -- T43-2
theorem test_hilo_multu : (ran 0x00220019#32 [(1#5, 0xFFFFFFFFFFFFFFFF#64), (2#5, 0xFFFFFFFFFFFFFFFF#64)]).hi = 0xFFFFFFFFFFFFFFFE#64 ∧ (ran 0x00220019#32 [(1#5, 0xFFFFFFFFFFFFFFFF#64), (2#5, 0xFFFFFFFFFFFFFFFF#64)]).lo = 0x1#64 := by
  decide -- T43-5
theorem test_hilo_div : (ran 0x0022001A#32 [(1#5, 0xFFFFFFFFFFFFFFF9#64), (2#5, 0x2#64)]).hi = 0xFFFFFFFFFFFFFFFF#64 ∧ (ran 0x0022001A#32 [(1#5, 0xFFFFFFFFFFFFFFF9#64), (2#5, 0x2#64)]).lo = 0xFFFFFFFFFFFFFFFD#64 := by
  decide -- T43-9
theorem test_hilo_div_edge : (ran 0x0022001A#32 [(1#5, 0xFFFFFFFF80000000#64), (2#5, 0xFFFFFFFFFFFFFFFF#64)]).hi = 0x0#64 ∧ (ran 0x0022001A#32 [(1#5, 0xFFFFFFFF80000000#64), (2#5, 0xFFFFFFFFFFFFFFFF#64)]).lo = 0xFFFFFFFF80000000#64 := by
  decide -- T43-11
theorem test_hilo_divu : (ran 0x0022001B#32 [(1#5, 0xFFFFFFFFFFFFFFFF#64), (2#5, 0x2#64)]).hi = 0x1#64 ∧ (ran 0x0022001B#32 [(1#5, 0xFFFFFFFFFFFFFFFF#64), (2#5, 0x2#64)]).lo = 0x7FFFFFFF#64 := by
  decide -- T43-13
theorem test_hilo_mthi : (ran 0x00200011#32 [(1#5, 0xFFFFFFFF00000000#64)]).hi = 0xFFFFFFFF00000000#64 ∧ (ran 0x00200011#32 [(1#5, 0xFFFFFFFF00000000#64)]).lo = 0x0#64 := by
  decide -- T43-22
theorem test_hilo_mtlo : (ran 0x00200013#32 [(1#5, 0x7#64)]).hi = 0x0#64 ∧ (ran 0x00200013#32 [(1#5, 0x7#64)]).lo = 0x7#64 := by
  decide -- R198

/-! ### One step from reset: the pending transfer -/

theorem test_transfer_beq : (ran 0x10220003#32 [(1#5, 0x7#64), (2#5, 0x7#64)]).delay = .slotTaken 0x10000010#32 := by decide -- R243
theorem test_transfer_bne : (ran 0x14220003#32 [(1#5, 0x80000000#64), (2#5, 0xFFFFFFFF80000000#64)]).delay = .slotTaken 0x10000010#32 := by decide -- R244 and R241
theorem test_transfer_blez : (ran 0x18200001#32 []).delay = .slotTaken 0x10000008#32 := by decide -- R245
theorem test_transfer_bgtz : (ran 0x1C200001#32 []).delay = .slotNotTaken := by decide -- R246
theorem test_transfer_bltz : (ran 0x04200001#32 [(1#5, 0xFFFFFFFF80000000#64)]).delay = .slotTaken 0x10000008#32 := by decide -- R247
theorem test_transfer_bgez : (ran 0x04210001#32 []).delay = .slotTaken 0x10000008#32 := by decide -- R248
theorem test_transfer_bltzal_not_taken : (ran 0x04300001#32 [(1#5, 0x1#64)]).delay = .slotNotTaken := by decide -- R249
theorem test_transfer_bgezal_taken : (ran 0x04310001#32 [(1#5, 0x1#64)]).delay = .slotTaken 0x10000008#32 := by decide -- R250
theorem test_transfer_j : (ran 0x08000004#32 []).delay = .slotTaken 0x10000010#32 := by decide -- R251
theorem test_transfer_jal_target : (ran 0x0C000004#32 []).delay = .slotTaken 0x10000010#32 := by decide -- R252
theorem test_transfer_jr : (ran 0x03E00008#32 [(31#5, 0x10000008#64)]).delay = .slotTaken 0x10000008#32 := by decide -- R253
theorem test_transfer_jalr_target : (ran 0x00201009#32 [(1#5, 0x10000020#64)]).delay = .slotTaken 0x10000020#32 := by decide -- R254

/-! ### One step from reset: the bytes stored -/

theorem test_store_sb : bytesAt (ran 0xA0220003#32 [(1#5, 0x100#64), (2#5, 0x1AA#64)]) 0x103 1 = [0xAA#8] := by
  decide -- R220
theorem test_store_sh : bytesAt (ran 0xA4220002#32 [(1#5, 0x100#64), (2#5, 0x1234#64)]) 0x102 2 = [0x12#8, 0x34#8] := by
  decide -- R221
theorem test_store_sw : bytesAt (ran 0xAC220000#32 [(1#5, 0x100#64), (2#5, 0xDEADBEEF#64)]) 0x100 4 = [0xDE#8, 0xAD#8, 0xBE#8, 0xEF#8] := by
  decide -- R222
theorem test_store_sd : bytesAt (ran 0xFC220008#32 [(1#5, 0x100#64), (2#5, 0x0011223344556677#64)]) 0x108 8 = [0x00#8, 0x11#8, 0x22#8, 0x33#8, 0x44#8, 0x55#8, 0x66#8, 0x77#8] := by
  decide -- R223

/-! ### One step from reset: the fault record -/

theorem test_fault_add_overflow : (ran 0x00220020#32 [(1#5, 0x7FFFFFFF#64), (2#5, 0x7FFFFFFF#64)]).fault =
    some { kind := .arithmeticOverflow, info := 0x00220020#32, pc := 0x10000000#32 } := by decide -- T42-5
theorem test_fault_sub_overflow : (ran 0x00221822#32 [(2#5, 0xFFFFFFFF80000000#64)]).fault =
    some { kind := .arithmeticOverflow, info := 0x00221822#32, pc := 0x10000000#32 } := by decide -- T42-13
theorem test_fault_addiu_not_canonical : (ran 0x24220000#32 [(1#5, 0x100000000#64)]).fault =
    some { kind := .unpredictable .nonCanonicalOperand, info := 0x24220000#32, pc := 0x10000000#32 } := by decide -- T41-12
theorem test_fault_lw_misaligned : (ran 0x8C220002#32 [(1#5, 0x100#64)]).fault =
    some { kind := .misaligned, info := 0x00000102#32, pc := 0x10000000#32 } := by decide -- T44-10
theorem test_fault_sw_write_protected : (ran 0xAD490000#32 [(10#5, 0x10000000#64)]).fault =
    some { kind := .writeProtected, info := 0x10000000#32, pc := 0x10000000#32 } := by decide -- V10
theorem test_fault_unknown_word : (ran 0x0000000D#32 []).fault =
    some { kind := .decodeUnknown, info := 0x0000000D#32, pc := 0x10000000#32 } := by decide -- T40-9
theorem test_fault_link_source : (ran 0x07F10003#32 []).fault =
    some { kind := .unpredictable .linkRegisterSource, info := 0x07F10003#32, pc := 0x10000000#32 } := by decide -- T40-17

/-! ### Witnesses: states and operands that meet the hypotheses of each statement, clause by clause -/

/-- An operation goes on. -/
def goesOn : Host.Outcome State Fault Refusal → Bool
  | .next _ => true
  | .fault _ => false
  | .refused _ => false

/-- An operation that goes on leads to its next state. -/
theorem next_after {o : Host.Outcome State Fault Refusal} (h : goesOn o = true) : o = .next (after o) := by
  cases o
  · rfl
  all_goals simp [goesOn] at h

/-- `s` at another address, in another delay state. -/
def slotAt (s : State) (pc : Word) (d : DelayState) : State := { s with pc := pc, delay := d, status := .running }

/-- A cartridge of two words: `w`, and a NOP. -/
def two (w : Word) (regs : List (Reg × Dword)) : State := boot [w, 0#32] regs

/-- The configuration in which both policies are not the default. -/
def lenient (s : State) : State := { s with cfg := { unknownPolicy := .skip, nonCanonical32 := .low32 } }

/-- The most negative and the most positive 32-bit value, sign-extended, and the least value that is not canonical. -/
def minWord : Dword := 0xFFFFFFFF80000000#64
def maxWord : Dword := 0x000000007FFFFFFF#64
def wide : Dword := 0x0000000080000000#64

/-- Registers r1 and r2 set, nothing mounted. -/
def regs2 (a b : Dword) : State := boot [] [(1#5, a), (2#5, b)]

theorem wit_encodeInvertsDecode : decode 0xFFFFFFFF#32 = .known (.sd 31#5 31#5 0xFFFF#16) := by decide

theorem wit_unknown_fetched : FetchesWord (boot [0x0000000D#32] []) 0x0000000D#32 ∧
    decode 0x0000000D#32 = .unknown .function 0x0000000D#32 ∧ (boot [0x0000000D#32] []).cfg.unknownPolicy = .fatal :=
  ⟨⟨⟨.inl rfl, rfl⟩, by decide, by decide, by decide⟩, by decide, rfl⟩
theorem wit_unknown_rows : ∃ r ∈ opcodeRows, r.matchesWord 0x00000000#32 = true := by decide
theorem wit_unknown_cases : decode 0x40000000#32 = .unknown .opcode 0x40000000#32 ∧
    decode 0x0000003F#32 = .unknown .function 0x0000003F#32 ∧
    decode 0x041F0000#32 = .unknown .selector 0x041F0000#32 ∧
    decode 0x3C200000#32 = .unknown .reservedField 0x3C200000#32 := by decide

theorem wit_decodedInstructionIsItsRow : decode 0x00000000#32 = .known (.sll 0#5 0#5 0#5) ∧
    ∃ r ∈ opcodeRows, r.mnemonic = (Instr.sll 0#5 0#5 0#5).mnemonic := by decide

theorem wit_reserved_shift : 0x00#6 ∈ [0x00#6, 0x02#6, 0x03#6] ∧ 1#5 ≠ 0#5 ∧
    decode (encodeR 1#5 0#5 0#5 0#5 0x00#6) = .unknown .reservedField (encodeR 1#5 0#5 0#5 0#5 0x00#6) := by decide
theorem wit_reserved_shiftv : 0x07#6 ∈ [0x04#6, 0x06#6, 0x07#6] ∧ 16#5 ≠ 0#5 ∧
    decode (encodeR 31#5 31#5 31#5 16#5 0x07#6) = .unknown .reservedField (encodeR 31#5 31#5 31#5 16#5 0x07#6) := by decide
theorem wit_reserved_arith : 0x2B#6 ∈ [0x20#6, 0x21#6, 0x22#6, 0x23#6, 0x24#6, 0x25#6, 0x26#6, 0x27#6, 0x2A#6, 0x2B#6] ∧
    1#5 ≠ 0#5 ∧ decode (encodeR 0#5 0#5 0#5 1#5 0x2B#6) = .unknown .reservedField (encodeR 0#5 0#5 0#5 1#5 0x2B#6) := by
  decide
theorem wit_reserved_muldiv : 0x18#6 ∈ [0x18#6, 0x19#6, 0x1A#6, 0x1B#6] ∧
    decode (encodeR 0#5 0#5 1#5 0#5 0x18#6) = .unknown .reservedField (encodeR 0#5 0#5 1#5 0#5 0x18#6) ∧
    decode (encodeR 0#5 0#5 0#5 1#5 0x1B#6) = .unknown .reservedField (encodeR 0#5 0#5 0#5 1#5 0x1B#6) := by decide
theorem wit_reserved_mfhi : 0x10#6 ∈ [0x10#6, 0x12#6] ∧
    decode (encodeR 1#5 0#5 0#5 0#5 0x10#6) = .unknown .reservedField (encodeR 1#5 0#5 0#5 0#5 0x10#6) ∧
    decode (encodeR 0#5 1#5 0#5 0#5 0x10#6) = .unknown .reservedField (encodeR 0#5 1#5 0#5 0#5 0x10#6) ∧
    decode (encodeR 0#5 0#5 0#5 1#5 0x12#6) = .unknown .reservedField (encodeR 0#5 0#5 0#5 1#5 0x12#6) := by decide
theorem wit_reserved_mthi : 0x11#6 ∈ [0x11#6, 0x13#6] ∧
    decode (encodeR 0#5 1#5 0#5 0#5 0x11#6) = .unknown .reservedField (encodeR 0#5 1#5 0#5 0#5 0x11#6) ∧
    decode (encodeR 0#5 0#5 1#5 0#5 0x11#6) = .unknown .reservedField (encodeR 0#5 0#5 1#5 0#5 0x11#6) ∧
    decode (encodeR 0#5 0#5 0#5 1#5 0x13#6) = .unknown .reservedField (encodeR 0#5 0#5 0#5 1#5 0x13#6) := by decide
theorem wit_reserved_jr :
    decode (encodeR 0#5 1#5 0#5 0#5 0x08#6) = .unknown .reservedField (encodeR 0#5 1#5 0#5 0#5 0x08#6) ∧
    decode (encodeR 0#5 0#5 1#5 0#5 0x08#6) = .unknown .reservedField (encodeR 0#5 0#5 1#5 0#5 0x08#6) ∧
    decode (encodeR 0#5 0#5 0#5 1#5 0x08#6) = .unknown .reservedField (encodeR 0#5 0#5 0#5 1#5 0x08#6) := by decide
theorem wit_reserved_jalr :
    decode (encodeR 0#5 1#5 0#5 0#5 0x09#6) = .unknown .reservedField (encodeR 0#5 1#5 0#5 0#5 0x09#6) ∧
    decode (encodeR 0#5 0#5 0#5 1#5 0x09#6) = .unknown .reservedField (encodeR 0#5 0#5 0#5 1#5 0x09#6) := by decide
theorem wit_reserved_branch_lui : 0x06#6 ∈ [0x06#6, 0x07#6] ∧ 1#5 ≠ 0#5 ∧ 0x07#6 ∈ [0x06#6, 0x07#6] ∧
    decode (encodeI 0x06#6 0#5 1#5 0#16) = .unknown .reservedField (encodeI 0x06#6 0#5 1#5 0#16) ∧
    decode (encodeI 0x07#6 0#5 31#5 0xFFFF#16) = .unknown .reservedField (encodeI 0x07#6 0#5 31#5 0xFFFF#16) ∧
    decode (encodeI 0x0F#6 1#5 0#5 0#16) = .unknown .reservedField (encodeI 0x0F#6 1#5 0#5 0#16) := by decide

/-- The first and the last word of the cartridge, and of RDRAM, can be fetched. -/
theorem wit_fetches_first : FetchesWord (two 0x20080005#32 []) 0x20080005#32 :=
  ⟨⟨.inl rfl, rfl⟩, by decide, by decide, by decide⟩
theorem wit_fetches_last : FetchesWord (slotAt (boot [0#32, 0x20080005#32] []) 0x10000004#32 .normal) 0x20080005#32 :=
  ⟨⟨.inr rfl, rfl⟩, by decide, by decide, by decide⟩
theorem wit_fetches_rdram : FetchesWord (slotAt (boot [] []) 0x003FFFFC#32 .normal) 0x00000000#32 :=
  ⟨⟨.inr rfl, rfl⟩, by decide, by decide, by decide⟩
theorem wit_stepRunsDecoded : decode 0x20080005#32 = .known (.addi 0#5 8#5 5#16) := by decide

/-- A faulted and a halted state. -/
def faulted : State := faultedWith (boot [] []) .unmapped 0x10000000#32
def halted : State := { boot [] [] with status := .halted, stopRequest := true }

theorem wit_stopped : faulted.status = .faulted ∧ halted.status = .halted := by decide
theorem wit_stopRequest : (boot [] []).requestStop.status = .ready ∧ (boot [] []).requestStop.stopRequest = true ∧
    (slotAt (boot [] []) 0#32 .normal).requestStop.status = .running ∧
    (slotAt (boot [] []) 0#32 .normal).requestStop.stopRequest = true := by decide

theorem wit_fetch_misaligned : Fetches (slotAt (two 0#32 []) 0x10000001#32 .normal) ∧
    (slotAt (two 0#32 []) 0x10000001#32 .normal).pc.toNat % 4 ≠ 0 := ⟨⟨.inr rfl, rfl⟩, by decide⟩
theorem wit_fetch_unmapped : Fetches (slotAt (two 0#32 []) 0x10000008#32 .normal) ∧
    (slotAt (two 0#32 []) 0x10000008#32 .normal).pc.toNat % 4 = 0 ∧
    (slotAt (two 0#32 []) 0x10000008#32 .normal).mem.regionOf 0x10000008 4 = none := ⟨⟨.inr rfl, rfl⟩, by decide, by decide⟩
theorem wit_fetch_mapped : Fetches (slotAt (two 0#32 []) 0x10000004#32 .normal) ∧
    (slotAt (two 0#32 []) 0x10000004#32 .normal).pc.toNat % 4 = 0 ∧
    ((slotAt (two 0#32 []) 0x10000004#32 .normal).mem.regionOf 0x10000004 4).isSome = true :=
  ⟨⟨.inr rfl, rfl⟩, by decide, by decide⟩

theorem wit_unknownWord_skip : FetchesWord (lenient (boot [0x0000000D#32] [])) 0x0000000D#32 ∧
    decode 0x0000000D#32 = .unknown .function 0x0000000D#32 ∧
    (lenient (boot [0x0000000D#32] [])).cfg.unknownPolicy = .skip :=
  ⟨⟨⟨.inl rfl, rfl⟩, by decide, by decide, by decide⟩, by decide, rfl⟩

/-- A jump in the slot of a taken transfer, and a branch in that of a branch not taken. -/
def jumpInSlot : State := slotAt (two 0x08000004#32 []) 0x10000000#32 (.slotTaken 0x10000000#32)
def branchInSlot : State := slotAt (two 0x10220003#32 []) 0x10000000#32 .slotNotTaken

theorem wit_transferInSlot_jump : FetchesWord jumpInSlot 0x08000004#32 ∧ decode 0x08000004#32 = .known (.j 4#26) ∧
    jumpInSlot.delay ≠ .normal ∧ (Instr.j 4#26).opClass = .jump :=
  ⟨⟨⟨.inr rfl, rfl⟩, by decide, by decide, by decide⟩, by decide, by decide, by decide⟩
theorem wit_transferInSlot_branch : FetchesWord branchInSlot 0x10220003#32 ∧
    decode 0x10220003#32 = .known (.beq 1#5 2#5 3#16) ∧ branchInSlot.delay ≠ .normal ∧
    (Instr.beq 1#5 2#5 3#16).opClass = .branch :=
  ⟨⟨⟨.inr rfl, rfl⟩, by decide, by decide, by decide⟩, by decide, by decide, by decide⟩

theorem wit_faultEntry : step jumpInSlot = .next (after (step jumpInSlot)) ∧ jumpInSlot.status ≠ .faulted ∧
    (after (step jumpInSlot)).status = .faulted :=
  ⟨next_after (by decide), by decide, by decide⟩

/-- A NOP outside a slot, in the slot of a taken transfer, and in that of a branch not taken. -/
def plainNop : State := slotAt (two 0#32 []) 0x10000000#32 .normal
def takenNop : State := slotAt (two 0#32 []) 0x10000004#32 (.slotTaken 0x10000000#32)
def notTakenNop : State := slotAt (two 0#32 []) 0x10000000#32 .slotNotTaken

theorem wit_completed : ∀ s ∈ [plainNop, takenNop, notTakenNop], goesOn (step s) = true ∧
    (after (step s)).status ≠ .faulted ∧ (after (step s)).status ≠ .halted := by decide
theorem wit_completed_slots : takenNop.delay ≠ .normal ∧ notTakenNop.delay ≠ .normal := by decide

theorem wit_hazardState_reads : FetchesWord (two 0x00001810#32 []) 0x00001810#32 ∧
    step (two 0x00001810#32 []) = .next (after (step (two 0x00001810#32 []))) ∧
    (after (step (two 0x00001810#32 []))).status = .running ∧ decode 0x00001810#32 = .known (.mfhi 3#5) :=
  ⟨⟨⟨.inl rfl, rfl⟩, by decide, by decide, by decide⟩, next_after (by decide), by decide, by decide⟩
theorem wit_hazardState_computes : FetchesWord (two 0x00220018#32 []) 0x00220018#32 ∧
    step (two 0x00220018#32 []) = .next (after (step (two 0x00220018#32 []))) ∧
    (after (step (two 0x00220018#32 []))).status = .running ∧ decode 0x00220018#32 = .known (.mult 1#5 2#5) :=
  ⟨⟨⟨.inl rfl, rfl⟩, by decide, by decide, by decide⟩, next_after (by decide), by decide, by decide⟩
theorem wit_hazardState_other : FetchesWord (two 0#32 []) 0#32 ∧
    step (two 0#32 []) = .next (after (step (two 0#32 []))) ∧ (after (step (two 0#32 []))).status = .running ∧
    decode 0#32 = .known (.sll 0#5 0#5 0#5) :=
  ⟨⟨⟨.inl rfl, rfl⟩, by decide, by decide, by decide⟩, next_after (by decide), by decide, by decide⟩

/-- A jump at reset, and the state after it and after its slot. -/
def jumping : State := two 0x08000000#32 []

theorem wit_redirection : step jumping = .next (after (step jumping)) ∧ (after (step jumping)).status = .running ∧
    (after (step jumping)).delay = .slotTaken 0x10000000#32 ∧
    step (after (step jumping)) = .next (after (step (after (step jumping)))) ∧
    (after (step (after (step jumping)))).status = .running :=
  ⟨next_after (by decide), by decide, by decide, next_after (by decide), by decide⟩

theorem wit_hiLoAccess : exec (.mthi 1#5) (regs2 1#64 0#64) = .next (after (exec (.mthi 1#5) (regs2 1#64 0#64))) ∧
    (∀ rs rt : Reg, Instr.mthi 1#5 ≠ .mult rs rt ∧ Instr.mthi 1#5 ≠ .multu rs rt ∧ Instr.mthi 1#5 ≠ .div rs rt ∧
      Instr.mthi 1#5 ≠ .divu rs rt) ∧ (∀ rs : Reg, Instr.mthi 1#5 ≠ .mtlo rs) ∧
    (∀ rd : Reg, Instr.mthi 1#5 ≠ .mfhi rd ∧ Instr.mthi 1#5 ≠ .mflo rd) :=
  ⟨next_after (by decide), fun _ _ => by simp, fun _ => by simp, fun _ => by simp⟩
theorem wit_onlyStores : exec (.lui 1#5 1#16) plainNop = .next (after (exec (.lui 1#5 1#16) plainNop)) ∧
    (Instr.lui 1#5 1#16).opClass ≠ .store :=
  ⟨next_after (by decide), by decide⟩

theorem wit_cartridge : (two 0x20080005#32 []).mem.mapOk = true ∧
    hostCall (.write 0x00000000#32 .b8 5#64) (two 0x20080005#32 []) =
      .next ({ two 0x20080005#32 [] with mem := (two 0x20080005#32 []).mem.store 0 8 5#64 }, .done) ∧
    cartridgeBase ≤ 0x10000000 ∧ 0x10000007 < cartridgeBase + (two 0x20080005#32 []).mem.cartLength :=
  ⟨by decide, rfl, by decide, by decide⟩
theorem wit_configuration : hostCall (.reset 4#32) faulted = .next (faulted.resetTo 4#32, .done) := rfl
theorem wit_construction : mount 0x00000000#32 0x00400000 (image [0x20080005#32]) =
    .next (mountedMemory 0x00000000#32 0x00400000 (image [0x20080005#32])) := rfl

/-- A state of the invariant in a delay slot, with an unread product, and one that is faulted. -/
def busy : State := { takenNop with hiloFresh := true, hi := 1#64 }
theorem wit_inv_busy : busy.Inv where
  memory := by decide
  zero := by decide
  recordIff := by decide
  recordPc _ h := absurd h (by decide +revert)
  slotAligned _ := by decide
  freshAge _ := by decide
  readyClean h := absurd h (by decide)
theorem wit_inv_faulted : faulted.Inv where
  memory := by decide
  zero := by decide
  recordIff := by decide
  recordPc _ h := by cases h; rfl
  slotAligned h := absurd rfl h
  freshAge h := absurd h (by decide)
  readyClean h := absurd h (by decide)
theorem wit_inv_step : step busy = .next (after (step busy)) := next_after (by decide)
theorem wit_inv_run : hostCall (.run 2 [false, true]) busy =
    .next (after (step (after (step busy)).requestStop), .ran { status := .halted, steps := 2, fault := none }) := rfl

/-! The arithmetic statements, at the edges of the 32-bit range. -/

theorem wit_signedResult_max : Usable32 (regs2 0x7FFFFFFE#64 1#64) ((regs2 0x7FFFFFFE#64 1#64).reg 1#5) ∧
    Usable32 (regs2 0x7FFFFFFE#64 1#64) ((regs2 0x7FFFFFFE#64 1#64).reg 2#5) ∧
    (lowWord (regs2 0x7FFFFFFE#64 1#64) 1#5).toInt + (lowWord (regs2 0x7FFFFFFE#64 1#64) 2#5).toInt = 2147483647 ∧
    (lowWord (regs2 0x7FFFFFFE#64 1#64) 1#5).toInt + (1#16).toInt = 2147483647 :=
  ⟨.inl (by decide), .inl (by decide), by decide, by decide⟩
theorem wit_signedResult_min : Usable32 (regs2 (minWord + 1#64) 1#64) ((regs2 (minWord + 1#64) 1#64).reg 1#5) ∧
    Usable32 (regs2 (minWord + 1#64) 1#64) ((regs2 (minWord + 1#64) 1#64).reg 2#5) ∧
    (lowWord (regs2 (minWord + 1#64) 1#64) 1#5).toInt - (lowWord (regs2 (minWord + 1#64) 1#64) 2#5).toInt = -2147483648 ∧
    (lowWord (regs2 (minWord + 1#64) 1#64) 1#5).toInt + (0xFFFF#16).toInt = -2147483648 :=
  ⟨.inl (by decide), .inl (by decide), by decide, by decide⟩
theorem wit_overflow_max : Usable32 (regs2 maxWord 1#64) ((regs2 maxWord 1#64).reg 1#5) ∧
    Usable32 (regs2 maxWord 1#64) ((regs2 maxWord 1#64).reg 2#5) ∧
    (lowWord (regs2 maxWord 1#64) 1#5).toInt + (lowWord (regs2 maxWord 1#64) 2#5).toInt = 2147483648 ∧
    (lowWord (regs2 maxWord 1#64) 1#5).toInt + (1#16).toInt = 2147483648 :=
  ⟨.inl (by decide), .inl (by decide), by decide, by decide⟩
theorem wit_overflow_min : Usable32 (regs2 minWord 1#64) ((regs2 minWord 1#64).reg 1#5) ∧
    Usable32 (regs2 minWord 1#64) ((regs2 minWord 1#64).reg 2#5) ∧
    (lowWord (regs2 minWord 1#64) 1#5).toInt - (lowWord (regs2 minWord 1#64) 2#5).toInt = -2147483649 ∧
    (lowWord (regs2 minWord 1#64) 1#5).toInt + (0xFFFF#16).toInt = -2147483649 :=
  ⟨.inl (by decide), .inl (by decide), by decide, by decide⟩
/-- Under `Low32` a value that is not canonical is used; under `Fault` it is not, in each source. -/
theorem wit_usable_low32 : Usable32 (lenient (regs2 wide wide)) ((lenient (regs2 wide wide)).reg 1#5) ∧
    Usable32 (lenient (regs2 wide wide)) ((lenient (regs2 wide wide)).reg 2#5) := ⟨.inr rfl, .inr rfl⟩
theorem wit_usable_canonical : Usable32 (regs2 minWord maxWord) ((regs2 minWord maxWord).reg 1#5) ∧
    Usable32 (regs2 minWord maxWord) ((regs2 minWord maxWord).reg 2#5) := ⟨.inl (by decide), .inl (by decide)⟩
theorem wit_notUsable : ¬ Usable32 (regs2 wide 0#64) ((regs2 wide 0#64).reg 1#5) ∧
    ¬ Usable32 (regs2 0#64 wide) ((regs2 0#64 wide).reg 2#5) ∧ (regs2 wide 0#64).sinceHiLoRead = 2 :=
  ⟨fun h => h.elim (by decide) (by decide), fun h => h.elim (by decide) (by decide), rfl⟩

theorem wit_multiplyDivide : (regs2 minWord (-1)).sinceHiLoRead = 2 ∧
    Usable32 (regs2 minWord (-1)) ((regs2 minWord (-1)).reg 1#5) ∧
    Usable32 (regs2 minWord (-1)) ((regs2 minWord (-1)).reg 2#5) ∧ lowWord (regs2 minWord (-1)) 2#5 ≠ 0#32 :=
  ⟨rfl, .inl (by decide), .inl (by decide), by decide⟩
theorem wit_divideByZero : (regs2 minWord 0#64).sinceHiLoRead = 2 ∧
    Usable32 (regs2 minWord 0#64) ((regs2 minWord 0#64).reg 1#5) ∧
    Usable32 (regs2 minWord 0#64) ((regs2 minWord 0#64).reg 2#5) ∧ lowWord (regs2 minWord 0#64) 2#5 = 0#32 :=
  ⟨rfl, .inl (by decide), .inl (by decide), by decide⟩
theorem wit_moveToHiLo : (regs2 wide 0#64).sinceHiLoRead = 2 ∧ (regs2 wide 0#64).hiloFresh = false := by decide

/-- The states along MFHI r3, NOP, NOP. -/
def read0 : State := after (exec (.mfhi 3#5) plainNop)
def read1 : State := after (exec (.sll 0#5 0#5 0#5) read0)
def read2 : State := after (exec (.sll 0#5 0#5 0#5) read1)
theorem wit_hazard_reads : read0.sinceHiLoRead = 0 ∧ read1.sinceHiLoRead = 1 := by decide
theorem wit_hazard_fresh : busy.sinceHiLoRead = 2 ∧ busy.hiloFresh = true := by decide
theorem wit_hazard_chain : exec (.mfhi 3#5) plainNop = .next read0 ∧ exec (.sll 0#5 0#5 0#5) read0 = .next read1 ∧
    read1.status = .running ∧ exec (.sll 0#5 0#5 0#5) read1 = .next read2 ∧ read2.status = .running :=
  ⟨next_after (by decide), next_after (by decide), by decide, next_after (by decide), by decide⟩
theorem wit_hazard_chain_others : ∀ q : Reg, Instr.sll 0#5 0#5 0#5 ≠ .mfhi q ∧ Instr.sll 0#5 0#5 0#5 ≠ .mflo q :=
  fun _ => by simp

/-! Loads and stores, at the edges of the two regions. -/

theorem wit_effectiveAddress : Usable32 (regs2 (minWord - 1#64) 0#64)
      ((regs2 (minWord - 1#64) 0#64).reg 1#5 + BitVec.ofInt 64 (1#16).toInt) ∧
    ¬ Usable32 (regs2 maxWord 0#64) ((regs2 maxWord 0#64).reg 1#5 + BitVec.ofInt 64 (1#16).toInt) :=
  ⟨.inl (by decide), fun h => h.elim (by decide) (by decide)⟩
theorem wit_effectiveAddress_kept : exec (.lb 1#5 2#5 0#16) (regs2 0#64 0#64) =
      .next (after (exec (.lb 1#5 2#5 0#16) (regs2 0#64 0#64))) ∧ 2#5 ≠ 1#5 ∧
    exec (.sb 1#5 1#5 0#16) (regs2 0#64 0#64) = .next (after (exec (.sb 1#5 1#5 0#16) (regs2 0#64 0#64))) ∧
    (Instr.sb 1#5 1#5 0#16).opClass = .store :=
  ⟨next_after (by decide), by decide, next_after (by decide), by decide⟩

/-- r1 holds the end of RDRAM. -/
def atEnd : State := regs2 0x00400000#64 0x0123456789ABCDEF#64
theorem wit_access_b1 : effectiveAddress atEnd 1#5 0xFFFF#16 = .ok 0x003FFFFF#32 ∧
    atEnd.mem.regionOf 0x003FFFFF 1 = some atEnd.mem.rdram := ⟨rfl, by decide⟩
theorem wit_access_b2 : effectiveAddress atEnd 1#5 0xFFFE#16 = .ok 0x003FFFFE#32 ∧ 0x003FFFFE % 2 = 0 ∧
    atEnd.mem.regionOf 0x003FFFFE 2 = some atEnd.mem.rdram := ⟨rfl, by decide, by decide⟩
theorem wit_access_b4 : effectiveAddress atEnd 1#5 0xFFFC#16 = .ok 0x003FFFFC#32 ∧ 0x003FFFFC % 4 = 0 ∧
    atEnd.mem.regionOf 0x003FFFFC 4 = some atEnd.mem.rdram := ⟨rfl, by decide, by decide⟩
theorem wit_access_b8 : effectiveAddress atEnd 1#5 0xFFF8#16 = .ok 0x003FFFF8#32 ∧ 0x003FFFF8 % 8 = 0 ∧
    atEnd.mem.regionOf 0x003FFFF8 8 = some atEnd.mem.rdram := ⟨rfl, by decide, by decide⟩
theorem wit_load_cartridge : effectiveAddress (two 0#32 [(1#5, 0x10000000#64)]) 1#5 0#16 = .ok 0x10000000#32 ∧
    ((two 0#32 [(1#5, 0x10000000#64)]).mem.regionOf 0x10000000 8).isSome = true := ⟨rfl, by decide⟩

theorem wit_checks_misaligned : (0x00000001#32).toNat % Width.b2.bytes ≠ 0 ∧ (0x00000004#32).toNat % Width.b8.bytes ≠ 0 := by
  decide
theorem wit_checks_unmapped : (0x00400000#32).toNat % Width.b1.bytes = 0 ∧
    ∀ g ∈ (two 0#32 []).mem.regions,
      ¬ (g.base ≤ (0x00400000#32).toNat ∧ (0x00400000#32).toNat + Width.b1.bytes ≤ g.base + g.length) := by decide
theorem wit_checks_mapped : (0x10000000#32).toNat % Width.b8.bytes = 0 ∧
    (two 0#32 []).mem.regionOf (0x10000000#32).toNat Width.b8.bytes = some (two 0#32 []).mem.cartridge ∧
    (two 0#32 []).mem.cartridge.permission = .readOnly ∧
    (0x003FFFFF#32).toNat % Width.b1.bytes = 0 ∧
    (two 0#32 []).mem.regionOf (0x003FFFFF#32).toNat Width.b1.bytes = some (two 0#32 []).mem.rdram ∧
    (two 0#32 []).mem.rdram.permission = .readWrite := by decide

theorem wit_dataFaults_misaligned : effectiveAddress atEnd 1#5 0xFFFD#16 = .ok 0x003FFFFD#32 ∧
    atEnd.mem.read 0x003FFFFD#32 .b4 = .error .misaligned ∧
    atEnd.mem.checkWrite 0x003FFFFD#32 .b4 = .error .misaligned := ⟨rfl, rfl, rfl⟩
theorem wit_dataFaults_unmapped : effectiveAddress atEnd 1#5 0#16 = .ok 0x00400000#32 ∧
    atEnd.mem.read 0x00400000#32 .b1 = .error .unmapped ∧
    atEnd.mem.checkWrite 0x00400000#32 .b1 = .error .unmapped := ⟨rfl, rfl, rfl⟩
theorem wit_dataFaults_protected : effectiveAddress (two 0#32 [(1#5, 0x10000000#64)]) 1#5 7#16 = .ok 0x10000007#32 ∧
    (two 0#32 [(1#5, 0x10000000#64)]).mem.checkWrite 0x10000007#32 .b1 = .error .writeProtected := ⟨rfl, rfl⟩
theorem wit_mixedWidths : atEnd.mem.wf = true ∧ atEnd.mem.checkWrite 0x003FFFF8#32 .b8 = .ok () := ⟨by decide, rfl⟩

/-- SW at address 0 stores to address 4, where the next word is fetched. -/
def storing : State := slotAt (regs2 4#64 0x20080005#64) 0#32 .normal
theorem wit_storedWord : storing.mem.wf = true ∧ storing.stopRequest = false ∧
    exec (.sw 1#5 2#5 0#16) storing = .next (after (exec (.sw 1#5 2#5 0#16) storing)) ∧
    (after (exec (.sw 1#5 2#5 0#16) storing)).status = .running ∧
    effectiveAddress storing 1#5 0#16 = .ok (after (exec (.sw 1#5 2#5 0#16) storing)).pc :=
  ⟨by decide, rfl, next_after (by decide), by decide, rfl⟩

/-! Transfers. -/

theorem wit_transfer : plainNop.delay = .normal ∧ 30#5 ≠ 31#5 ∧ Usable32 plainNop (plainNop.reg 1#5) ∧ 1#5 ≠ 31#5 :=
  ⟨rfl, by decide, .inl (by decide), by decide⟩
theorem wit_transferFaults : (regs2 wide 0#64).delay = .normal ∧
    ¬ Usable32 (regs2 wide 0#64) ((regs2 wide 0#64).reg 1#5) ∧ 1#5 ≠ 0#5 :=
  ⟨rfl, fun h => h.elim (by decide) (by decide), by decide⟩

/-- JR r1 to a target that is not word-aligned, and to the first address past the cartridge. -/
def jumpOdd : State := two 0x00200008#32 [(1#5, 0x10000001#64)]
def jumpPast : State := two 0x00200008#32 [(1#5, 0x10000008#64)]
theorem wit_badTarget_held : jumpOdd.pc.toNat % 4 = 0 ∧ exec (.jr 1#5) jumpOdd = .next (after (exec (.jr 1#5) jumpOdd)) ∧
    (after (exec (.jr 1#5) jumpOdd)).status = .running ∧
    (after (exec (.jr 1#5) jumpOdd)).delay = .slotTaken 0x10000001#32 ∧ (0x10000001#32).toNat % 4 ≠ 0 :=
  ⟨by decide, next_after (by decide), by decide, by decide, by decide⟩
theorem wit_badTarget_jalr : exec (.jalr 1#5 2#5) jumpOdd = .next (after (exec (.jalr 1#5 2#5) jumpOdd)) ∧
    (after (exec (.jalr 1#5 2#5) jumpOdd)).status = .running := ⟨next_after (by decide), by decide⟩
theorem wit_badTarget_odd : (after (step jumpOdd)).delay = .slotTaken 0x10000001#32 ∧
    step (after (step jumpOdd)) = .next (after (step (after (step jumpOdd)))) ∧
    (after (step (after (step jumpOdd)))).status = .running ∧ (after (step (after (step jumpOdd)))).stopRequest = false :=
  ⟨by decide, next_after (by decide), by decide, by decide⟩
theorem wit_badTarget_past : (after (step jumpPast)).delay = .slotTaken 0x10000008#32 ∧
    step (after (step jumpPast)) = .next (after (step (after (step jumpPast)))) ∧
    (after (step (after (step jumpPast)))).status = .running ∧ (after (step (after (step jumpPast)))).stopRequest = false ∧
    (0x10000008#32).toNat % 4 = 0 ∧ (after (step (after (step jumpPast)))).mem.regionOf 0x10000008 4 = none :=
  ⟨by decide, next_after (by decide), by decide, by decide, by decide, by decide⟩

/-! The host and the loader. -/

theorem wit_runContinues : runLoop 1 [] jumping = .next (after (step jumping), 1) ∧
    runLoop 1 [] (after (step jumping)) = .next (after (step (after (step jumping))), 1) := ⟨rfl, rfl⟩
/-- One more step of budget, from status Ready and Running, with and without a stop request arriving. -/
theorem wit_run_oneMore : jumping.status = .ready ∧
    step { jumping with stopRequest := jumping.stopRequest || false } = .next (after (step jumping)) ∧
    hostCall (.run 0 []) (after (step jumping)) =
      .next (after (step jumping), .ran { status := .running, steps := 0, fault := none }) := ⟨rfl, rfl, rfl⟩
theorem wit_run_oneMore_stopped : busy.status = .running ∧
    step { busy with stopRequest := busy.stopRequest || true } = .next (after (step busy.requestStop)) ∧
    hostCall (.run 1 [true]) (after (step busy.requestStop)) =
      .next (after (step busy.requestStop), .ran { status := .halted, steps := 0, fault := none }) := ⟨rfl, rfl, rfl⟩
theorem wit_newInterpreter : ∃ s, s = newInterpreter (mountedMemory 0#32 1 (image [])) 4#32 Config.default := ⟨_, rfl⟩

theorem wit_loader_bigEndian : (loadCartridge [0x80#8, 0x37#8, 0x12#8, 0x40#8, 0x01#8]).kind = .bigEndian := by decide
theorem wit_loader_byteSwapped : (loadCartridge [0x37#8, 0x80#8, 0x40#8, 0x12#8, 0x01#8]) =
    { bytes := [0x80#8, 0x37#8, 0x12#8, 0x40#8, 0x01#8], kind := .byteSwapped } ∧ 2 * 1 + 1 < 5 ∧ 2 * 2 + 1 = 5 := by decide
theorem wit_loader_littleEndian : (loadCartridge [0x40#8, 0x12#8, 0x37#8, 0x80#8, 0x01#8, 0x02#8, 0x03#8]) =
    { bytes := [0x80#8, 0x37#8, 0x12#8, 0x40#8, 0x01#8, 0x02#8, 0x03#8], kind := .littleEndian } ∧
    4 * 0 + 3 < 7 ∧ 4 * 1 + 2 < 7 ∧ 7 ≤ 4 * 1 + 3 := by decide
theorem wit_loader_unknown : (loadCartridge [0x80#8, 0x37#8, 0x12#8]).kind = .unknown := by decide

theorem wit_mount_empty : 0 < 1 ∧ (0xFFFFFFFF#32).toNat + 1 ≤ 0x100000000 ∧ (image []).bytes = [] := by decide
theorem wit_mount_below : (0x0FFFFFFF#32).toNat + 1 ≤ 0x10000000 ∧ 0x10000000 + (image [0#32]).bytes.length ≤ 0x100000000 := by
  decide
theorem wit_mount_above : 0x10000000 + (image [0#32]).bytes.length ≤ (0x10000004#32).toNat := by decide
theorem wit_mount_overlap : ¬ ((image [0#32]).bytes = [] ∨ (0x0FFFFFFF#32).toNat + 2 ≤ 0x10000000 ∨
    0x10000000 + (image [0#32]).bytes.length ≤ (0x0FFFFFFF#32).toNat) := by decide
theorem image_of_length (n : Nat) : ∃ image : CartridgeImage, image.bytes.length = n :=
  ⟨{ bytes := List.replicate n 0#8, kind := .unknown }, List.length_replicate⟩
theorem wit_mount_tooLong : ∃ image : CartridgeImage, ¬ (0x10000000 + image.bytes.length ≤ 0x100000000) := by
  obtain ⟨image, h⟩ := image_of_length 0xF0000001
  exact ⟨image, by omega⟩

theorem wit_hostAccess : 0 < 32 ∧ 31 < 32 ∧ 32 ≤ 32 ∧ atEnd.mem.read 0x00400000#32 .b8 = .error .unmapped ∧
    (two 0#32 []).mem.checkWrite 0x10000000#32 .b8 = .error .writeProtected := ⟨by decide, by decide, by decide, rfl, rfl⟩
/-- Host accesses that pass: the last byte and doubleword of RDRAM, the first and the last byte of the cartridge. -/
theorem wit_hostAccess_ok : atEnd.mem.read 0x003FFFFF#32 .b1 = .ok 0#64 ∧
    (two 0x20080005#32 []).mem.read 0x10000000#32 .b8 = .ok 0x2008000500000000#64 ∧
    (two 0x20080005#32 []).mem.read 0x10000007#32 .b1 = .ok 0#64 ∧
    atEnd.mem.checkWrite 0x003FFFF8#32 .b8 = .ok () ∧ atEnd.mem.checkWrite 0x003FFFFF#32 .b1 = .ok () ∧
    atEnd.mem.wf = true := ⟨rfl, rfl, rfl, rfl, rfl, by decide⟩

end Sys2Proof.Tests
end

section
/-! SUPPORT and PROOF of O19, HiLoAccessIsConfined (R24). Writes: `exec` commits an effect or takes a fault, and only
the effects of the multiplies, the divides, MTHI and MTLO name HI or LO. Reads: only the effects of MFHI and MFLO
depend on HI and LO, and committing one effect from two states that differ in HI and LO only gives two such states. -/

namespace Sys2Proof.Machine

/-! ### Writes of HI and LO -/

/-- The multiplies and divides are the only instructions that compute HI and LO (R121). -/
theorem hiLoUse_eq_computes {i : Instr} (h : hiLoUse i = .computes) :
    ∃ rs rt, i = .mult rs rt ∨ i = .multu rs rt ∨ i = .div rs rt ∨ i = .divu rs rt := by
  cases i
  case mult rs rt | multu rs rt | div rs rt | divu rs rt => exact ⟨rs, rt, by simp⟩
  all_goals cases h

/-- The effect of an instruction that does not compute HI and LO leaves HI unless it is MTHI, and LO unless it is MTLO. -/
theorem writeAll_keepsHiLo {i : Instr} {s : State} {f : Effect} (h : effectOf i s = .ok f) (hu : hiLoUse i ≠ .computes) :
    ((∀ rs, i ≠ .mthi rs) → (s.writeAll f.writes).hi = s.hi) ∧
    ((∀ rs, i ≠ .mtlo rs) → (s.writeAll f.writes).lo = s.lo) := by
  cases effectShape h with
  | write | store | transfer | link => simp [Effect.write]
  | hilo _ _ _ hc | divByZero _ hc => exact absurd hc hu
  | mthi rs hi => simp [hi]
  | mtlo rs hi => simp [hi]

/-- Executing such an instruction, completed or faulted, leaves HI unless it is MTHI, and LO unless it is MTLO (R24). -/
theorem exec_keepsHiLo {i : Instr} {s t : State} (h : exec i s = .next t) (hu : hiLoUse i ≠ .computes) :
    ((∀ rs, i ≠ .mthi rs) → t.hi = s.hi) ∧ ((∀ rs, i ≠ .mtlo rs) → t.lo = s.lo) := by
  rcases exec_cases i s with ⟨f, hf, _, he⟩ | ⟨r, _, he⟩ <;> obtain rfl := Host.Outcome.next.inj (h.symm.trans he)
  · simpa using writeAll_keepsHiLo hf hu
  · simp

/-! ### Reads of HI and LO -/

/-- The state with other values in HI and LO. -/
def State.withHiLo (s : State) (h l : Dword) : State := { s with hi := h, lo := l }

/-- Two runs, one from `s` to `t` and one from `s` with HI and LO replaced by `h` and `l`: the second ends in `t` but for
HI and LO, each either equal in both ends or kept in both runs. -/
def AgreesButHiLo (s t : State) (h l : Dword) (t' : State) : Prop :=
  ∃ h' l', t' = t.withHiLo h' l' ∧ (h' = t.hi ∨ (h' = h ∧ t.hi = s.hi)) ∧ (l' = t.lo ∨ (l' = l ∧ t.lo = s.lo))

theorem State.setReg_withHiLo (s : State) (h l : Dword) (r : Reg) (v : Dword) :
    (s.withHiLo h l).setReg r v = (s.setReg r v).withHiLo h l := by
  unfold State.setReg; split <;> rfl

/-- The same register writes, from two states that differ in HI and LO only. -/
theorem State.writeAll_withHiLo (ws : List (RegName × Dword)) (s : State) (h l : Dword) :
    AgreesButHiLo s (s.writeAll ws) h l ((s.withHiLo h l).writeAll ws) := by
  induction ws generalizing s h l with
  | nil => exact ⟨h, l, rfl, .inr ⟨rfl, rfl⟩, .inr ⟨rfl, rfl⟩⟩
  | cons p ws ih =>
    obtain ⟨n, v⟩ := p
    cases n with
    | x r => simpa [AgreesButHiLo, State.setReg_withHiLo] using ih (s.setReg r v) h l
    | hi =>
      obtain ⟨h', l', ht, hh, hl⟩ := ih { s with hi := v } v l
      exact ⟨h', l', ht, .inl (hh.elim id fun ⟨e, k⟩ => e.trans k.symm), hl⟩
    | lo =>
      obtain ⟨h', l', ht, hh, hl⟩ := ih { s with lo := v } h v
      exact ⟨h', l', ht, hh, .inl (hl.elim id fun ⟨e, k⟩ => e.trans k.symm)⟩

/-- The rest of a commit, after the register writes, does not look at HI and LO. -/
theorem State.complete_withHiLo (s : State) (h l : Dword) (st : Option Store) (n : Nat) (u : HiLoUse) (o : BranchOutcome) :
    (((s.withHiLo h l).commitStore st).takeDraws n).finish u o =
      (((s.commitStore st).takeDraws n).finish u o).withHiLo h l := by
  cases st <;> rfl

/-- Committing one effect, from two states that differ in HI and LO only. -/
theorem State.commit_withHiLo (s : State) (i : Instr) (f : Effect) (h l : Dword) :
    AgreesButHiLo s (s.commit i f) h l ((s.withHiLo h l).commit i f) := by
  obtain ⟨h', l', ht, hh, hl⟩ := s.writeAll_withHiLo f.writes h l
  refine ⟨h', l', ?_, by simpa using hh, by simpa using hl⟩
  unfold State.commit
  rw [ht, State.complete_withHiLo]

/-- Executing one computed effect or fault, from two states that differ in HI and LO only (R118). -/
theorem execute_withHiLo {i : Instr} {s t : State} {e : Except Raise Effect} (ht : execute i s e = .next t) (h l : Dword) :
    ∃ t', execute i (s.withHiLo h l) e = .next t' ∧ AgreesButHiLo s t h l t' := by
  have ha : attempt i (s.withHiLo h l) e = attempt i s e := rfl
  unfold execute at ht ⊢
  rw [ha]
  cases hr : attempt i s e with
  | ok f => rw [hr] at ht; cases ht; exact ⟨_, rfl, s.commit_withHiLo i f h l⟩
  | error r => rw [hr] at ht; cases ht; exact ⟨_, rfl, h, l, rfl, .inr ⟨rfl, rfl⟩, .inr ⟨rfl, rfl⟩⟩

/-- The rule of every instruction but MFHI and MFLO computes the same whatever HI and LO hold. -/
theorem effectOf_withHiLo {i : Instr} (hi : ∀ rd, i ≠ .mfhi rd ∧ i ≠ .mflo rd) (s : State) (h l : Dword) :
    effectOf i (s.withHiLo h l) = effectOf i s := by
  cases i
  case mfhi rd => exact absurd rfl (hi rd).1
  case mflo rd => exact absurd rfl (hi rd).2
  all_goals rfl

/-- Settles O19: the effect's shape shows what is written, and running one effect from two states what is read. -/
theorem hiLoAccessIsConfined : Obligations.HiLoAccessIsConfined := by
  refine ⟨fun i s t ht hi => exec_keepsHiLo ht fun hu => ?_, fun i s t h l ht hi => ?_⟩
  · obtain ⟨rs, rt, h⟩ := hiLoUse_eq_computes hu
    have := hi rs rt
    tauto
  · rw [exec_eq_execute] at ht
    obtain ⟨_, he, h', l', rfl, hh, hl⟩ := execute_withHiLo ht h l
    refine ⟨h', l', ?_, hh, hl⟩
    rw [← effectOf_withHiLo hi s h l, ← exec_eq_execute] at he
    exact he

end Sys2Proof.Machine
end

section
/-! SUPPORT and PROOF of O11, FetchReadsWordOrFaults (R113): a fault of the fetch is the fault of the step, and the fetch
is the low word of the read at `pc`. -/

namespace Sys2Proof.Machine

/-- A fetch that faults makes its step fault, with nothing else changed (R113, R276). -/
theorem step_of_fetch_error {s : State} {r : Raise} (hs : Fetches s) (h : fetch s = .error r) :
    step s = .next (s.takeFault s.pc r) := by
  simp [step_eq, plan_of_fetches hs, planFetch, h]

/-- A fetch gives the low word of the 4-byte read at `pc` (R61, R113). -/
theorem fetch_of_read_ok {s : State} {v : Dword} (h : s.mem.read s.pc .b4 = .ok v) : fetch s = .ok (low32 v) := by
  simp [fetch, h, bind, Except.bind, pure, Except.pure]

/-- An aligned read inside one region answers a value (R54 to R56). -/
theorem Memory.read_ok {m : Memory} {a : Word} {n : Width} (h0 : a.toNat % n.bytes = 0)
    (hm : (m.regionOf a.toNat n.bytes).isSome = true) : m.read a n = .ok (m.load a.toNat n.bytes) := by
  rcases m.read_cases a n with ⟨_, h1⟩ | ⟨_, _, h1⟩ | ⟨_, h, _⟩
  · exact absurd h0 h1
  · simp [h1] at hm
  · exact h

/-- Settles O11: the cases of a fetch exclude each other, so each premise picks its own. -/
theorem fetchReadsWordOrFaults : Obligations.FetchReadsWordOrFaults := by
  intro s hs
  refine ⟨fun h0 => ?_, fun h0 hm => ?_, fun h0 hm => ?_⟩
  · rcases fetch_cases s with ⟨h, _⟩ | ⟨_, h1, _⟩ | ⟨_, h1, _⟩
    · exact step_of_fetch_error hs h
    · exact absurd h1 h0
    · exact absurd h1 h0
  · rcases fetch_cases s with ⟨_, h1⟩ | ⟨h, _⟩ | ⟨_, _, h1⟩
    · exact absurd h0 h1
    · exact step_of_fetch_error hs h
    · simp [hm] at h1
  · have hr := Memory.read_ok (n := .b4) h0 hm
    exact ⟨_, hr, fetch_of_read_ok hr⟩

end Sys2Proof.Machine
end

section
/-! SUPPORT and PROOF of O15, CompletedStepAdvances (R119): of all that a step can do, only the skip of an Unknown word
and the commit of an effect end neither Faulted nor Halted, and both complete the step. -/

namespace Sys2Proof.Machine

/-- A skipped word completes as NOP does (R93, R115). -/
theorem State.skipWord_eq_commit (s : State) : s.skipWord = s.commit (.sll 0#5 0#5 0#5) {} := rfl

/-- An instruction that does not fault completes its step (R118, R119, R122). -/
theorem completed_of_exec {i : Instr} {s t : State} (h : exec i s = .next t) (hf : t.status ≠ .faulted) :
    Completed s t := by
  rcases exec_cases i s with ⟨f, _, _, he⟩ | ⟨r, _, he⟩ <;> obtain rfl := Host.Outcome.next.inj (h.symm.trans he)
  · exact completed_commit s i f
  · exact absurd (State.takeFault_status s _ r) hf

/-- A step that ends neither Faulted nor Halted is completed (R119, R122). -/
theorem completed_of_step {s t : State} (h : step s = .next t) (hf : t.status ≠ .faulted) (hh : t.status ≠ .halted) :
    Completed s t := by
  rcases step_cases s with ⟨hs, he⟩ | ⟨_, _, he⟩ | ⟨w, r, _, he⟩ | ⟨_, _, _, _, _, _, he⟩ | ⟨_, i, _, _, he⟩
  on_goal 5 => exact completed_of_exec (he.symm.trans h) hf
  all_goals obtain rfl := Host.Outcome.next.inj (h.symm.trans he)
  · exact (hs.elim hf hh).elim
  · exact absurd (State.takeStop_status s) hh
  · exact absurd (State.takeFault_status s w r) hf
  · rw [State.skipWord_eq_commit]; exact completed_commit s _ _

/-- Settles O15: a completed step advances `pc`, and the three delay states are told apart by the pending target. -/
theorem completedStepAdvances : Obligations.CompletedStepAdvances := by
  intro s t h hf hh
  obtain ⟨⟨htaken, hnext⟩, _⟩ := completed_of_step h hf hh
  refine ⟨htaken, fun hd => hnext fun a ha => ?_⟩
  rcases hd with hd | hd <;> rw [hd] at ha <;> cases ha

end Sys2Proof.Machine
end

section
/-! SUPPORT and PROOF of O32, CompareResult, and O33, LogicResult (R144 to R149, R165 to R170): each of these rules
computes one register write in every state, so what is left to show is that the value written is the one stated. -/

namespace Sys2Proof.Machine

/-- An arithmetic instruction whose effect is one register write completes in every state, a delay slot included, and
changes only that register (R20, R21, R116, R118). -/
theorem exec_arithmetic_write {i : Instr} {s : State} {rd : Reg} {v : Dword} (h : effectOf i s = .ok (.write rd v))
    (hc : i.opClass = .arithmeticImmediate ∨ i.opClass = .arithmeticRegister) (hu : hiLoUse i = .other) :
    ∃ t, exec i s = .next t ∧ OnlyWrites s t rd v := by
  have hs : transferInSlot i s = false := by
    rcases hc with hc | hc <;> exact transferInSlot_other s (by simp [hc]) (by simp [hc])
  exact exec_write h hs hu

/-! ### The value of a comparison -/

/-- The signed comparison, in terms of the values compared (R144, R169). -/
theorem boolValue_lessSigned (a b : Dword) : boolValue (lessSigned a b) = if a.toInt < b.toInt then 1#64 else 0#64 := by
  simp [boolValue, lessSigned]

/-- The unsigned comparison, in terms of the values compared (R145, R170). -/
theorem boolValue_lessUnsigned (a b : Dword) :
    boolValue (lessUnsigned a b) = if a.toNat < b.toNat then 1#64 else 0#64 := by
  simp [boolValue, lessUnsigned]

/-! ### The values of the immediates (R84) -/

/-- Sign extension keeps the immediate's signed value. -/
theorem toInt_immSigned64 (imm : BitVec 16) : (immSigned64 imm).toInt = imm.toInt :=
  BitVec.toInt_signExtend_of_le (by omega)

theorem immSigned64_eq_ofInt (imm : BitVec 16) : immSigned64 imm = BitVec.ofInt 64 imm.toInt := rfl

theorem immZero64_eq_ofNat (imm : BitVec 16) : immZero64 imm = BitVec.ofNat 64 imm.toNat :=
  (BitVec.ofNat_toNat 64 imm).symm

/-- LUI's immediate is the signed immediate times 2^16, sign-extended (R149). -/
theorem immUpper64_eq_ofInt (imm : BitVec 16) : immUpper64 imm = BitVec.ofInt 64 (imm.toInt * 65536) := by
  have hval : (imm ++ 0x0000#16).toInt = imm.toInt * 65536 :=
    BitVec.toInt_append_zero.trans (Int.mul_comm _ _)
  rw [← hval]
  rfl

/-! ### The obligations -/

/-- Settles O32: each compare writes the value of its comparison, SLTI and SLTIU that with the sign-extended immediate. -/
theorem compareResult : Obligations.CompareResult := by
  intro s rs rt rd imm
  refine ⟨?slt, ?sltu, ?slti, ?sltiu⟩
  case slt =>
    rw [← boolValue_lessSigned]
    exact exec_arithmetic_write rfl (.inr rfl) rfl
  case sltu =>
    rw [← boolValue_lessUnsigned]
    exact exec_arithmetic_write rfl (.inr rfl) rfl
  case slti =>
    rw [← toInt_immSigned64, ← boolValue_lessSigned]
    exact exec_arithmetic_write rfl (.inl rfl) rfl
  case sltiu =>
    rw [← immSigned64_eq_ofInt, ← boolValue_lessUnsigned]
    exact exec_arithmetic_write rfl (.inl rfl) rfl

/-- Settles O33: the register forms write the stated value as it stands; the immediate forms and LUI write it once the
extended immediate is known by its value. -/
theorem logicResult : Obligations.LogicResult := by
  intro s rs rt rd imm
  rw [← immZero64_eq_ofNat, ← immUpper64_eq_ofInt]
  refine ⟨?and, ?or, ?xor, ?nor, ?andi, ?ori, ?xori, ?lui⟩
  case and | or | xor | nor => exact exec_arithmetic_write rfl (.inr rfl) rfl
  case andi | ori | xori | lui => exact exec_arithmetic_write rfl (.inl rfl) rfl

end Sys2Proof.Machine
end

section
/-! SUPPORT and PROOF of O38, MoveFromHiLoResult (R195, R196): MFHI and MFLO compute one register write in every state;
what sets them apart from the ordinary register writes is the hazard state that completion leaves. -/

namespace Sys2Proof.Machine

/-- A completed instruction that reads HI or LO resets the hazard state (R121). -/
theorem hazardReset_commit {i : Instr} (s : State) (f : Effect) (h : hiLoUse i = .reads) :
    (s.commit i f).sinceHiLoRead = 0 ∧ (s.commit i f).hiloFresh = false := by
  simp [h, nextSinceHiLoRead, nextHiloFresh]

/-- An instruction that reads HI or LO into one register completes, changes only that register, and resets the hazard
state, r0 as destination included (R20, R21, R118, R121). -/
theorem exec_readsOut {i : Instr} {s : State} {rd : Reg} {v : Dword} (h : effectOf i s = .ok (.write rd v))
    (hs : transferInSlot i s = false) (hu : hiLoUse i = .reads) : ∃ t, exec i s = .next t ∧ OnlyReadsOut s t rd v := by
  obtain ⟨hsince, hfresh⟩ := hazardReset_commit s (.write rd v) hu
  refine ⟨_, exec_of_effect h hs, fun r => ?_, ?_, keepsMemory_commit s i rfl, completed_commit s i _, rfl, hsince,
    hfresh, ?_⟩
  · simp [Effect.write, State.reg_setReg]
  · simp [KeepsHiLo, Effect.write]
  · simp [Effect.write]

/-- Settles O38: MFHI and MFLO are no transfers, so no state stops them, and each reads its register out. -/
theorem moveFromHiLoResult : Obligations.MoveFromHiLoResult := by
  intro s rd
  refine ⟨?mfhi, ?mflo⟩
  case mfhi | mflo => exact exec_readsOut rfl (transferInSlot_other s (by simp [Instr.opClass]) (by simp [Instr.opClass])) rfl

end Sys2Proof.Machine
end

section
/-! SUPPORT and PROOF of O14, FaultEntryChangesNothingElse (R276): a step enters Faulted by its plan (fetch or decode)
or by its instruction, and neither has an effect to commit or a skip to log. -/

namespace Sys2Proof.Machine

/-- A planned fault has no effect to commit and logs no skip (R124). -/
theorem commitsNothing_of_raise {s : State} {w : Word} {r : Raise} (h : plan s = .raise w r) :
    committedEffect s = none ∧ skipLog s = none := by
  simp [committedEffect, skipLog, h]

/-- An instruction that raises has no effect to commit and logs no skip (R118, R124). -/
theorem commitsNothing_of_attempt {s : State} {i : Instr} {r : Raise} (h : plan s = .run i)
    (hr : attempt i s (effectOf i s) = .error r) : committedEffect s = none ∧ skipLog s = none := by
  simp [committedEffect, skipLog, h, hr]

/-- A step that enters Faulted took a fault, committed no effect and logged no skip (R118, R276). -/
theorem takesFault_of_step {s t : State} (h : step s = .next t) (hs : s.status ≠ .faulted)
    (ht : t.status = .faulted) :
    ∃ w r, t = s.takeFault w r ∧ committedEffect s = none ∧ skipLog s = none := by
  rw [step_eq] at h
  cases hp : plan s <;> rw [hp] at h
  case stopped => cases h; exact absurd ht hs
  case halt => cases h; simp at ht
  case skip => cases h; simp [State.skipWord_eq_commit] at ht
  case raise w r => cases h; exact ⟨w, r, rfl, commitsNothing_of_raise hp⟩
  case run i =>
    rcases exec_cases i s with ⟨f, _, _, he⟩ | ⟨r, hr, he⟩ <;> obtain rfl := Host.Outcome.next.inj (h.symm.trans he)
    · simp at ht
    · exact ⟨encode i, r, rfl, commitsNothing_of_attempt hp hr⟩

/-- The result of a step that takes a fault and commits nothing: the record, no delta and no memory write (R124). -/
theorem stepResult_takeFault {s : State} (w : Word) (r : Raise) (hc : committedEffect s = none)
    (hl : skipLog s = none) :
    stepResult s (s.takeFault w r) =
      { status := .faulted, pc := s.pc, fault := some { kind := r.kind, info := r.info w, pc := s.pc }, deltas := [],
        memWrite := none, log := none } := by
  simp [stepResult, hc, hl]

/-- Settles O14: the new state is the fault entry itself, and its result and `pc` are read off it. -/
theorem faultEntryChangesNothingElse : Obligations.FaultEntryChangesNothingElse := by
  intro s t h hs ht
  obtain ⟨w, r, rfl, hc, hl⟩ := takesFault_of_step h hs ht
  refine ⟨r.kind, r.info w, takeFault_eq s w r, ?_, rfl⟩
  rw [hostCall, h, changing, stepResult_takeFault w r hc hl]

end Sys2Proof.Machine
end

section
/-! SUPPORT and PROOF of O1, DecodeInvertsEncode, O2, EncodeInvertsDecode, O5, NonzeroReservedFieldIsUnknown, and O6,
WrittenOutWordsDecode (R80 to R91): what the decoder answers for a word given by its fields, and that every word is
given by its fields. -/

namespace Sys2Proof

/-! ### Decoding a word given by its fields -/

@[simp] theorem whenReservedZero_true (w : Word) (i : Instr) : whenReservedZero true w i = .known i := rfl
@[simp] theorem whenReservedZero_false (w : Word) (i : Instr) :
    whenReservedZero false w i = .unknown .reservedField w := rfl

/-- An R-type word is decoded by its function code (R88, R89). -/
@[simp] theorem decode_encodeR (rs rt rd : Reg) (sa : BitVec 5) (f : BitVec 6) :
    decode (encodeR rs rt rd sa f) = decodeSpecial (encodeR rs rt rd sa f) := by
  simp [decode]

/-- A REGIMM word is decoded by its selector (R88, R90). -/
@[simp] theorem decode_encodeI_regimm (rs rt : Reg) (imm : BitVec 16) :
    decode (encodeI 0x01#6 rs rt imm) = decodeRegimm (encodeI 0x01#6 rs rt imm) := by
  simp [decode]

/-- Settles O1: the encoder puts every field where the decoder reads it, format by format. -/
theorem decodeInvertsEncode : Obligations.DecodeInvertsEncode := by
  intro i
  cases i
  case j | jal => simp [encode, decode]
  case bltz | bgez | bltzal | bgezal => simp [encode, decodeRegimm]
  case beq | bne | blez | bgtz | addi | addiu | slti | sltiu | andi | ori | xori | lui => simp [encode, decode]
  case lb | lh | lw | lbu | lhu | lwu | sb | sh | sw | ld | sd => simp [encode, decode]
  all_goals simp [encode, decodeSpecial]

/-! ### The word of a decoded instruction -/

/-- An instruction decoded under a reserved-field condition: the condition holds (R91). -/
theorem whenReservedZero_eq_known {b : Bool} {w : Word} {i k : Instr} (h : whenReservedZero b w i = .known k) :
    b = true ∧ i = k := by
  cases b
  · cases h
  · exact ⟨rfl, DecodedInstruction.known.inj h⟩

/-- A SPECIAL word is the R-type word of its fields (R82). -/
theorem encodeR_fields {w : Word} {f : BitVec 6} (ho : opField w = 0x00#6) (hf : functField w = f) :
    encodeR (rsField w) (rtField w) (rdField w) (saField w) f = w := by
  conv_rhs => rw [← append_fieldsR w, ho, hf]
  rfl

/-- Every word is the I-type word of its fields (R82). -/
theorem encodeI_fields {w : Word} {op : BitVec 6} (ho : opField w = op) :
    encodeI op (rsField w) (rtField w) (immField w) = w := by
  conv_rhs => rw [← append_fieldsI w, ho]
  rfl

/-- Every word is the J-type word of its fields (R82). -/
theorem encodeJ_fields {w : Word} {op : BitVec 6} (ho : opField w = op) : encodeJ op (targetField w) = w := by
  conv_rhs => rw [← append_fieldsJ w, ho]
  rfl

/-- A field known by its number is known as a bit vector. -/
theorem eq_ofNat_of_toNat {n k : Nat} {x : BitVec n} (h : x.toNat = k) : x = BitVec.ofNat n k := by
  rw [← h, BitVec.ofNat_toNat, BitVec.setWidth_eq]

theorem encode_of_decodeSpecial {w : Word} {i : Instr} (ho : opField w = 0x00#6) (h : decodeSpecial w = .known i) :
    encode i = w := by
  unfold decodeSpecial at h
  split at h
  on_goal 27 => cases h
  all_goals
    next hf =>
    obtain ⟨hz, rfl⟩ := whenReservedZero_eq_known h
    simp only [Bool.and_eq_true, beq_iff_eq, and_assoc] at hz
    have hw := encodeR_fields ho (eq_ofNat_of_toNat hf)
    simp only [hz] at hw
    exact hw

theorem encode_of_decodeRegimm {w : Word} {i : Instr} (ho : opField w = 0x01#6) (h : decodeRegimm w = .known i) :
    encode i = w := by
  have hw := encodeI_fields ho
  unfold decodeRegimm at h
  split at h
  on_goal 5 => cases h
  all_goals
    next hr =>
    cases h
    rw [eq_ofNat_of_toNat hr] at hw
    exact hw

/-- Settles O2: the fields that the decoder reads, with those it requires to be zero, are all of the word. -/
theorem encodeInvertsDecode : Obligations.EncodeInvertsDecode := by
  intro w i h
  unfold decode at h
  split at h
  case h_28 => cases h
  case h_1 ho => exact encode_of_decodeSpecial (eq_ofNat_of_toNat ho) h
  case h_2 ho => exact encode_of_decodeRegimm (eq_ofNat_of_toNat ho) h
  case h_3 ho | h_4 ho => cases h; exact encodeJ_fields (eq_ofNat_of_toNat ho)
  case h_7 ho | h_8 ho | h_16 ho =>
    obtain ⟨hz, rfl⟩ := whenReservedZero_eq_known h
    have hw := encodeI_fields (eq_ofNat_of_toNat ho)
    rw [beq_iff_eq.1 hz] at hw
    exact hw
  all_goals
    next ho =>
    cases h
    exact encodeI_fields (eq_ofNat_of_toNat ho)

/-! ### The reserved fields, line by line -/

/-- Settles O5: in each line of the table some reserved field is not zero, so its condition fails. -/
theorem nonzeroReservedFieldIsUnknown : Obligations.NonzeroReservedFieldIsUnknown := by
  intro rs rt rd sa imm
  refine ⟨?shiftConst, ?shiftReg, ?threeReg, ?mulDiv, ?moveFrom, ?moveTo, ?jr, ?jalr, ?branchZero, ?lui⟩
  case shiftConst | shiftReg | threeReg => simp +contextual [decodeSpecial, whenReservedZero]
  case branchZero | lui => simp +contextual [decode, whenReservedZero]
  case mulDiv | moveFrom | moveTo | jr | jalr => simp +contextual [decodeSpecial, whenReservedZero]; tauto

/-- Settles O6: each word is evaluated. -/
theorem writtenOutWordsDecode : Obligations.WrittenOutWordsDecode := by
  refine ⟨?_, ?_, ?_, ?_, ?_, ?_, ?_, ?_, ?_, ?_, ?_, ?_⟩ <;> decide

end Sys2Proof
end

section
/-! SUPPORT and PROOF of O4, DecodedInstructionIsItsRow, and O3, UnknownIsEveryWordOfNoRow (R88 to R91, R97): the rows
of the opcode table exclude each other, and the words they match are those that decode to an instruction. -/

namespace Sys2Proof

/-! ### The rows exclude each other -/

theorem opcodeRows_disjoint : opcodeRows.Pairwise (fun r q => r.disjoint q = true) := by decide

theorem opcodeRows_mnemonic_nodup : (opcodeRows.map OpcodeRow.mnemonic).Nodup := by decide

/-- Two rows with the same mnemonic are one. -/
theorem opcodeRow_eq_of_mnemonic {r q : OpcodeRow} (hr : r ∈ opcodeRows) (hq : q ∈ opcodeRows)
    (h : r.mnemonic = q.mnemonic) : r = q :=
  List.inj_on_of_nodup_map opcodeRows_mnemonic_nodup hr hq h

/-- No word matches two disjoint rows: its bits under both masks would be those of both patterns (R97). -/
theorem OpcodeRow.not_matchesWord_both {r q : OpcodeRow} {w : Word} (hd : r.disjoint q = true)
    (hr : r.matchesWord w = true) (hq : q.matchesWord w = true) : False := by
  simp only [OpcodeRow.disjoint, OpcodeRow.matchesWord, bne_iff_ne, beq_iff_eq] at hd hr hq
  apply hd
  rw [← hr, ← hq]
  simp only [BitVec.and_assoc]
  rw [← BitVec.and_assoc r.mask r.mask, BitVec.and_self, BitVec.and_comm r.mask q.mask,
    ← BitVec.and_assoc q.mask q.mask, BitVec.and_self]

/-- Two rows that match one word are one (R97). -/
theorem opcodeRow_eq_of_matchesWord {r q : OpcodeRow} {w : Word} (hr : r ∈ opcodeRows) (hq : q ∈ opcodeRows)
    (hrw : r.matchesWord w = true) (hqw : q.matchesWord w = true) : r = q := by
  by_contra hne
  have hd : r.disjoint q = true ∨ q.disjoint r = true := by
    obtain ⟨i, hi, rfl⟩ := List.mem_iff_getElem.1 hr
    obtain ⟨k, hk, rfl⟩ := List.mem_iff_getElem.1 hq
    have hpair := List.pairwise_iff_getElem.1 opcodeRows_disjoint
    rcases Nat.lt_trichotomy i k with h | rfl | h
    · exact .inl (hpair _ _ _ _ h)
    · exact absurd rfl hne
    · exact .inr (hpair _ _ _ _ h)
  rcases hd with hd | hd
  · exact OpcodeRow.not_matchesWord_both hd hrw hqw
  · exact OpcodeRow.not_matchesWord_both hd hqw hrw

/-! ### The row of a decoded instruction -/

open Laws in
/-- The family MatchesRow, for every instruction. -/
theorem matchesRow (i : Instr) : MatchesRow.Statement i := by
  cases i
  exacts [MatchesRow.sll .., MatchesRow.srl .., MatchesRow.sra .., MatchesRow.sllv .., MatchesRow.srlv ..,
    MatchesRow.srav .., MatchesRow.jr .., MatchesRow.jalr .., MatchesRow.mfhi .., MatchesRow.mthi ..,
    MatchesRow.mflo .., MatchesRow.mtlo .., MatchesRow.mult .., MatchesRow.multu .., MatchesRow.div ..,
    MatchesRow.divu .., MatchesRow.add .., MatchesRow.addu .., MatchesRow.sub .., MatchesRow.subu ..,
    MatchesRow.and .., MatchesRow.or .., MatchesRow.xor .., MatchesRow.nor .., MatchesRow.slt .., MatchesRow.sltu ..,
    MatchesRow.bltz .., MatchesRow.bgez .., MatchesRow.bltzal .., MatchesRow.bgezal .., MatchesRow.j ..,
    MatchesRow.jal .., MatchesRow.beq .., MatchesRow.bne .., MatchesRow.blez .., MatchesRow.bgtz ..,
    MatchesRow.addi .., MatchesRow.addiu .., MatchesRow.slti .., MatchesRow.sltiu .., MatchesRow.andi ..,
    MatchesRow.ori .., MatchesRow.xori .., MatchesRow.lui .., MatchesRow.lb .., MatchesRow.lh .., MatchesRow.lw ..,
    MatchesRow.lbu .., MatchesRow.lhu .., MatchesRow.lwu .., MatchesRow.sb .., MatchesRow.sh .., MatchesRow.sw ..,
    MatchesRow.ld .., MatchesRow.sd ..]

/-- A word that decodes to an instruction matches the row of its mnemonic (R88 to R91). -/
theorem matchesWord_of_decode {w : Word} {i : Instr} (h : decode w = .known i) :
    ∃ r ∈ opcodeRows, r.mnemonic = i.mnemonic ∧ r.matchesWord w = true := by
  obtain ⟨r, hr, hm, he⟩ := matchesRow i
  rw [encodeInvertsDecode w i h] at he
  exact ⟨r, hr, hm, beq_iff_eq.2 he⟩

/-- Settles O4: the row of the mnemonic matches, and neither a word nor a mnemonic has two rows. -/
theorem decodedInstructionIsItsRow : Obligations.DecodedInstructionIsItsRow := by
  intro w i h r hr
  obtain ⟨q, hq, hm, hqw⟩ := matchesWord_of_decode h
  constructor
  · intro hrw
    rw [opcodeRow_eq_of_matchesWord hr hq hrw hqw, hm]
  · intro hrm
    rwa [opcodeRow_eq_of_mnemonic hr hq (hrm.trans hm.symm)]

/-! ### A word that matches a row decodes to an instruction -/

/-- A word matches a row when each of its fields does, under the field of the mask (R81). -/
theorem OpcodeRow.fields_of_matchesWord {r : OpcodeRow} {w : Word} (h : r.matchesWord w = true) :
    opField w &&& opField r.mask = opField r.pattern ∧ rsField w &&& rsField r.mask = rsField r.pattern ∧
    rtField w &&& rtField r.mask = rtField r.pattern ∧ rdField w &&& rdField r.mask = rdField r.pattern ∧
    saField w &&& saField r.mask = saField r.pattern ∧ functField w &&& functField r.mask = functField r.pattern := by
  rw [← beq_iff_eq.1 h]
  simp only [opField, rsField, rtField, rdField, saField, functField, BitVec.extractLsb'_and, and_self]

theorem and_allOnes6 (x : BitVec 6) : x &&& 0x3F#6 = x := BitVec.and_allOnes
theorem and_allOnes5 (x : BitVec 5) : x &&& 0x1F#5 = x := BitVec.and_allOnes

/-- A word that matches a row decodes to an instruction: the fields that the mask holds are those the decoder tests. -/
theorem decode_of_matchesWord {r : OpcodeRow} {w : Word} (hr : r ∈ opcodeRows) (h : r.matchesWord w = true) :
    ∃ i, decode w = .known i := by
  have hf := OpcodeRow.fields_of_matchesWord h
  clear h
  revert r
  simp only [opcodeRows, opcodeRowsSpecial, opcodeRowsTransfer, opcodeRowsImmediate, List.forall_mem_append,
    List.forall_mem_cons, List.not_mem_nil, false_imp_iff, implies_true, and_true]
  and_intros
  all_goals
    intro hf
    simp [opField, rsField, rtField, rdField, saField, functField, and_allOnes6, and_allOnes5] at hf
    simp [decode, decodeSpecial, decodeRegimm, opField, rsField, rtField, rdField, saField, functField, hf]

/-- The table's words are those that decode to an instruction (R97). -/
theorem isTableWord_iff (w : Word) : isTableWord w = true ↔ ∃ i, decode w = .known i := by
  simp only [isTableWord, List.any_eq_true]
  constructor
  · rintro ⟨r, hr, h⟩
    exact decode_of_matchesWord hr h
  · rintro ⟨i, h⟩
    obtain ⟨r, hr, _, hrw⟩ := matchesWord_of_decode h
    exact ⟨r, hr, hrw⟩

/-! ### The words that decode as Unknown, case by case -/

/-- The primary opcodes that R88 admits. -/
def admittedOpcodes : List Nat :=
  [0x00, 0x01, 0x02, 0x03, 0x04, 0x05, 0x06, 0x07, 0x08, 0x09, 0x0A, 0x0B, 0x0C, 0x0D, 0x0E, 0x0F,
   0x20, 0x21, 0x23, 0x24, 0x25, 0x27, 0x28, 0x29, 0x2B, 0x37, 0x3F]

/-- The function codes that R89 admits. -/
def admittedFunctions : List Nat :=
  [0x00, 0x02, 0x03, 0x04, 0x06, 0x07, 0x08, 0x09, 0x10, 0x11, 0x12, 0x13, 0x18, 0x19, 0x1A, 0x1B,
   0x20, 0x21, 0x22, 0x23, 0x24, 0x25, 0x26, 0x27, 0x2A, 0x2B]

/-- The selectors that R90 admits. -/
def admittedSelectors : List Nat := [0x00, 0x01, 0x10, 0x11]

/-- An opcode that is not admitted is Unknown by the opcode case (R88, R97). -/
theorem decode_opcode {w : Word} (h : (opField w).toNat ∉ admittedOpcodes) : decode w = .unknown .opcode w := by
  unfold decode
  split
  case h_28 => rfl
  all_goals next ho => simp [ho, admittedOpcodes] at h

/-- A function code that is not admitted is Unknown by the function case (R89, R97). -/
theorem decodeSpecial_function {w : Word} (h : (functField w).toNat ∉ admittedFunctions) :
    decodeSpecial w = .unknown .function w := by
  unfold decodeSpecial
  split
  case h_27 => rfl
  all_goals next hf => simp [hf, admittedFunctions] at h

/-- A selector that is not admitted is Unknown by the selector case (R90, R97). -/
theorem decodeRegimm_selector {w : Word} (h : (rtField w).toNat ∉ admittedSelectors) :
    decodeRegimm w = .unknown .selector w := by
  unfold decodeRegimm
  split
  case h_5 => rfl
  all_goals next hr => simp [hr, admittedSelectors] at h

/-- The opcode 0 leads to the function codes, the opcode 1 to the selectors (R88). -/
theorem decode_special {w : Word} (h : opField w = 0x00#6) : decode w = decodeSpecial w := by simp [decode, h]
theorem decode_regimm {w : Word} (h : opField w = 0x01#6) : decode w = decodeRegimm w := by simp [decode, h]

/-- What a word that decodes as Unknown shows: its case, with the field that put it there, and the word (R97, D18). -/
inductive UnknownShape (w : Word) : UnknownCase → Word → Prop where
  | opcode (h : (opField w).toNat ∉ admittedOpcodes) : UnknownShape w .opcode w
  | function (ho : opField w = 0x00#6) (h : (functField w).toNat ∉ admittedFunctions) : UnknownShape w .function w
  | selector (ho : opField w = 0x01#6) (h : (rtField w).toNat ∉ admittedSelectors) : UnknownShape w .selector w
  | reservedField : UnknownShape w .reservedField w

/-- A reserved-field condition that fails is the only way it gives Unknown (R91). -/
theorem unknownShape_whenReservedZero {b : Bool} {w u : Word} {i : Instr} {c : UnknownCase}
    (h : whenReservedZero b w i = .unknown c u) : UnknownShape w c u := by
  cases b <;> cases h
  exact .reservedField

theorem unknownShape_decodeSpecial {w u : Word} {c : UnknownCase} (ho : opField w = 0x00#6)
    (h : decodeSpecial w = .unknown c u) : UnknownShape w c u := by
  by_cases hf : (functField w).toNat ∈ admittedFunctions
  · unfold decodeSpecial at h
    split at h
    case h_27 => simp_all [admittedFunctions]
    all_goals exact unknownShape_whenReservedZero h
  · rw [decodeSpecial_function hf] at h
    cases h
    exact .function ho hf

theorem unknownShape_decodeRegimm {w u : Word} {c : UnknownCase} (ho : opField w = 0x01#6)
    (h : decodeRegimm w = .unknown c u) : UnknownShape w c u := by
  by_cases hr : (rtField w).toNat ∈ admittedSelectors
  · unfold decodeRegimm at h
    split at h
    case h_5 => simp_all [admittedSelectors]
    all_goals cases h
  · rw [decodeRegimm_selector hr] at h
    cases h
    exact .selector ho hr

/-- Every word that decodes as Unknown has one of the shapes. -/
theorem unknownShape {w u : Word} {c : UnknownCase} (h : decode w = .unknown c u) : UnknownShape w c u := by
  by_cases ho : (opField w).toNat ∈ admittedOpcodes
  · unfold decode at h
    split at h
    case h_1 h0 => exact unknownShape_decodeSpecial (eq_ofNat_of_toNat h0) h
    case h_2 h1 => exact unknownShape_decodeRegimm (eq_ofNat_of_toNat h1) h
    case h_7 | h_8 | h_16 => exact unknownShape_whenReservedZero h
    case h_28 => simp_all [admittedOpcodes]
    all_goals cases h
  · rw [decode_opcode ho] at h
    cases h
    exact .opcode ho

/-- Unknown by the opcode case is exactly an opcode that is not admitted (R88, R97). -/
theorem decode_eq_opcode_iff (w : Word) : decode w = .unknown .opcode w ↔ (opField w).toNat ∉ admittedOpcodes :=
  ⟨fun h => by cases unknownShape h; assumption, decode_opcode⟩

/-- Unknown by the function case is exactly SPECIAL with a function code that is not admitted (R89, R97). -/
theorem decode_eq_function_iff (w : Word) :
    decode w = .unknown .function w ↔ opField w = 0x00#6 ∧ (functField w).toNat ∉ admittedFunctions :=
  ⟨fun h => by cases unknownShape h; exact ⟨‹_›, ‹_›⟩,
    fun ⟨ho, h⟩ => (decode_special ho).trans (decodeSpecial_function h)⟩

/-- Unknown by the selector case is exactly REGIMM with a selector that is not admitted (R90, R97). -/
theorem decode_eq_selector_iff (w : Word) :
    decode w = .unknown .selector w ↔ opField w = 0x01#6 ∧ (rtField w).toNat ∉ admittedSelectors :=
  ⟨fun h => by cases unknownShape h; exact ⟨‹_›, ‹_›⟩,
    fun ⟨ho, h⟩ => (decode_regimm ho).trans (decodeRegimm_selector h)⟩

/-- Unknown carries the word (R97, D18). -/
theorem unknown_word {w u : Word} {c : UnknownCase} (h : decode w = .unknown c u) : u = w := by
  cases unknownShape h <;> rfl

/-- A word is Unknown exactly when it is no word of the table (R97). -/
theorem isTableWord_eq_false_iff (w : Word) : isTableWord w = false ↔ ∃ c u, decode w = .unknown c u := by
  rw [← Bool.not_eq_true, isTableWord_iff]
  cases h : decode w <;> simp

/-- The remaining case of Unknown: a word of no row that none of the first three cases takes (R91, R97). -/
theorem decode_eq_reservedField_iff (w : Word) :
    decode w = .unknown .reservedField w ↔
      isTableWord w = false ∧ decode w ≠ .unknown .opcode w ∧ decode w ≠ .unknown .function w ∧
      decode w ≠ .unknown .selector w := by
  rw [isTableWord_eq_false_iff]
  constructor
  · intro h
    simp [h]
  · rintro ⟨⟨c, u, h⟩, hno⟩
    cases unknown_word h
    cases c <;> simp_all

/-! ### The fault of an Unknown word -/

open Machine in
/-- Under the Fatal policy a fetched Unknown word faults DecodeUnknown, with the word as info (R115, D18). -/
theorem step_of_unknown_fatal {s : State} {w u : Word} {c : UnknownCase} (hw : FetchesWord s w)
    (hd : decode w = .unknown c u) (hp : s.cfg.unknownPolicy = .fatal) :
    step s = .next (faultedWith s .decodeUnknown w) := by
  cases unknown_word hd
  rw [step_eq, plan_of_word hw, planWord, hd]
  simp only [hp]
  rfl

/-- Settles O3: the shapes of an Unknown word give each case its field, and the rows of the table its words. -/
theorem unknownIsEveryWordOfNoRow : Obligations.UnknownIsEveryWordOfNoRow := by
  refine ⟨fun w => (isTableWord_eq_false_iff w).symm, fun w c u => unknown_word, fun w => ?_, fun w => ?_,
    decode_eq_selector_iff, decode_eq_reservedField_iff, fun s w c u => step_of_unknown_fatal,
    fun r hr q hq w => opcodeRow_eq_of_matchesWord hr hq⟩
  · rw [decode_eq_opcode_iff]
    generalize opField w = x
    revert x
    decide
  · rw [decode_eq_function_iff]
    refine and_congr_right fun _ => ?_
    generalize functField w = x
    revert x
    decide

end Sys2Proof
end

section
/-! SUPPORT and PROOF of O20, OnlyStoresChangeMemory, O25, StepKeepsInvariant, O23, InvariantHoldsAtReset, and O24,
InvariantHoldsAtConstruction: what an effect can hold, in three lemmas; the shapes of a step, said once; and the
invariant, kept by each shape. -/

namespace Sys2Proof.Machine

/-! ### What an effect holds -/

/-- An effect stores nothing, or it is a store's and its write passed the checks (R56, R57, R212). -/
theorem store_of_effect {i : Instr} {s : State} {f : Effect} (h : effectOf i s = .ok f) :
    f.store = none ∨ ∃ ea n v, i.opClass = .store ∧ f.store = some { address := ea, width := n, value := v } ∧
      s.mem.checkWrite ea n = .ok () := by
  cases effectShape h with
  | store ea n v hc _ hw => exact .inr ⟨ea, n, v, hc, rfl, hw⟩
  | write | hilo | divByZero | mthi | mtlo | transfer | link => exact .inl rfl

/-- Only a transfer has a branch outcome (R117, R240). -/
theorem outcome_of_effect {i : Instr} {s : State} {f : Effect} (h : effectOf i s = .ok f) :
    f.outcome = .none ∨ i.opClass = .branch ∨ i.opClass = .jump := by
  cases effectShape h with
  | transfer _ _ hc | link _ _ _ _ hc => exact .inr hc
  | write | hilo | divByZero | mthi | mtlo | store => exact .inl rfl

/-- An instruction that computes HI and LO has passed the read check (R190). -/
theorem sinceHiLoRead_of_computes {i : Instr} {s : State} {f : Effect} (h : effectOf i s = .ok f)
    (hu : hiLoUse i = .computes) : s.sinceHiLoRead = 2 := by
  cases effectShape h with
  | hilo _ _ _ _ hz | divByZero _ _ hz | mthi _ _ hz | mtlo _ _ hz => exact hz
  | write _ _ _ hn => exact absurd hu hn
  | store _ _ _ _ ho | transfer _ _ _ ho | link _ _ _ _ _ ho => rw [ho] at hu; cases hu

/-- A committed effect with a branch outcome comes from outside a delay slot (R116). -/
theorem delay_normal_of_outcome {i : Instr} {s : State} {f : Effect} (h : effectOf i s = .ok f)
    (hs : transferInSlot i s = false) (ho : f.outcome ≠ .none) : s.delay = .normal := by
  by_contra hd
  have hc := (outcome_of_effect h).resolve_left ho
  rw [(transferInSlot_iff i s).2 ⟨hd, hc⟩] at hs
  cases hs

/-- The memory after a committed effect: the old one, or that after one checked store (R57, R118). -/
theorem commit_mem_cases {i : Instr} {s : State} {f : Effect} (h : effectOf i s = .ok f) :
    (s.commit i f).mem = s.mem ∨ ∃ ea n v, i.opClass = .store ∧ s.mem.checkWrite ea n = .ok () ∧
      (s.commit i f).mem = s.mem.store ea.toNat n.bytes v := by
  rcases store_of_effect h with hf | ⟨ea, n, v, hc, hf, hw⟩
  · exact .inl (by rw [State.commit_mem, hf])
  · exact .inr ⟨ea, n, v, hc, hw, by rw [State.commit_mem, hf]⟩

/-- An execution that answers has committed its effect or taken a fault (R118). -/
theorem exec_next {i : Instr} {s t : State} (h : exec i s = .next t) :
    (∃ f, effectOf i s = .ok f ∧ transferInSlot i s = false ∧ t = s.commit i f) ∨
    ∃ r, t = s.takeFault (encode i) r := by
  rcases exec_cases i s with ⟨f, hf, hs, he⟩ | ⟨r, _, he⟩ <;> cases h.symm.trans he
  · exact .inl ⟨f, hf, hs, rfl⟩
  · exact .inr ⟨r, rfl⟩

/-- Settles O20: a fault stores nothing, and only a store's effect does. -/
theorem onlyStoresChangeMemory : Obligations.OnlyStoresChangeMemory := by
  intro i s t h hc
  rcases exec_next h with ⟨f, hf, _, rfl⟩ | ⟨r, rfl⟩
  · rcases store_of_effect hf with hn | ⟨_, _, _, hst, _⟩
    · exact keepsMemory_commit s i hn
    · exact absurd hst hc
  · exact ⟨⟨rfl, rfl, rfl⟩, fun _ => rfl⟩

/-! ### The shapes of a step -/

/-- All that one step from `s` can lead to: nothing done, the stop request taken, a fault, a skipped word, or an
instruction's effect committed (R123). -/
inductive StepShape (s : State) : State → Prop where
  | stopped (h : s.status = .faulted ∨ s.status = .halted) : StepShape s s
  | halt (h : s.status = .ready ∨ s.status = .running) (hr : s.stopRequest = true) : StepShape s s.takeStop
  | fault (w : Word) (r : Raise) (h : Fetches s) : StepShape s (s.takeFault w r)
  | skip (w : Word) (hw : FetchesWord s w) (hd : ∃ c u, decode w = .unknown c u) : StepShape s s.skipWord
  | run (w : Word) (i : Instr) (f : Effect) (hw : FetchesWord s w) (hd : decode w = .known i)
      (hf : effectOf i s = .ok f) (hs : transferInSlot i s = false) : StepShape s (s.commit i f)

/-- Every step answers a next state of one of the shapes. -/
theorem exists_step (s : State) : ∃ t, step s = .next t ∧ StepShape s t := by
  rcases step_cases s with ⟨hst, he⟩ | ⟨hst, hr, he⟩ | ⟨w, r, hf, he⟩ | ⟨w, c, u, hw, hd, _, he⟩ | ⟨w, i, hw, hd, he⟩
  · exact ⟨_, he, .stopped hst⟩
  · exact ⟨_, he, .halt hst hr⟩
  · exact ⟨_, he, .fault w r hf⟩
  · exact ⟨_, he, .skip w hw ⟨c, u, hd⟩⟩
  · rw [he]
    rcases exec_cases i s with ⟨f, hf, hs, he⟩ | ⟨r, _, he⟩
    · exact ⟨_, he, .run w i f hw hd hf hs⟩
    · exact ⟨_, he, .fault (encode i) r hw.1⟩

theorem stepShape {s t : State} (h : step s = .next t) : StepShape s t := by
  obtain ⟨t', he, hs⟩ := exists_step s
  obtain rfl := Host.Outcome.next.inj (h.symm.trans he)
  exact hs

/-! ### The invariant, update by update -/

/-- A register write leaves the slot of r0 alone (R21). -/
theorem State.setReg_x_zero (s : State) (r : Reg) (v : Dword) : (s.setReg r v).x[0] = s.x[0] := by
  unfold State.setReg
  split
  · rfl
  · next hr =>
    have : r.toNat ≠ 0 := fun h => hr (BitVec.eq_of_toNat_eq h)
    simp [this]

theorem State.writeAll_x_zero (ws : List (RegName × Dword)) (s : State) : (s.writeAll ws).x[0] = s.x[0] := by
  induction ws generalizing s with
  | nil => rfl
  | cons p ws ih =>
    obtain ⟨n, v⟩ := p
    rw [State.writeAll_cons, ih]
    cases n with
    | x r => exact s.setReg_x_zero r v
    | hi | lo => rfl

/-- A checked store keeps the canonical form (R54, R57). -/
theorem Memory.wf_store_of_checkWrite {m : Memory} {a : Word} {n : Width} (v : Dword) (h : m.wf = true)
    (hw : m.checkWrite a n = .ok ()) : (m.store a.toNat n.bytes v).wf = true :=
  Memory.wf_store v h fun _ hk => Memory.mapped_of_regionOf (Memory.checkWrite_ok hw).2 hk

/-- A state that may step has no record (R29, R276). -/
theorem State.Inv.fault_eq_none {s : State} (h : s.Inv) (hst : s.status = .ready ∨ s.status = .running) :
    s.fault = none := by
  have : s.status ≠ .faulted := by rcases hst with hst | hst <;> simp [hst]
  simpa [h.recordIff] using this

theorem State.Inv.takeStop {s : State} (h : s.Inv) (hst : s.status = .ready ∨ s.status = .running) :
    s.takeStop.Inv where
  memory := h.memory
  zero := h.zero
  recordIff := by simp [h.fault_eq_none hst]
  recordPc := h.recordPc
  slotAligned := h.slotAligned
  freshAge := h.freshAge
  readyClean := by simp

theorem State.Inv.takeFault {s : State} (h : s.Inv) (w : Word) (r : Raise) : (s.takeFault w r).Inv where
  memory := h.memory
  zero := h.zero
  recordIff := by simp
  recordPc := by simp
  slotAligned := h.slotAligned
  freshAge := h.freshAge
  readyClean := by simp

/-- The hazard state that a completed step leaves keeps an unread result out of reach of a read (R121, R190). -/
theorem nextSinceHiLoRead_of_fresh {u : HiLoUse} {n : Fin 3} {fresh : Bool} (hf : fresh = true → n = 2)
    (hu : u = .computes → n = 2) (h : nextHiloFresh u fresh = true) : nextSinceHiLoRead u n = 2 := by
  cases u with
  | reads => cases h
  | computes => rw [hu rfl]; rfl
  | other => rw [hf h]; rfl

/-- The delay slot of a transfer at an aligned address is at an aligned address (R25, R119). -/
theorem nextPc_aligned {s : State} (hd : s.delay = .normal) (h : s.pc.toNat % 4 = 0) : s.nextPc.toNat % 4 = 0 := by
  rw [State.nextPc_normal hd]
  bv_omega

/-- A commit keeps the invariant when its store does, when only a transfer outside a slot leaves a slot, and when only
an instruction that passed the read check computes HI and LO. -/
theorem State.Inv.commit {s : State} {w : Word} {i : Instr} {f : Effect} (h : s.Inv) (hw : FetchesWord s w)
    (hm : (s.commit i f).mem.wf = true) (ho : f.outcome ≠ .none → s.delay = .normal)
    (hu : hiLoUse i = .computes → s.sinceHiLoRead = 2) : (s.commit i f).Inv := by
  obtain ⟨⟨hst, _⟩, hpc, _⟩ := hw
  have hnone := h.fault_eq_none hst
  refine
    { memory := hm
      zero := ?_
      recordIff := by simp [hnone]
      recordPc := by simp [hnone]
      slotAligned := fun hd => ?_
      freshAge := fun hf => ?_
      readyClean := by simp }
  · simpa [State.writeAll_x_zero] using h.zero
  · rw [State.commit_pc]
    refine nextPc_aligned (ho fun hn => hd ?_) hpc
    simp [hn, BranchOutcome.nextDelay]
  · simp only [State.commit_hiloFresh, State.commit_sinceHiLoRead] at hf ⊢
    exact nextSinceHiLoRead_of_fresh h.freshAge hu hf

/-- Settles O25: each shape of a step keeps the invariant. -/
theorem stepKeepsInvariant : Obligations.StepKeepsInvariant := by
  intro s t h hst
  cases stepShape hst with
  | stopped => exact h
  | halt hs _ => exact h.takeStop hs
  | fault w r _ => exact h.takeFault w r
  | skip w hw _ =>
    rw [State.skipWord_eq_commit]
    exact h.commit hw h.memory (fun hn => absurd rfl hn) (by simp [hiLoUse])
  | run w i f hw _ hf hs =>
    refine h.commit hw ?_ (delay_normal_of_outcome hf hs) (sinceHiLoRead_of_computes hf)
    rcases commit_mem_cases hf with he | ⟨ea, n, v, _, hcw, he⟩
    · rw [he]; exact h.memory
    · rw [he]; exact Memory.wf_store_of_checkWrite v h.memory hcw

/-! ### The invariant at construction -/

/-- The interpreter constructed over an AddressSpace in canonical form has the invariant (R36, R131). -/
theorem inv_newInterpreter {mem : Memory} (h : mem.wf = true) (entryPoint : Word) (cfg : Config) :
    (newInterpreter mem entryPoint cfg).Inv where
  memory := h
  zero := rfl
  recordIff := by simp [newInterpreter, State.reset]
  recordPc := by simp [newInterpreter, State.reset]
  slotAligned := by simp [newInterpreter, State.reset]
  freshAge := by simp [newInterpreter, State.reset]
  readyClean := by simp [newInterpreter, State.reset]

/-- Settles O24: what `mount` builds is in canonical form. -/
theorem invariantHoldsAtConstruction : Obligations.InvariantHoldsAtConstruction := by
  intro base size image mem entryPoint cfg h
  rcases mount_cases base size image with ⟨he, hok⟩ | ⟨he, _⟩ <;> rw [he] at h <;> cases h
  exact inv_newInterpreter (wf_mountedMemory hok) entryPoint cfg

/-- Settles O23: reset is a construction over the AddressSpace of an empty image. -/
theorem invariantHoldsAtReset : Obligations.InvariantHoldsAtReset :=
  inv_newInterpreter wf_empty entryPointDefault Config.default

end Sys2Proof.Machine
end

section
/-! SUPPORT and PROOF of O26, HostCallKeepsInvariant, O22, ConfigurationNeverChanges, and O21,
CartridgeBytesNeverChange: the induction over a run is made once, for every relation that each single change of the
state keeps. -/

namespace Sys2Proof.Machine

/-! ### A relation that every single change keeps -/

/-- The relation holds between a state and the one that each single change leads to, and passes along a chain of
them. -/
structure KeptByChanges (R : State → State → Prop) : Prop where
  refl : ∀ s, R s s
  trans : ∀ s t u, R s t → R t u → R s u
  step : ∀ s t, step s = .next t → R s t
  requestStop : ∀ s, R s s.requestStop
  setReg : ∀ s r v, R s (s.setReg r v)
  write : ∀ s a n v, s.mem.checkWrite a n = .ok () → R s { s with mem := s.mem.store a.toNat n.bytes v }
  reset : ∀ s entryPoint, R s (s.resetTo entryPoint)

theorem KeptByChanges.of_withArrival {R : State → State → Prop} (h : KeptByChanges R) (s : State)
    (arrivals : List Bool) : R s (s.withArrival arrivals) := by
  unfold State.withArrival
  split
  · exact h.requestStop s
  · exact h.refl s

/-! ### The loop of `run`, by its budget -/

@[simp] theorem runLoop_zero (arrivals : List Bool) (s : State) : runLoop 0 arrivals s = .next (s, 0) := rfl

/-- In a final status a run makes no step (R127). -/
@[simp] theorem runLoop_final (n : Nat) (arrivals : List Bool) {s : State} (h : s.status.final = true) :
    runLoop n arrivals s = .next (s, 0) := by
  cases n with
  | zero => rfl
  | succ n => rw [runLoop, if_pos h]

/-- In another status a run is one step, and then the run of the rest, counted one more (R128). -/
theorem runLoop_succ {n m : Nat} {arrivals : List Bool} {s t u : State} (h : s.status.final = false)
    (hst : step (s.withArrival arrivals) = .next t) (hr : runLoop n arrivals.tail t = .next (u, m)) :
    runLoop (n + 1) arrivals s = .next (u, m + 1) := by
  simp [runLoop, h, hst, hr]

/-- A run that takes a step, taken apart. -/
theorem runLoop_succ_inv {n j : Nat} {arrivals : List Bool} {s u : State} (h : s.status.final = false)
    (hr : runLoop (n + 1) arrivals s = .next (u, j)) :
    ∃ t m, step (s.withArrival arrivals) = .next t ∧ runLoop n arrivals.tail t = .next (u, m) ∧ j = m + 1 := by
  obtain ⟨t, hst, _⟩ := exists_step (s.withArrival arrivals)
  rw [runLoop, if_neg (by simp [h]), hst] at hr
  dsimp only at hr
  cases ht : runLoop n arrivals.tail t with
  | fault | refused => rw [ht] at hr; cases hr
  | next p =>
    obtain ⟨u', m⟩ := p
    rw [ht] at hr
    cases hr
    exact ⟨t, m, hst, ht, rfl⟩

theorem KeptByChanges.of_runLoop {R : State → State → Prop} (h : KeptByChanges R) {n j : Nat} {arrivals : List Bool}
    {s u : State} (hr : runLoop n arrivals s = .next (u, j)) : R s u := by
  induction n generalizing arrivals s j with
  | zero => cases hr; exact h.refl _
  | succ n ih =>
    cases hf : s.status.final with
    | true =>
      rw [runLoop_final _ _ hf] at hr
      cases hr
      exact h.refl _
    | false =>
      obtain ⟨t, m, hst, ht, _⟩ := runLoop_succ_inv hf hr
      exact h.trans _ _ _ (h.of_withArrival s arrivals) (h.trans _ _ _ (h.step _ _ hst) (ih ht))

/-! ### The operations of the host -/

/-- An operation that reads a value and answers changes nothing. -/
theorem answering_next {α : Type} {s t : State} {f : α → HostReply} {o : Host.Outcome α Fault Refusal}
    {reply : HostReply} (h : answering s f o = .next (t, reply)) : t = s := by
  cases o <;> cases h
  rfl

/-- An operation that changes the state and answers has led to the state it answers with. -/
theorem changing_next {t : State} {f : State → HostReply} {o : Host.Outcome State Fault Refusal} {reply : HostReply}
    (h : changing f o = .next (t, reply)) : o = .next t := by
  cases o <;> cases h
  rfl

theorem answerRun_next {t : State} {o : Host.Outcome (State × Nat) Fault Refusal} {reply : HostReply}
    (h : answerRun o = .next (t, reply)) : ∃ n, o = .next (t, n) := by
  cases o <;> cases h
  exact ⟨_, rfl⟩

theorem setRegister_next {s t : State} {index : Nat} {v : Dword} (h : setRegister s index v = .next t) :
    t = s.setReg (BitVec.ofNat 5 index) v := by
  unfold setRegister at h
  split at h <;> cases h
  rfl

theorem hostWrite_next {s t : State} {a : Word} {n : Width} {v : Dword} (h : hostWrite s a n v = .next t) :
    s.mem.checkWrite a n = .ok () ∧ t = { s with mem := s.mem.store a.toNat n.bytes v } := by
  unfold hostWrite at h
  split at h <;> cases h
  exact ⟨‹_›, rfl⟩

/-- A relation that every single change keeps holds across every operation of the host, a run of any length among
them. -/
theorem KeptByChanges.of_hostCall {R : State → State → Prop} (h : KeptByChanges R) {op : HostOp} {s t : State}
    {reply : HostReply} (hc : hostCall op s = .next (t, reply)) : R s t := by
  cases op with
  | step => exact h.step s t (changing_next hc)
  | run n arrivals =>
    obtain ⟨_, hr⟩ := answerRun_next hc
    exact h.of_runLoop hr
  | getRegister | read => rw [answering_next hc]; exact h.refl s
  | getProgramCounter | getFault => cases hc; exact h.refl s
  | requestStop => cases hc; exact h.requestStop s
  | setRegister => rw [setRegister_next (changing_next hc)]; exact h.setReg s _ _
  | write =>
    obtain ⟨hw, rfl⟩ := hostWrite_next (changing_next hc)
    exact h.write s _ _ _ hw
  | reset => cases hc; exact h.reset s _

/-! ### The invariant -/

theorem State.Inv.requestStop {s : State} (h : s.Inv) : s.requestStop.Inv where
  memory := h.memory
  zero := h.zero
  recordIff := h.recordIff
  recordPc := h.recordPc
  slotAligned := h.slotAligned
  freshAge := h.freshAge
  readyClean := h.readyClean

theorem State.Inv.setReg {s : State} (h : s.Inv) (r : Reg) (v : Dword) : (s.setReg r v).Inv where
  memory := by simpa using h.memory
  zero := by rw [s.setReg_x_zero]; exact h.zero
  recordIff := by simpa using h.recordIff
  recordPc := by simpa using h.recordPc
  slotAligned := by simpa using h.slotAligned
  freshAge := by simpa using h.freshAge
  readyClean := by simpa using h.readyClean

theorem State.Inv.write {s : State} (h : s.Inv) {a : Word} {n : Width} (v : Dword)
    (hw : s.mem.checkWrite a n = .ok ()) : ({ s with mem := s.mem.store a.toNat n.bytes v } : State).Inv where
  memory := Memory.wf_store_of_checkWrite v h.memory hw
  zero := h.zero
  recordIff := h.recordIff
  recordPc := h.recordPc
  slotAligned := h.slotAligned
  freshAge := h.freshAge
  readyClean := h.readyClean

theorem State.Inv.resetTo {s : State} (h : s.Inv) (entryPoint : Word) : (s.resetTo entryPoint).Inv where
  memory := h.memory
  zero := rfl
  recordIff := by simp
  recordPc := by simp
  slotAligned := by simp
  freshAge := by simp
  readyClean := by simp

/-- Settles O26: every single change keeps the invariant, so every operation of the host does. -/
theorem hostCallKeepsInvariant : Obligations.HostCallKeepsInvariant := by
  have kept : KeptByChanges fun s t => s.Inv → t.Inv :=
    { refl := fun _ h => h
      trans := fun _ _ _ h1 h2 h => h2 (h1 h)
      step := fun s t hst h => stepKeepsInvariant s t h hst
      requestStop := fun _ h => h.requestStop
      setReg := fun _ r v h => h.setReg r v
      write := fun _ _ _ v hw h => h.write v hw
      reset := fun _ entryPoint h => h.resetTo entryPoint }
  exact fun op s t reply h hc => kept.of_hostCall hc h

/-! ### The configuration, the map and the cartridge -/

theorem KeepsMap.refl (s : State) : KeepsMap s s := ⟨rfl, rfl, rfl⟩

theorem KeepsMap.trans {s t u : State} (h1 : KeepsMap s t) (h2 : KeepsMap t u) : KeepsMap s u := by
  obtain ⟨hb, hs, hc⟩ := h1
  obtain ⟨hb', hs', hc'⟩ := h2
  exact ⟨hb'.trans hb, hs'.trans hs, hc'.trans hc⟩

/-- The memory after any step: the old one, or that after one checked store (R57). -/
theorem step_mem_cases {s t : State} (h : step s = .next t) :
    t.mem = s.mem ∨ ∃ ea n v, s.mem.checkWrite ea n = .ok () ∧ t.mem = s.mem.store ea.toNat n.bytes v := by
  cases stepShape h with
  | stopped | halt | fault | skip => exact .inl rfl
  | run w i f _ _ hf _ => exact (commit_mem_cases hf).imp_right fun ⟨ea, n, v, _, hw, he⟩ => ⟨ea, n, v, hw, he⟩

/-- A change of memory by stores only keeps the map. -/
theorem keepsMap_of_mem {s t : State}
    (h : t.mem = s.mem ∨ ∃ ea n v, s.mem.checkWrite ea n = .ok () ∧ t.mem = s.mem.store ea.toNat n.bytes v) :
    KeepsMap s t := by
  rcases h with he | ⟨ea, n, v, _, he⟩ <;> simp [KeepsMap, he]

theorem step_cfg {s t : State} (h : step s = .next t) : t.cfg = s.cfg := by
  cases stepShape h with
  | stopped | halt | fault | skip => rfl
  | run w i f => exact State.commit_cfg s i f

/-- Settles O22: every single change keeps the configuration and the map, so every operation of the host does. -/
theorem configurationNeverChanges : Obligations.ConfigurationNeverChanges := by
  have kept : KeptByChanges fun s t => t.cfg = s.cfg ∧ KeepsMap s t :=
    { refl := fun s => ⟨rfl, .refl s⟩
      trans := fun _ _ _ ⟨hc, hm⟩ ⟨hc', hm'⟩ => ⟨hc'.trans hc, hm.trans hm'⟩
      step := fun _ _ hst => ⟨step_cfg hst, keepsMap_of_mem (step_mem_cases hst)⟩
      requestStop := fun _ => ⟨rfl, rfl, rfl, rfl⟩
      setReg := fun _ _ _ => ⟨by simp, by simp [KeepsMap]⟩
      write := fun _ a n v hw => ⟨rfl, keepsMap_of_mem (.inr ⟨a, n, v, hw, rfl⟩)⟩
      reset := fun _ _ => ⟨rfl, rfl, rfl, rfl⟩ }
  exact fun op s t reply hc => kept.of_hostCall hc

/-- A checked store touches no byte of the cartridge: RDRAM holds it, and over a legal map the two are apart (R52, R57,
R72). -/
theorem Memory.byteAt_store_cartridge {m : Memory} {a : Word} {n : Width} {b : Nat} (v : Dword) (hok : m.mapOk = true)
    (hw : m.checkWrite a n = .ok ()) (h1 : cartridgeBase ≤ b) (h2 : b < cartridgeBase + m.cartLength) :
    (m.store a.toNat n.bytes v).byteAt b = m.byteAt b := by
  obtain ⟨_, _, _, hapart⟩ := (Memory.mapOk_iff m).1 hok
  obtain ⟨_, hlow, hhigh⟩ := Memory.regionOf_spec (Memory.checkWrite_ok hw).2
  simp only [Memory.rdram] at hlow hhigh
  exact Memory.byteAt_store_other m v (by omega)

/-- The map is kept and, where it is legal, so is every byte of the cartridge (R72). -/
def KeepsCartridge (s t : State) : Prop :=
  KeepsMap s t ∧ (s.mem.mapOk = true →
    ∀ a : Nat, cartridgeBase ≤ a → a < cartridgeBase + s.mem.cartLength → t.mem.byteAt a = s.mem.byteAt a)

/-- A legal map stays legal when it is kept. -/
theorem KeepsMap.mapOk {s t : State} (h : KeepsMap s t) : t.mem.mapOk = s.mem.mapOk := by
  obtain ⟨hb, hs, hc⟩ := h
  simp [Memory.mapOk, hb, hs, hc]

theorem KeepsCartridge.trans {s t u : State} (h1 : KeepsCartridge s t) (h2 : KeepsCartridge t u) :
    KeepsCartridge s u := by
  obtain ⟨hm, hb⟩ := h1
  obtain ⟨hm', hb'⟩ := h2
  obtain ⟨_, _, hlen⟩ := id hm
  refine ⟨hm.trans hm', fun hok a ha hlt => ?_⟩
  rw [hb' (hm.mapOk.trans hok) a ha (by rwa [hlen]), hb hok a ha hlt]

theorem keepsCartridge_of_mem {s t : State}
    (h : t.mem = s.mem ∨ ∃ ea n v, s.mem.checkWrite ea n = .ok () ∧ t.mem = s.mem.store ea.toNat n.bytes v) :
    KeepsCartridge s t := by
  refine ⟨keepsMap_of_mem h, fun hok a ha hlt => ?_⟩
  rcases h with he | ⟨ea, n, v, hw, he⟩
  · rw [he]
  · rw [he]; exact Memory.byteAt_store_cartridge v hok hw ha hlt

/-- Settles O21: the only changes of memory are checked stores, and the checks keep them out of the cartridge. -/
theorem cartridgeBytesNeverChange : Obligations.CartridgeBytesNeverChange := by
  have kept : KeptByChanges KeepsCartridge :=
    { refl := fun _ => keepsCartridge_of_mem (.inl rfl)
      trans := fun _ _ _ => KeepsCartridge.trans
      step := fun _ _ hst => keepsCartridge_of_mem (step_mem_cases hst)
      requestStop := fun _ => keepsCartridge_of_mem (.inl rfl)
      setReg := fun _ _ _ => keepsCartridge_of_mem (.inl (by simp))
      write := fun _ a n v hw => keepsCartridge_of_mem (.inr ⟨a, n, v, hw, rfl⟩)
      reset := fun _ _ => keepsCartridge_of_mem (.inl rfl) }
  exact fun op s t reply hok hc => (kept.of_hostCall hc).2 hok

end Sys2Proof.Machine
end

section
/-! SUPPORT and PROOF of O56, RunStaysWithinBudget, and O57, RunContinuesWhereItStopped (R127 to R130): by the budget,
with one iteration of the loop taken apart by the lemmas above. -/

namespace Sys2Proof.Machine

theorem Status.final_iff (st : Status) : st.final = true ↔ st = .faulted ∨ st = .halted := by
  cases st <;> simp [Status.final]

theorem Status.final_eq_false_iff (st : Status) : st.final = false ↔ st = .ready ∨ st = .running := by
  cases st <;> simp [Status.final]

/-- A run answers, makes at most its budget of steps, and fewer only in a final status (R127, R128). -/
theorem exists_runLoop (n : Nat) (arrivals : List Bool) (s : State) :
    ∃ u j, runLoop n arrivals s = .next (u, j) ∧ j ≤ n ∧ (j < n → u.status.final = true) := by
  induction n generalizing arrivals s with
  | zero => exact ⟨s, 0, rfl, le_rfl, fun h => absurd h (Nat.lt_irrefl 0)⟩
  | succ n ih =>
    cases hf : s.status.final with
    | true => exact ⟨s, 0, runLoop_final _ _ hf, Nat.zero_le _, fun _ => hf⟩
    | false =>
      obtain ⟨t, hst, _⟩ := exists_step (s.withArrival arrivals)
      obtain ⟨u, m, hr, hle, hfin⟩ := ih arrivals.tail t
      exact ⟨u, m + 1, runLoop_succ hf hst hr, by omega, fun h => hfin (by omega)⟩

/-- The answer of the host's `run`, from its loop (R129). -/
theorem hostCall_run {n j : Nat} {arrivals : List Bool} {s u : State} (h : runLoop n arrivals s = .next (u, j)) :
    hostCall (.run n arrivals) s = .next (u, .ran { status := u.status, steps := j, fault := u.fault }) := by
  rw [hostCall, h, answerRun]

/-- The loop of the host's `run`, from its answer. -/
theorem runLoop_of_hostCall {n : Nat} {arrivals : List Bool} {s u : State} {r : RunResult}
    (h : hostCall (.run n arrivals) s = .next (u, .ran r)) :
    runLoop n arrivals s = .next (u, r.steps) ∧ r.status = u.status ∧ r.fault = u.fault := by
  rw [hostCall] at h
  cases hl : runLoop n arrivals s <;> rw [hl] at h <;> cases h
  exact ⟨rfl, rfl, rfl⟩

/-- The stop request as it stands at the first boundary (R112). -/
theorem withArrival_cons (s : State) (arrives : Bool) (arrivals : List Bool) :
    s.withArrival (arrives :: arrivals) = { s with stopRequest := s.stopRequest || arrives } := by
  cases arrives
  · simp [State.withArrival]
  · simp [State.withArrival, State.requestStop]

theorem withArrival_nil (s : State) : s.withArrival [] = s := rfl

/-- Settles O56: the first part is the loop's bound, the second one iteration of it. -/
theorem runStaysWithinBudget : Obligations.RunStaysWithinBudget := by
  refine ⟨fun n arrivals s => ?_, fun n arrives arrivals s t u r hs hst hr => ?_⟩
  · obtain ⟨u, j, hr, hle, hfin⟩ := exists_runLoop n arrivals s
    refine ⟨u, j, hostCall_run hr, hle, fun h => (Status.final_iff _).1 (hfin h), fun h => ?_⟩
    have hstay : runLoop n arrivals s = .next (s, 0) := by
      rcases h with h | h | rfl
      · exact runLoop_final _ _ ((Status.final_iff _).2 (.inl h))
      · exact runLoop_final _ _ ((Status.final_iff _).2 (.inr h))
      · rfl
    cases hr.symm.trans hstay
    exact ⟨rfl, rfl⟩
  · obtain ⟨hl, hstatus, hfault⟩ := runLoop_of_hostCall hr
    have hs := (Status.final_eq_false_iff _).2 hs
    refine ⟨?_, ?_⟩
    · rw [hstatus, hfault]
      exact hostCall_run (runLoop_succ hs (by rwa [withArrival_cons]) hl)
    · rintro rfl rfl
      rw [hstatus, hfault]
      exact hostCall_run (runLoop_succ hs (by simpa [withArrival_nil] using hst) hl)

/-- Settles O57: by the first budget; a final status stops both runs where they stand. -/
theorem runContinuesWhereItStopped : Obligations.RunContinuesWhereItStopped := by
  intro m n s t u j k h1 h2
  induction m generalizing s j with
  | zero => cases h1; simpa using h2
  | succ m ih =>
    cases hf : s.status.final with
    | true =>
      rw [runLoop_final _ _ hf] at h1
      cases h1
      rw [runLoop_final _ _ hf] at h2 ⊢
      cases h2
      rfl
    | false =>
      obtain ⟨s', i, hst, hr, rfl⟩ := runLoop_succ_inv hf h1
      rw [Nat.succ_add, Nat.succ_add]
      exact runLoop_succ hf hst (ih s' i hr)

end Sys2Proof.Machine
end

section
/-! SUPPORT and PROOF of the statements about one step: O8, StepRunsDecodedInstruction, O9, StoppedStepChangesNothing,
O10, StopRequestHalts, O12, UnknownWordFollowsPolicy, O13, TransferInDelaySlotFaults, O16, HazardStateAfterStep, O17,
RedirectionFollowsDelaySlot, and O18, EveryStepHasNextState (R111 to R125). -/

namespace Sys2Proof.Machine

/-! ### A step by its plan -/

/-- Settles O8: a fetched word that decodes to an instruction plans its execution. -/
theorem stepRunsDecodedInstruction : Obligations.StepRunsDecodedInstruction := by
  intro s w i hw hd
  simp [step_eq, plan_of_word hw, planWord, hd]

/-- The answer of the host's `step`, from the step (R124). -/
theorem hostCall_step {s t : State} (h : step s = .next t) :
    hostCall .step s = .next (t, .stepped (stepResult s t)) := by
  rw [hostCall, h, changing]

/-- Settles O9: a final status plans nothing, so nothing is committed or logged. -/
theorem stoppedStepChangesNothing : Obligations.StoppedStepChangesNothing := by
  intro s h
  have hp := plan_of_final h
  have hst : step s = .next s := by simp [step_eq, hp]
  refine ⟨hst, ?_⟩
  simp [hostCall_step hst, stepResult, committedEffect, skipLog, hp]

/-- Settles O10: the stop request is planned before any fetch. -/
theorem stopRequestHalts : Obligations.StopRequestHalts := by
  intro s h hr
  simp [step_eq, plan_of_stop h hr, State.takeStop]

/-! ### Unknown words -/

/-- The plan of a fetched Unknown word under the Skip policy (R115). -/
theorem plan_of_unknown_skip {s : State} {w u : Word} {c : UnknownCase} (hw : FetchesWord s w)
    (hd : decode w = .unknown c u) (hp : s.cfg.unknownPolicy = .skip) : plan s = .skip w := by
  cases unknown_word hd
  simp [plan_of_word hw, planWord, hd, hp]

/-- A skipped word has no effect but that of an ordinary completed step (R115, D14). -/
theorem ordinary_skipWord (s : State) :
    KeepsRegs s s.skipWord ∧ KeepsHiLo s s.skipWord ∧ KeepsMemory s s.skipWord ∧ Ordinary s s.skipWord := by
  rw [State.skipWord_eq_commit]
  exact ⟨fun r => by simp, by simp [KeepsHiLo], keepsMemory_commit s _ rfl, ordinary_commit s rfl rfl rfl⟩

/-- Settles O12: the policy decides between the fault and the skip, and a skip commits nothing and is logged. -/
theorem unknownWordFollowsPolicy : Obligations.UnknownWordFollowsPolicy := by
  intro s w c u hw hd
  refine ⟨step_of_unknown_fatal hw hd, fun hp => ?_⟩
  have hplan := plan_of_unknown_skip hw hd hp
  have hst : step s = .next s.skipWord := by simp [step_eq, hplan]
  refine ⟨s.skipWord, ?_, hst, ordinary_skipWord s⟩
  simp [hostCall_step hst, stepResult, committedEffect, skipLog, hplan, State.skipWord]

/-! ### Transfers in a delay slot -/

/-- Settles O13: the delay-slot check stops the instruction, and the word that encodes it is the one fetched. -/
theorem transferInDelaySlotFaults : Obligations.TransferInDelaySlotFaults := by
  intro s w i hw hd hn hc
  have hin := (transferInSlot_iff i s).2 ⟨hn, hc⟩
  rw [stepRunsDecodedInstruction s w i hw hd, exec_eq_execute, execute, attempt_inSlot _ hin]
  simp only [encodeInvertsDecode w i hd]
  rfl

/-! ### The hazard state -/

/-- How a fetched word counts for the hazard state: an instruction by its kind, a skipped word as any other (R121,
D32). -/
def wordUse (w : Word) : HiLoUse :=
  match decode w with
  | .known i => hiLoUse i
  | .unknown _ _ => .other

/-- Two words fetched at one state are one. -/
theorem FetchesWord.unique {s : State} {w w' : Word} (h : FetchesWord s w) (h' : FetchesWord s w') : w = w' := by
  obtain ⟨_, _, _, rfl⟩ := h
  obtain ⟨_, _, _, rfl⟩ := h'
  rfl

/-- A completed step of a fetched word leaves the hazard state that the word's use gives (R121). -/
theorem hazard_of_step {s t : State} {w : Word} (hw : FetchesWord s w) (h : step s = .next t)
    (ht : t.status = .running) :
    t.sinceHiLoRead = nextSinceHiLoRead (wordUse w) s.sinceHiLoRead ∧
    t.hiloFresh = nextHiloFresh (wordUse w) s.hiloFresh := by
  cases stepShape h with
  | stopped hst => simp [ht] at hst
  | halt | fault => simp at ht
  | skip w' hw' hd =>
    obtain ⟨c, u, hd⟩ := hd
    obtain rfl := hw.unique hw'
    have hu : wordUse w = .other := by rw [wordUse, hd]
    rw [hu]
    exact ⟨rfl, rfl⟩
  | run w' i f hw' hd =>
    obtain rfl := hw.unique hw'
    have hu : wordUse w = hiLoUse i := by rw [wordUse, hd]
    rw [hu]
    exact ⟨State.commit_sinceHiLoRead s i f, State.commit_hiloFresh s i f⟩

/-- The instructions that read HI and LO out are MFHI and MFLO (R121). -/
theorem hiLoUse_eq_reads {i : Instr} (h : hiLoUse i = .reads) : ∃ rd, i = .mfhi rd ∨ i = .mflo rd := by
  cases i
  case mfhi rd | mflo rd => exact ⟨rd, by simp⟩
  all_goals cases h

theorem wordUse_eq_reads_iff (w : Word) :
    wordUse w = .reads ↔ ∃ rd, decode w = .known (.mfhi rd) ∨ decode w = .known (.mflo rd) := by
  constructor
  · unfold wordUse
    cases decode w with
    | known i => intro h; simpa using hiLoUse_eq_reads h
    | unknown => intro h; cases h
  · rintro ⟨rd, h | h⟩ <;> simp [wordUse, h, hiLoUse]

theorem wordUse_eq_computes_iff (w : Word) :
    wordUse w = .computes ↔ ∃ rs rt, decode w = .known (.mult rs rt) ∨ decode w = .known (.multu rs rt) ∨
      decode w = .known (.div rs rt) ∨ decode w = .known (.divu rs rt) := by
  constructor
  · unfold wordUse
    cases decode w with
    | known i => intro h; simpa using hiLoUse_eq_computes h
    | unknown => intro h; cases h
  · rintro ⟨rs, rt, h | h | h | h⟩ <;> simp [wordUse, h, hiLoUse]

/-- The count of steps since the last read, for every use but a read (R27, R121). -/
theorem nextSinceHiLoRead_val {u : HiLoUse} (h : u ≠ .reads) (n : Fin 3) :
    (nextSinceHiLoRead u n).val = min (n.val + 1) 2 := by
  cases u with
  | reads => exact absurd rfl h
  | computes | other => rfl

/-- Settles O16: the use of the word decides the hazard state, and the instructions of each use are those named. -/
theorem hazardStateAfterStep : Obligations.HazardStateAfterStep := by
  intro s t w hw h ht
  obtain ⟨hsince, hfresh⟩ := hazard_of_step hw h ht
  rw [hsince, hfresh]
  refine ⟨fun hr => ?_, fun hr => ?_⟩
  · rw [(wordUse_eq_reads_iff w).2 hr]
    exact ⟨rfl, rfl⟩
  · have hr : wordUse w ≠ .reads := fun hu => by
      obtain ⟨rd, hd⟩ := (wordUse_eq_reads_iff w).1 hu
      exact hd.elim (hr rd).1 (hr rd).2
    refine ⟨nextSinceHiLoRead_val hr _, fun hc => ?_, fun hc => ?_⟩
    · rw [(wordUse_eq_computes_iff w).2 hc]
      rfl
    · cases hu : wordUse w with
      | reads => exact absurd hu hr
      | computes =>
        obtain ⟨rs, rt, hd⟩ := (wordUse_eq_computes_iff w).1 hu
        have := hc rs rt
        tauto
      | other => rfl

/-! ### The delay slot -/

/-- A completed step that stands in a delay slot, or starts none, leaves the delay state Normal (R116, R120). -/
theorem delay_of_step {s t : State} (h : step s = .next t) (ht : t.status = .running) :
    s.delay = .normal ∨ t.delay = .normal := by
  cases stepShape h with
  | stopped hst => simp [ht] at hst
  | halt | fault => simp at ht
  | skip => exact .inr rfl
  | run w i f _ _ hf hs =>
    by_cases ho : f.outcome = .none
    · exact .inr (by rw [State.commit_delay, ho, BranchOutcome.nextDelay])
    · exact .inl (delay_normal_of_outcome hf hs ho)

/-- Settles O17: a pending target was left outside a slot, so `pc` went to the next word; the next step is its slot. -/
theorem redirectionFollowsDelaySlot : Obligations.RedirectionFollowsDelaySlot := by
  intro s t target h ht hd
  have hs : s.delay = .normal := (delay_of_step h ht).resolve_right (by simp [hd])
  obtain ⟨⟨_, hnext⟩, _⟩ := completed_of_step h (by simp [ht]) (by simp [ht])
  refine ⟨hnext (by simp [hs]), fun u hu hru => ⟨?_, ?_⟩⟩
  · obtain ⟨⟨htaken, _⟩, _⟩ := completed_of_step hu (by simp [hru]) (by simp [hru])
    exact htaken target hd
  · exact (delay_of_step hu hru).resolve_left (by simp [hd])

/-- Settles O18: each shape of a step ends in one of the three statuses. -/
theorem everyStepHasNextState : Obligations.EveryStepHasNextState := by
  intro s
  obtain ⟨t, h, hshape⟩ := exists_step s
  refine ⟨t, h, ?_, fun ht hd => (delay_of_step h ht).resolve_left hd⟩
  cases hshape with
  | stopped hst => exact .inr hst
  | halt => exact .inr (.inr rfl)
  | fault => exact .inr (.inl rfl)
  | skip | run => exact .inl rfl

end Sys2Proof.Machine
end

section
/-! SUPPORT and PROOF of O7, ZeroWordIsNop, O27, RegisterZeroIsHardWired, O54, ConstructionLeavesResetValues, and O55,
ResetKeepsMemoryAndConfiguration: the register file, its hard-wired r0 and its values at reset (R20 to R22, R36,
R93). -/

namespace Sys2Proof.Machine

/-- A write to r0 changes no state (R21). -/
@[simp] theorem State.setReg_zero (s : State) (v : Dword) : s.setReg 0#5 v = s := by simp [State.setReg]

/-- Settles O27: by what a register reads after one write. -/
theorem registerZeroIsHardWired : Obligations.RegisterZeroIsHardWired :=
  fun s r v => ⟨s.reg_zero, s.setReg_zero v, fun q => s.reg_setReg r q v⟩

/-- Writing only r0 keeps every register (R21). -/
theorem keepsRegs_of_writesOnly_zero {s t : State} {v : Dword} (h : WritesOnly s t 0#5 v) : KeepsRegs s t := by
  intro r
  rw [h r, if_neg]
  rintro ⟨h0, hn⟩
  exact hn h0

/-- Settles O7: NOP is a shift that writes r0. -/
theorem zeroWordIsNop : Obligations.ZeroWordIsNop := by
  refine ⟨by decide, fun s => ?_⟩
  obtain ⟨t, h, hw, hk⟩ := exec_arithmetic_write (i := .sll 0#5 0#5 0#5) (s := s) rfl (.inr rfl) rfl
  exact ⟨t, h, keepsRegs_of_writesOnly_zero hw, hk⟩

/-- Every register of a cleared register file reads zero (R36). -/
theorem reg_of_replicate {s : State} (h : s.x = Vector.replicate 32 0#64) (r : Reg) : s.reg r = 0#64 := by
  unfold State.reg
  rw [h]
  simp

/-- Settles O54: construction changes three fields of `State.reset`. -/
theorem constructionLeavesResetValues : Obligations.ConstructionLeavesResetValues := by
  refine ⟨?_, rfl⟩
  rintro mem entryPoint cfg s rfl
  exact ⟨reg_of_replicate rfl, rfl, rfl, rfl, rfl, rfl, rfl, rfl, rfl, rfl, rfl, rfl⟩

/-- Settles O55: `resetTo` is that state, whatever the status was. -/
theorem resetKeepsMemoryAndConfiguration : Obligations.ResetKeepsMemoryAndConfiguration :=
  fun s entryPoint =>
    ⟨s.resetTo entryPoint, rfl, reg_of_replicate rfl, rfl, rfl, rfl, rfl, rfl, rfl, rfl, rfl, rfl, rfl, rfl⟩

end Sys2Proof.Machine
end

section
/-! SUPPORT and PROOF of O28, SignedAddSubtractResult, O29, SignedOverflowFaults, O30, WrappingAddSubtractResult, O31,
NonCanonicalOperandFaults, and O34, ShiftResult (R140 to R143, R161 to R164, R171 to R176): the sources first, then the
value of each result. -/

namespace Sys2Proof.Machine

/-! ### A 32-bit source -/

/-- Usable as a 32-bit value, in the terms of `narrow` (R11, D9). -/
theorem usable32_iff (s : State) (v : Dword) : Usable32 s v ↔ canon v = true ∨ s.cfg.nonCanonical32 = .low32 := by
  rw [canon_iff]
  rfl

/-- A usable value is narrowed to its low word, for either reason (R140, R210, R241). -/
theorem narrow_of_usable {s : State} {v : Dword} (reason : UnpredictableReason) (h : Usable32 s v) :
    narrow s.cfg reason v = .ok (v.extractLsb' 0 32) :=
  narrow_ok reason ((usable32_iff s v).1 h)

/-- A value that is not usable is not narrowed. -/
theorem narrow_of_not_usable {s : State} {v : Dword} (reason : UnpredictableReason) (h : ¬ Usable32 s v) :
    narrow s.cfg reason v = .error (.unpredictable reason) := by
  rcases narrow_cases s.cfg reason v with ⟨_, hu⟩ | ⟨he, _⟩
  · exact absurd ((usable32_iff s v).2 hu) h
  · exact he

@[simp] theorem ok_bind {α β : Type} (a : α) (g : α → Except Raise β) : (Except.ok a >>= g) = g a := rfl
@[simp] theorem error_bind {α β : Type} (r : Raise) (g : α → Except Raise β) :
    ((Except.error r : Except Raise α) >>= g) = .error r := rfl
@[simp] theorem pure_ok {α : Type} (a : α) : (pure a : Except Raise α) = .ok a := rfl

theorem src32_ok {s : State} {r : Reg} (h : Usable32 s (s.reg r)) : src32 s r = .ok (lowWord s r) :=
  narrow_of_usable .nonCanonicalOperand h

theorem src32_error {s : State} {r : Reg} (h : ¬ Usable32 s (s.reg r)) :
    src32 s r = .error (.unpredictable .nonCanonicalOperand) :=
  narrow_of_not_usable .nonCanonicalOperand h

/-- A rule with two 32-bit sources, one of them not usable, raises whatever it goes on to do (R140). -/
theorem src32_pair_error {s : State} {rs rt : Reg} (h : ¬ Usable32 s (s.reg rs) ∨ ¬ Usable32 s (s.reg rt))
    (g : Word → Word → Except Raise Effect) :
    (do let a ← src32 s rs; let b ← src32 s rt; g a b) = .error (.unpredictable .nonCanonicalOperand) := by
  by_cases hs : Usable32 s (s.reg rs)
  · rw [src32_ok hs, src32_error (h.resolve_left (not_not_intro hs))]
    rfl
  · rw [src32_error hs]
    rfl

/-- An arithmetic instruction passes the delay-slot check in every state (R116). -/
theorem transferInSlot_arithmetic {i : Instr} (s : State)
    (hc : i.opClass = .arithmeticImmediate ∨ i.opClass = .arithmeticRegister) : transferInSlot i s = false := by
  rcases hc with hc | hc <;> exact transferInSlot_other s (by simp [hc]) (by simp [hc])

/-- An arithmetic instruction whose rule raises takes that fault, in every state (R118, R276). -/
theorem exec_arithmetic_raise {i : Instr} {s : State} {r : Raise} (h : effectOf i s = .error r)
    (hc : i.opClass = .arithmeticImmediate ∨ i.opClass = .arithmeticRegister) :
    exec i s = .next (faultedWith s r.kind (r.info (encode i))) :=
  exec_of_raise h (transferInSlot_arithmetic s hc)

theorem exec_nonCanonicalOperand {i : Instr} {s : State}
    (h : effectOf i s = .error (.unpredictable .nonCanonicalOperand))
    (hc : i.opClass = .arithmeticImmediate ∨ i.opClass = .arithmeticRegister) :
    exec i s = .next (faultedWith s (.unpredictable .nonCanonicalOperand) (encode i)) :=
  exec_arithmetic_raise h hc

/-! ### The sources of the 32-bit operations -/

/-- The read check passes at 2 (R190). -/
theorem hiloReadCheck_pass {s : State} (h : s.sinceHiLoRead = 2) : hiloReadCheck s = .ok () := by
  simp [hiloReadCheck, h]

/-- Settles O31: each of these rules starts with its sources, behind the read check in the multiplies and divides. -/
theorem nonCanonicalOperandFaults : Obligations.NonCanonicalOperandFaults := by
  intro s rs rt rd sa imm
  refine ⟨fun h => ?immediate, fun h => ?twoSources, fun h => ?shifts, fun hz h => ?mulDiv⟩ <;>
    simp only [List.forall_mem_cons, List.not_mem_nil, false_imp_iff, implies_true, and_true]
  case immediate =>
    refine ⟨exec_nonCanonicalOperand ?_ (.inl rfl), exec_nonCanonicalOperand ?_ (.inl rfl)⟩
    · rw [effectOf, addiEffect, src32_error h, error_bind]
    · rw [effectOf, addiuEffect, src32_error h, error_bind]
  case twoSources =>
    refine ⟨?_, ?_, ?_, ?_⟩ <;> exact exec_nonCanonicalOperand (src32_pair_error h _) (.inr rfl)
  case shifts =>
    refine ⟨exec_nonCanonicalOperand ?_ (.inr rfl), exec_nonCanonicalOperand ?_ (.inr rfl),
      exec_nonCanonicalOperand ?_ (.inr rfl), exec_nonCanonicalOperand ?_ (.inr rfl)⟩
    · rw [effectOf, srlEffect, src32_error h, error_bind]
    · rw [effectOf, sraEffect, src32_error h, error_bind]
    · rw [effectOf, srlvEffect, src32_error h, error_bind]
    · rw [effectOf, sravEffect, src32_error h, error_bind]
  case mulDiv =>
    refine ⟨exec_nonCanonicalOperand ?_ (.inr rfl), exec_nonCanonicalOperand ?_ (.inr rfl),
      exec_nonCanonicalOperand ?_ (.inr rfl), exec_nonCanonicalOperand ?_ (.inr rfl)⟩
    · rw [effectOf, multEffect, hiloReadCheck_pass hz, ok_bind]; exact src32_pair_error h _
    · rw [effectOf, multuEffect, hiloReadCheck_pass hz, ok_bind]; exact src32_pair_error h _
    · rw [effectOf, divEffect, hiloReadCheck_pass hz, ok_bind]; exact src32_pair_error h _
    · rw [effectOf, divuEffect, hiloReadCheck_pass hz, ok_bind]; exact src32_pair_error h _

/-! ### Sums and differences -/

/-- Settles O30: with usable sources each rule computes one write of the wrapped result. -/
theorem wrappingAddSubtractResult : Obligations.WrappingAddSubtractResult := by
  intro s rs rt rd imm
  refine ⟨fun hs ht => ?addu, fun hs ht => ?subu, fun hs => ?addiu⟩
  case addu =>
    refine exec_arithmetic_write ?_ (.inr rfl) rfl
    rw [effectOf, adduEffect, src32_ok hs, src32_ok ht]
    rfl
  case subu =>
    refine exec_arithmetic_write ?_ (.inr rfl) rfl
    rw [effectOf, subuEffect, src32_ok hs, src32_ok ht]
    rfl
  case addiu =>
    refine exec_arithmetic_write ?_ (.inl rfl) rfl
    rw [effectOf, addiuEffect, src32_ok hs]
    rfl

/-- A signed 32-bit value, written at 32 bits and sign-extended, is the value written at 64 bits (R9). -/
theorem sext64_ofInt {z : Int} (h1 : -2147483648 ≤ z) (h2 : z ≤ 2147483647) :
    sext64 (BitVec.ofInt 32 z) = BitVec.ofInt 64 z := by
  have hz : (BitVec.ofInt 32 z).toInt = z := by
    rw [BitVec.toInt_ofInt]
    exact Int.bmod_eq_of_le (by omega) (by omega)
  rw [sext64, BitVec.signExtend, hz]

/-- Settles O28: an exact result that fits is kept by the overflow rule and by the extension. -/
theorem signedAddSubtractResult : Obligations.SignedAddSubtractResult := by
  intro s rs rt rd imm
  refine ⟨fun hs ht h1 h2 => ?add, fun hs ht h1 h2 => ?sub, fun hs h1 h2 => ?addi⟩ <;> rw [← sext64_ofInt h1 h2]
  case add =>
    refine exec_arithmetic_write ?_ (.inr rfl) rfl
    rw [effectOf, addEffect, src32_ok hs, src32_ok ht, ok_bind, ok_bind, exact32_ok h1 h2]
    rfl
  case sub =>
    refine exec_arithmetic_write ?_ (.inr rfl) rfl
    rw [effectOf, subEffect, src32_ok hs, src32_ok ht, ok_bind, ok_bind, exact32_ok h1 h2]
    rfl
  case addi =>
    refine exec_arithmetic_write ?_ (.inl rfl) rfl
    rw [effectOf, addiEffect, src32_ok hs, ok_bind, exact32_ok h1 h2]
    rfl

/-- An instruction that completes does not fault. -/
theorem exec_ne_fault_of_onlyWrites {i : Instr} {s : State} {rd : Reg} {v : Dword} {kind : FaultKind} {info : Word}
    (h : ∃ t, exec i s = .next t ∧ OnlyWrites s t rd v) : exec i s ≠ .next (faultedWith s kind info) := by
  rintro he
  obtain ⟨t, ht, _, _, _, ⟨_, hrun, _⟩, _⟩ := h
  obtain rfl := Host.Outcome.next.inj (he.symm.trans ht)
  cases hrun

/-- A fault of one kind is no fault of another. -/
theorem next_faultedWith_ne {s : State} {kind kind' : FaultKind} {info info' : Word} (h : kind ≠ kind') :
    (.next (faultedWith s kind info) : Host.Outcome State Fault Refusal) ≠ .next (faultedWith s kind' info') := by
  intro he
  have hf := congrArg State.fault (Host.Outcome.next.inj he)
  simp [faultedWith, h] at hf

/-- Settles O29: the overflow rule faults what does not fit; the wrapping forms complete or fault on a source. -/
theorem signedOverflowFaults : Obligations.SignedOverflowFaults := by
  intro s rs rt rd imm
  obtain ⟨haddu, hsubu, haddiu⟩ := wrappingAddSubtractResult s rs rt rd imm
  obtain ⟨himm, htwo, _⟩ := nonCanonicalOperandFaults s rs rt rd 0#5 imm
  simp only [List.forall_mem_cons, List.not_mem_nil, false_imp_iff, implies_true, and_true] at himm htwo ⊢
  refine ⟨fun hs ht h => ?add, fun hs ht h => ?sub, fun hs h => ?addi, fun info => ?addu, fun info => ?subu,
    fun info => ?addiu⟩
  case add =>
    refine exec_arithmetic_raise (r := .arithmeticOverflow) ?_ (.inr rfl)
    rw [effectOf, addEffect, src32_ok hs, src32_ok ht, ok_bind, ok_bind, exact32_error h, error_bind]
  case sub =>
    refine exec_arithmetic_raise (r := .arithmeticOverflow) ?_ (.inr rfl)
    rw [effectOf, subEffect, src32_ok hs, src32_ok ht, ok_bind, ok_bind, exact32_error h, error_bind]
  case addi =>
    refine exec_arithmetic_raise (r := .arithmeticOverflow) ?_ (.inl rfl)
    rw [effectOf, addiEffect, src32_ok hs, ok_bind, exact32_error h, error_bind]
  case addu =>
    by_cases h : Usable32 s (s.reg rs) ∧ Usable32 s (s.reg rt)
    · exact exec_ne_fault_of_onlyWrites (haddu h.1 h.2)
    · obtain ⟨_, he, _⟩ := htwo (not_and_or.1 h)
      rw [he]
      exact next_faultedWith_ne nofun
  case subu =>
    by_cases h : Usable32 s (s.reg rs) ∧ Usable32 s (s.reg rt)
    · exact exec_ne_fault_of_onlyWrites (hsubu h.1 h.2)
    · obtain ⟨_, _, _, he⟩ := htwo (not_and_or.1 h)
      rw [he]
      exact next_faultedWith_ne nofun
  case addiu =>
    by_cases h : Usable32 s (s.reg rs)
    · exact exec_ne_fault_of_onlyWrites (haddiu h)
    · obtain ⟨_, he⟩ := himm h
      rw [he]
      exact next_faultedWith_ne nofun

/-! ### Shifts -/

/-- The shift amount of the variable shifts is the register modulo 32 (R87). -/
theorem shiftReg_eq (s : State) (rs : Reg) : shiftReg s rs = (s.reg rs).toNat % 32 := by
  simp [shiftReg]

/-- An arithmetic right shift divides by a power of 2, rounding down (R173, R176). -/
theorem sext64_sshiftRight (v : Word) (n : Nat) : sext64 (v.sshiftRight n) = BitVec.ofInt 64 (v.toInt / 2 ^ n) := by
  rw [sext64, BitVec.signExtend, BitVec.toInt_sshiftRight, Int.shiftRight_eq_div_pow]
  norm_cast

/-- Settles O34: SLL and SLLV narrow nothing; the right shifts narrow `x[rt]` first. -/
theorem shiftResult : Obligations.ShiftResult := by
  intro s rs rt rd sa
  simp only [← shiftReg_eq, ← sext64_sshiftRight]
  refine ⟨exec_arithmetic_write rfl (.inr rfl) rfl, exec_arithmetic_write rfl (.inr rfl) rfl,
    fun ht => ⟨?srl, ?srlv, ?sra, ?srav⟩⟩
  case srl =>
    refine exec_arithmetic_write ?_ (.inr rfl) rfl
    rw [effectOf, srlEffect, src32_ok ht]
    rfl
  case srlv =>
    refine exec_arithmetic_write ?_ (.inr rfl) rfl
    rw [effectOf, srlvEffect, src32_ok ht]
    rfl
  case sra =>
    refine exec_arithmetic_write ?_ (.inr rfl) rfl
    rw [effectOf, sraEffect, src32_ok ht]
    rfl
  case srav =>
    refine exec_arithmetic_write ?_ (.inr rfl) rfl
    rw [effectOf, sravEffect, src32_ok ht]
    rfl

end Sys2Proof.Machine
end

section
/-! SUPPORT and PROOF of O35, MultiplyResult, O36, DivideResult, O37, DivideByZeroTakesDraw, O39, MoveToHiLoResult, and
O40, HiLoHazardsFault (R190 to R198): the shape of a multiply's or divide's commit, the halves of a product, and the
hazard state along three instructions. -/

namespace Sys2Proof.Machine

/-! ### Instructions that compute HI and LO -/

/-- An instruction that computes HI and LO completes and leaves the two values its effect writes, counted as unread
(R118, R121). -/
theorem exec_computes {i : Instr} {s : State} {f : Effect} {hi lo : Dword} (h : effectOf i s = .ok f)
    (hc : i.opClass = .arithmeticRegister) (hu : hiLoUse i = .computes) (hst : f.store = none) (ho : f.outcome = .none)
    (hw : s.writeAll f.writes = { s with hi := hi, lo := lo }) :
    ∃ t, exec i s = .next t ∧ t.draws = s.draws + f.draws ∧ OnlyComputes s t hi lo := by
  refine ⟨_, exec_of_effect h (transferInSlot_arithmetic s (.inr hc)), State.commit_draws s i f, ?_, ?_, fun r => ?_,
    keepsMemory_commit s i hst, completed_commit s i f, ?_, ?_, ?_⟩
  · rw [State.commit_hi, hw]
  · rw [State.commit_lo, hw]
  · rw [State.commit_reg, hw]
    rfl
  · rw [State.commit_delay, ho, BranchOutcome.nextDelay]
  · rw [State.commit_sinceHiLoRead, hu]
    rfl
  · rw [State.commit_hiloFresh, hu]
    rfl

/-- The two writes of a multiply or divide, LO first (R191). -/
theorem exec_hilo {i : Instr} {s : State} {hi lo : Dword} (h : effectOf i s = .ok (.hilo hi lo))
    (hc : i.opClass = .arithmeticRegister) (hu : hiLoUse i = .computes) :
    ∃ t, exec i s = .next t ∧ t.draws = s.draws ∧ OnlyComputes s t hi lo :=
  exec_computes h hc hu rfl rfl rfl

/-! ### The halves of a product -/

theorem low32_ofInt (z : Int) : low32 (BitVec.ofInt 64 z) = BitVec.ofInt 32 z := by
  apply BitVec.eq_of_toNat_eq
  simp only [low32, BitVec.extractLsb'_toNat, BitVec.toNat_ofInt, Nat.shiftRight_zero]
  omega

/-- The high word of a 64-bit value is that of the exact product, rounded down (R191). -/
theorem high32_ofInt (z : Int) : high32 (BitVec.ofInt 64 z) = BitVec.ofInt 32 (z / 4294967296) := by
  apply BitVec.eq_of_toNat_eq
  simp only [high32, BitVec.extractLsb'_toNat, BitVec.toNat_ofInt, Nat.shiftRight_eq_div_pow]
  omega

theorem low32_ofNat (n : Nat) : low32 (BitVec.ofNat 64 n) = BitVec.ofNat 32 n := by
  apply BitVec.eq_of_toNat_eq
  simp only [low32, BitVec.extractLsb'_toNat, BitVec.toNat_ofNat, Nat.shiftRight_zero]
  omega

theorem high32_ofNat (n : Nat) : high32 (BitVec.ofNat 64 n) = BitVec.ofNat 32 (n / 4294967296) := by
  apply BitVec.eq_of_toNat_eq
  simp only [high32, BitVec.extractLsb'_toNat, BitVec.toNat_ofNat, Nat.shiftRight_eq_div_pow]
  omega

/-- Settles O35: HI and LO get the halves of the exact product. -/
theorem multiplyResult : Obligations.MultiplyResult := by
  intro s rs rt hz hs ht
  refine ⟨exec_hilo ?mult rfl rfl, exec_hilo ?multu rfl rfl⟩
  case mult =>
    rw [effectOf, multEffect, hiloReadCheck_pass hz, src32_ok hs, src32_ok ht]
    simp [high32_ofInt, low32_ofInt, sext64]
  case multu =>
    rw [effectOf, multuEffect, hiloReadCheck_pass hz, src32_ok hs, src32_ok ht]
    simp only [ok_bind, pure_ok, high32_ofNat, low32_ofNat, sext64]

/-! ### Quotient and remainder -/

/-- The remainder of two words fits in a word, whatever the divisor (R193, D23). -/
theorem sext64_tmod (a b : Word) :
    sext64 (BitVec.ofInt 32 (a.toInt - a.toInt.tdiv b.toInt * b.toInt)) = BitVec.ofInt 64 (a.toInt.tmod b.toInt) := by
  have hr : a.toInt - a.toInt.tdiv b.toInt * b.toInt = a.toInt.tmod b.toInt := by
    rw [Int.tmod_def, Int.mul_comm]
  have hle : (a.toInt.tmod b.toInt).natAbs ≤ a.toInt.natAbs := by
    rw [Int.natAbs_tmod]
    exact Nat.mod_le _ _
  have h1 := BitVec.le_toInt a
  have h2 := BitVec.toInt_lt (x := a)
  have hneg : a.toInt ≤ 0 → a.toInt.tmod b.toInt ≤ 0 := fun h => by
    have := Int.tmod_nonneg (a := -a.toInt) b.toInt (by omega)
    rw [Int.neg_tmod] at this
    omega
  rw [hr]
  exact sext64_ofInt (by omega) (by omega)

/-- Settles O36: with a divisor that is not zero both rules divide. -/
theorem divideResult : Obligations.DivideResult := by
  intro s rs rt hz hs ht hb
  refine ⟨exec_hilo ?div rfl rfl, exec_hilo ?divu rfl rfl⟩
  case div =>
    rw [effectOf, divEffect, hiloReadCheck_pass hz, src32_ok hs, src32_ok ht]
    simp only [ok_bind, pure_ok, if_neg hb, sext64_tmod]
    rfl
  case divu =>
    rw [effectOf, divuEffect, hiloReadCheck_pass hz, src32_ok hs, src32_ok ht]
    simp only [ok_bind, pure_ok, if_neg hb]
    rfl

/-- Settles O37: with the divisor zero both rules take the next draw. -/
theorem divideByZeroTakesDraw : Obligations.DivideByZeroTakesDraw := by
  intro s rs rt hz hs ht hb
  simp only [List.forall_mem_cons, List.not_mem_nil, false_imp_iff, implies_true, and_true]
  refine ⟨exec_computes (f := divByZero s) ?div rfl rfl rfl rfl rfl,
    exec_computes (f := divByZero s) ?divu rfl rfl rfl rfl rfl⟩
  case div =>
    rw [effectOf, divEffect, hiloReadCheck_pass hz, src32_ok hs, src32_ok ht]
    simp only [ok_bind, pure_ok, if_pos hb]
  case divu =>
    rw [effectOf, divuEffect, hiloReadCheck_pass hz, src32_ok hs, src32_ok ht]
    simp only [ok_bind, pure_ok, if_pos hb]

/-! ### Moves to HI and LO -/

/-- The overwrite check passes where no result waits (R190). -/
theorem hiloOverwriteCheck_pass {s : State} (h : s.hiloFresh = false) : hiloOverwriteCheck s = .ok () := by
  simp [hiloOverwriteCheck, h]

/-- Settles O39: past both checks each rule is one write, of HI or of LO. -/
theorem moveToHiLoResult : Obligations.MoveToHiLoResult := by
  intro s rs hz hf
  have hs : ∀ i : Instr, i.opClass = .arithmeticRegister → transferInSlot i s = false := fun i hc =>
    transferInSlot_arithmetic s (.inr hc)
  refine ⟨⟨_, exec_of_effect (f := { writes := [(.hi, s.reg rs)] }) ?mthi (hs _ rfl), ?_, ?_, fun r => ?_,
      keepsMemory_commit s _ rfl, ordinary_commit s rfl rfl rfl⟩,
    ⟨_, exec_of_effect (f := { writes := [(.lo, s.reg rs)] }) ?mtlo (hs _ rfl), ?_, ?_, fun r => ?_,
      keepsMemory_commit s _ rfl, ordinary_commit s rfl rfl rfl⟩⟩
  case mthi => rw [effectOf, mthiEffect, hiloReadCheck_pass hz, hiloOverwriteCheck_pass hf]; rfl
  case mtlo => rw [effectOf, mtloEffect, hiloReadCheck_pass hz, hiloOverwriteCheck_pass hf]; rfl
  all_goals simp

/-! ### The hazard checks -/

theorem hiloReadCheck_fail {s : State} (h : s.sinceHiLoRead.val < 2) :
    hiloReadCheck s = .error (.unpredictable .hiLoReadHazard) := if_pos h

theorem hiloOverwriteCheck_fail {s : State} (h : s.hiloFresh = true) :
    hiloOverwriteCheck s = .error (.unpredictable .hiLoOverwrite) := if_pos h

/-- The rules that write HI or LO start with the read check, so its failure is their fault (R190). -/
theorem effectOf_readHazard {s : State} (h : s.sinceHiLoRead.val < 2) (rs rt : Reg) :
    ∀ i ∈ [Instr.mult rs rt, .multu rs rt, .div rs rt, .divu rs rt, .mthi rs, .mtlo rs],
      effectOf i s = .error (.unpredictable .hiLoReadHazard) ∧ i.opClass = .arithmeticRegister := by
  simp only [List.forall_mem_cons, List.not_mem_nil, false_imp_iff, implies_true, and_true]
  simp [effectOf, multEffect, multuEffect, divEffect, divuEffect, mthiEffect, mtloEffect, hiloReadCheck_fail h,
    Instr.opClass]

/-- MTHI and MTLO go on to the overwrite check (R190). -/
theorem effectOf_overwrite {s : State} (hz : s.sinceHiLoRead = 2) (hf : s.hiloFresh = true) (rs : Reg) :
    ∀ i ∈ [Instr.mthi rs, .mtlo rs],
      effectOf i s = .error (.unpredictable .hiLoOverwrite) ∧ i.opClass = .arithmeticRegister := by
  simp [effectOf, mthiEffect, mtloEffect, hiloReadCheck_pass hz, hiloOverwriteCheck_fail hf, Instr.opClass]

/-- A completed instruction leaves the hazard state that its use gives (R121). -/
theorem sinceHiLoRead_of_exec {i : Instr} {s t : State} (h : exec i s = .next t) (ht : t.status = .running) :
    t.sinceHiLoRead = nextSinceHiLoRead (hiLoUse i) s.sinceHiLoRead := by
  rcases exec_next h with ⟨f, _, _, rfl⟩ | ⟨r, rfl⟩
  · exact State.commit_sinceHiLoRead s i f
  · simp at ht

/-- MFHI and MFLO leave no step since the last read (R121). -/
theorem sinceHiLoRead_of_read {i : Instr} {s t : State} {rd : Reg} (hi : i = .mfhi rd ∨ i = .mflo rd)
    (h : exec i s = .next t) : t.sinceHiLoRead = 0 := by
  obtain ⟨hmfhi, hmflo⟩ := moveFromHiLoResult s rd
  rcases hi with rfl | rfl
  · obtain ⟨t', ht', _, _, _, _, _, hz, _⟩ := hmfhi
    rwa [Host.Outcome.next.inj (h.symm.trans ht')]
  · obtain ⟨t', ht', _, _, _, _, _, hz, _⟩ := hmflo
    rwa [Host.Outcome.next.inj (h.symm.trans ht')]

/-- Right after a read, one more instruction leaves the count below 2 (R121). -/
theorem nextSinceHiLoRead_zero_lt (u : HiLoUse) : (nextSinceHiLoRead u 0).val < 2 := by cases u <;> decide

/-- After a read and two instructions that are none, the count is 2 (R121). -/
theorem nextSinceHiLoRead_twice {u v : HiLoUse} (hu : u ≠ .reads) (hv : v ≠ .reads) :
    nextSinceHiLoRead v (nextSinceHiLoRead u 0) = 2 := by
  apply Fin.ext
  rw [nextSinceHiLoRead_val hv, nextSinceHiLoRead_val hu]
  rfl

/-- Settles O40: the checks stand first in their rules; the count after a read is followed instruction by
instruction. -/
theorem hiLoHazardsFault : Obligations.HiLoHazardsFault := by
  refine ⟨fun s rs rt h i hi => ?_, fun s rs hz hf i hi => ?_, fun s0 s1 s2 s3 rd i j k hi h1 h2 hr2 h3 hr3 => ?_⟩
  · obtain ⟨he, hc⟩ := effectOf_readHazard h rs rt i hi
    exact exec_arithmetic_raise he (.inr hc)
  · obtain ⟨he, hc⟩ := effectOf_overwrite hz hf rs i hi
    exact exec_arithmetic_raise he (.inr hc)
  · have e1 := sinceHiLoRead_of_read hi h1
    have e2 := sinceHiLoRead_of_exec h2 hr2
    have e3 := sinceHiLoRead_of_exec h3 hr3
    rw [e1] at e2
    rw [e2] at e3
    refine ⟨by rw [e1]; decide, by rw [e2]; exact nextSinceHiLoRead_zero_lt _, fun hn => ?_⟩
    rw [e3]
    refine nextSinceHiLoRead_twice (fun hu => ?_) (fun hu => ?_)
    all_goals
      obtain ⟨q, hq⟩ := hiLoUse_eq_reads hu
      have := hn q
      tauto

end Sys2Proof.Machine
end

section
/-! SUPPORT and PROOF of O44, AccessChecksRunInOrder, and O46, MixedWidthsSeeSameBytes (R56, R60): an access passes its
checks where a region holds it, and a read within a store sees a part of the stored value. -/

namespace Sys2Proof.Machine

/-- An aligned write into a read-write region passes its checks (R56, R57). -/
theorem Memory.checkWrite_readWrite {m : Memory} {a : Word} {n : Width} {g : Region} (h0 : a.toNat % n.bytes = 0)
    (hg : m.regionOf a.toNat n.bytes = some g) (hp : g.permission = .readWrite) : m.checkWrite a n = .ok () := by
  rcases m.checkWrite_cases a n with ⟨_, h⟩ | ⟨_, _, h⟩ | ⟨g', _, _, h, hp'⟩ | ⟨_, h, _⟩
  · exact absurd h0 h
  · cases hg.symm.trans h
  · cases hg.symm.trans h
    cases hp.symm.trans hp'
  · exact h

/-- An aligned write into a read-only region is refused (R56, R57). -/
theorem Memory.checkWrite_readOnly {m : Memory} {a : Word} {n : Width} {g : Region} (h0 : a.toNat % n.bytes = 0)
    (hg : m.regionOf a.toNat n.bytes = some g) (hp : g.permission = .readOnly) :
    m.checkWrite a n = .error .writeProtected := by
  rcases m.checkWrite_cases a n with ⟨_, h⟩ | ⟨_, _, h⟩ | ⟨_, h, _⟩ | ⟨g', _, _, h, hp'⟩
  · exact absurd h0 h
  · cases hg.symm.trans h
  · exact h
  · cases hg.symm.trans h
    cases hp.symm.trans hp'

/-- A misaligned access stops at the first check (R55, R56). -/
theorem Memory.locate_misaligned {m : Memory} {a : Word} {n : Width} (h : a.toNat % n.bytes ≠ 0) :
    m.locate a n = .error .misaligned := if_pos h

/-- An aligned access that no region holds whole stops at the second check (R54, R56). -/
theorem Memory.locate_unmapped {m : Memory} {a : Word} {n : Width} (h0 : a.toNat % n.bytes = 0)
    (h : m.regionOf a.toNat n.bytes = none) : m.locate a n = .error .unmapped := by
  rw [Memory.locate, if_neg (not_not_intro h0), h]

/-- An access stopped at one of the first two checks is stopped as a read and as a write. -/
theorem Memory.access_of_locate_error {m : Memory} {a : Word} {n : Width} {k : AccessFault}
    (h : m.locate a n = .error k) : m.read a n = .error k ∧ m.checkWrite a n = .error k := by
  simp [Memory.read, Memory.checkWrite, h, bind, Except.bind]

/-- Settles O44: the first two checks are shared, and the third is of the region found. -/
theorem accessChecksRunInOrder : Obligations.AccessChecksRunInOrder := by
  intro m a n
  refine ⟨fun h => Memory.access_of_locate_error (Memory.locate_misaligned h), fun h0 hnone => ?_, fun h0 g hg => ?_⟩
  · refine Memory.access_of_locate_error (Memory.locate_unmapped h0 (List.find?_eq_none.2 fun g hg => ?_))
    simpa [Region.holds] using hnone g hg
  · exact ⟨⟨_, Memory.read_ok h0 (by rw [hg]; rfl)⟩, Memory.checkWrite_readOnly h0 hg,
      Memory.checkWrite_readWrite h0 hg⟩

/-- A read within an 8-byte store answers the part of the value that big-endian order puts there (R58 to R60). -/
theorem Memory.read_within_store {m : Memory} {a b : Word} {k : Nat} (n : Width) (v : Dword) (hw : m.wf = true)
    (hc : m.checkWrite a .b8 = .ok ()) (hb : b.toNat = a.toNat + k) (hk : k + n.bytes ≤ 8) (h0 : k % n.bytes = 0) :
    (m.store a.toNat 8 v).read b n = .ok ((v.extractLsb' (8 * (8 - k - n.bytes)) (8 * n.bytes)).setWidth 64) := by
  obtain ⟨_, hrising, _⟩ := (Memory.wf_iff m).1 hw
  obtain ⟨halign, hregion⟩ := Memory.checkWrite_ok hc
  obtain ⟨hg, hlow, hhigh⟩ := Memory.regionOf_spec hregion
  have halign8 : a.toNat % 8 = 0 := halign
  have hhigh8 : a.toNat + 8 ≤ m.rdram.base + m.rdram.length := hhigh
  rw [Memory.read_ok, hb, Memory.load_store m v hrising hk (le_refl 8)]
  · rw [hb]
    cases n <;> simp only [Width.bytes] at h0 ⊢ <;> omega
  · exact Memory.regionOf_isSome_of (by rw [Memory.regions_store]; exact hg) (by omega) (by omega)

/-- Settles O46: the five reads are within the store, and each gives its part of the value. -/
theorem mixedWidthsSeeSameBytes : Obligations.MixedWidthsSeeSameBytes := by
  intro m a v hw hc
  have halign : a.toNat % 8 = 0 := (Memory.checkWrite_ok hc).1
  refine ⟨?_, ?_, ?_, ?_, ?_⟩
  · rw [Memory.read_within_store (k := 0) .b8 v hw hc rfl (by decide) rfl]
    simp [Width.bytes]
  · exact Memory.read_within_store (k := 0) .b4 v hw hc rfl (by decide) rfl
  · exact Memory.read_within_store (k := 4) .b4 v hw hc (by bv_omega) (by decide) rfl
  · exact Memory.read_within_store (k := 2) .b2 v hw hc (by bv_omega) (by decide) rfl
  · exact Memory.read_within_store (k := 7) .b1 v hw hc (by bv_omega) (by decide) rfl

end Sys2Proof.Machine
end

section
/-! SUPPORT and PROOF of O41, EffectiveAddressRule, O42, LoadResult, O43, StoreResult, O45, DataAccessFaults, and O47,
StoredWordIsFetchedNext (R69, R210 to R223): the loads and the stores are one rule each, given the width and, for a
load, the extension. -/

namespace Sys2Proof.Machine

/-! ### The loads and the stores -/

/-- The seven loads, each with its width and its extension of the value read (R213 to R219). -/
inductive LoadForm (rs rt : Reg) (imm : BitVec 16) : Instr → Width → (Dword → Dword) → Prop where
  | lb : LoadForm rs rt imm (.lb rs rt imm) .b1 (fun v => (v.setWidth 8).signExtend 64)
  | lbu : LoadForm rs rt imm (.lbu rs rt imm) .b1 (fun v => (v.setWidth 8).setWidth 64)
  | lh : LoadForm rs rt imm (.lh rs rt imm) .b2 (fun v => (v.setWidth 16).signExtend 64)
  | lhu : LoadForm rs rt imm (.lhu rs rt imm) .b2 (fun v => (v.setWidth 16).setWidth 64)
  | lw : LoadForm rs rt imm (.lw rs rt imm) .b4 (fun v => (v.setWidth 32).signExtend 64)
  | lwu : LoadForm rs rt imm (.lwu rs rt imm) .b4 (fun v => (v.setWidth 32).setWidth 64)
  | ld : LoadForm rs rt imm (.ld rs rt imm) .b8 id

/-- The four stores, each with its width (R220 to R223). -/
inductive StoreForm (rs rt : Reg) (imm : BitVec 16) : Instr → Width → Prop where
  | sb : StoreForm rs rt imm (.sb rs rt imm) .b1
  | sh : StoreForm rs rt imm (.sh rs rt imm) .b2
  | sw : StoreForm rs rt imm (.sw rs rt imm) .b4
  | sd : StoreForm rs rt imm (.sd rs rt imm) .b8

/-- A load or store passes the delay-slot check in every state (R116). -/
theorem transferInSlot_memory {i : Instr} (s : State) (hc : i.opClass = .load ∨ i.opClass = .store) :
    transferInSlot i s = false := by
  rcases hc with hc | hc <;> exact transferInSlot_other s (by simp [hc]) (by simp [hc])

section
variable {rs rt : Reg} {imm : BitVec 16} {i : Instr} {n : Width} {g : Dword → Dword} {s : State} {ea : Word}

/-- The rule of a load: the value read at the effective address, extended (R211). -/
theorem LoadForm.effectOf_eq (h : LoadForm rs rt imm i n g) (s : State) :
    effectOf i s = (do let v ← loadValue s rs imm n; return .write rt (g v)) := by cases h <;> rfl

theorem LoadForm.opClass (h : LoadForm rs rt imm i n g) : i.opClass = .load := by cases h <;> rfl

theorem LoadForm.hiLoUse (h : LoadForm rs rt imm i n g) : hiLoUse i = .other := by cases h <;> rfl

theorem StoreForm.effectOf_eq (h : StoreForm rs rt imm i n) (s : State) : effectOf i s = storeEffect s rs rt imm n := by
  cases h <;> rfl

theorem StoreForm.opClass (h : StoreForm rs rt imm i n) : i.opClass = .store := by cases h <;> rfl

theorem StoreForm.hiLoUse (h : StoreForm rs rt imm i n) : hiLoUse i = .other := by cases h <;> rfl

/-- A load whose read succeeds writes the extended value and nothing else (R211). -/
theorem LoadForm.exec_ok (h : LoadForm rs rt imm i n g) {v : Dword} (ha : effectiveAddress s rs imm = .ok ea)
    (hr : s.mem.read ea n = .ok v) : ∃ t, exec i s = .next t ∧ OnlyWrites s t rt (g v) := by
  refine exec_write ?_ (transferInSlot_memory s (.inl h.opClass)) h.hiLoUse
  rw [h.effectOf_eq, loadValue, ha, ok_bind, hr]
  rfl

/-- A load whose read fails faults with the address (R211, R273). -/
theorem LoadForm.exec_error (h : LoadForm rs rt imm i n g) {k : AccessFault} (ha : effectiveAddress s rs imm = .ok ea)
    (hr : s.mem.read ea n = .error k) : exec i s = .next (faultedWith s (Raise.access k ea).kind ea) := by
  refine exec_of_raise (r := .access k ea) ?_ (transferInSlot_memory s (.inl h.opClass))
  rw [h.effectOf_eq, loadValue, ha, ok_bind, hr]
  rfl

/-- A load without an effective address faults for it (R210). -/
theorem LoadForm.exec_address_error (h : LoadForm rs rt imm i n g) {r : Raise}
    (ha : effectiveAddress s rs imm = .error r) : exec i s = .next (s.takeFault (encode i) r) := by
  refine exec_of_raise ?_ (transferInSlot_memory s (.inl h.opClass))
  rw [h.effectOf_eq, loadValue, ha]
  rfl

/-- A load changes no register but its destination. -/
theorem LoadForm.reg_other (h : LoadForm rs rt imm i n g) {t : State} (he : exec i s = .next t) {r : Reg}
    (hr : r ≠ rt) : t.reg r = s.reg r := by
  rcases exec_next he with ⟨f, hf, _, rfl⟩ | ⟨_, rfl⟩
  · rw [h.effectOf_eq] at hf
    obtain ⟨v, _, hf⟩ := bind_ok hf
    cases hf
    simp [Effect.write, State.reg_setReg, hr]
  · rfl

theorem lowBytes_eq (n : Width) (v : Dword) : lowBytes n v = (v.setWidth (8 * n.bytes)).setWidth 64 := by
  cases n with
  | b1 | b2 | b4 => rfl
  | b8 => simp [lowBytes, Width.bytes]

/-- The low bytes of a value are those the value stores (R212). -/
theorem extractLsb'_lowBytes (n : Width) (v : Dword) {k : Nat} (hk : k < n.bytes) :
    (lowBytes n v).extractLsb' (8 * (n.bytes - 1 - k)) 8 = v.extractLsb' (8 * (n.bytes - 1 - k)) 8 := by
  have hn := n.bytes_le
  rw [lowBytes_eq]
  apply BitVec.eq_of_getLsbD_eq
  intro j hj
  have h64 : 8 * (n.bytes - 1 - k) + j < 64 := by omega
  have hwidth : 8 * (n.bytes - 1 - k) + j < 8 * n.bytes := by omega
  simp [hj, h64, hwidth]

/-- A store whose write passes its checks stores the low bytes of the register and nothing else (R212). -/
theorem StoreForm.exec_ok (h : StoreForm rs rt imm i n) (ha : effectiveAddress s rs imm = .ok ea)
    (hw : s.mem.checkWrite ea n = .ok ()) :
    ∃ t, exec i s = .next t ∧ OnlyStores s t ea.toNat n.bytes (s.reg rt) := by
  have hf : effectOf i s = .ok { store := some { address := ea, width := n, value := lowBytes n (s.reg rt) } } := by
    rw [h.effectOf_eq, storeEffect, ha, ok_bind, hw]
    rfl
  obtain ⟨t, ht, _, hregs, hhilo, hord, hmap, hother, hback⟩ :=
    exec_store hf (transferInSlot_memory s (.inr h.opClass)) h.hiLoUse
  exact ⟨t, ht, hregs, hhilo, hord, hmap, hother,
    fun hwf k hk => (hback hwf k hk).trans (extractLsb'_lowBytes n (s.reg rt) hk)⟩

/-- A store whose write fails its checks faults with the address (R212, R273). -/
theorem StoreForm.exec_error (h : StoreForm rs rt imm i n) {k : AccessFault} (ha : effectiveAddress s rs imm = .ok ea)
    (hw : s.mem.checkWrite ea n = .error k) : exec i s = .next (faultedWith s (Raise.access k ea).kind ea) := by
  refine exec_of_raise (r := .access k ea) ?_ (transferInSlot_memory s (.inr h.opClass))
  rw [h.effectOf_eq, storeEffect, ha, ok_bind, hw]
  rfl

/-- A store without an effective address faults for it (R210). -/
theorem StoreForm.exec_address_error (h : StoreForm rs rt imm i n) {r : Raise}
    (ha : effectiveAddress s rs imm = .error r) : exec i s = .next (s.takeFault (encode i) r) := by
  refine exec_of_raise ?_ (transferInSlot_memory s (.inr h.opClass))
  rw [h.effectOf_eq, storeEffect, ha]
  rfl

/-- A store changes no register. -/
theorem StoreForm.keepsRegs (h : StoreForm rs rt imm i n) {t : State} (he : exec i s = .next t) : KeepsRegs s t := by
  intro r
  rcases exec_next he with ⟨f, hf, _, rfl⟩ | ⟨_, rfl⟩
  · rw [h.effectOf_eq] at hf
    obtain ⟨_, _, _, rfl⟩ := storeEffect_ok hf
    simp
  · rfl

end

/-- The eleven loads and stores. -/
theorem load_or_store {rs rt : Reg} {imm : BitVec 16} {i : Instr}
    (h : i ∈ [Instr.lb rs rt imm, .lbu rs rt imm, .lh rs rt imm, .lhu rs rt imm, .lw rs rt imm, .lwu rs rt imm,
      .ld rs rt imm, .sb rs rt imm, .sh rs rt imm, .sw rs rt imm, .sd rs rt imm]) :
    (∃ n g, LoadForm rs rt imm i n g) ∨ ∃ n, StoreForm rs rt imm i n := by
  revert i
  simp only [List.forall_mem_cons, List.not_mem_nil, false_imp_iff, implies_true, and_true]
  exact ⟨.inl ⟨_, _, .lb⟩, .inl ⟨_, _, .lbu⟩, .inl ⟨_, _, .lh⟩, .inl ⟨_, _, .lhu⟩, .inl ⟨_, _, .lw⟩, .inl ⟨_, _, .lwu⟩,
    .inl ⟨_, _, .ld⟩, .inr ⟨_, .sb⟩, .inr ⟨_, .sh⟩, .inr ⟨_, .sw⟩, .inr ⟨_, .sd⟩⟩

/-- Settles O41: the address is narrowed first in every load and store, and none writes a register but a load's
destination. -/
theorem effectiveAddressRule : Obligations.EffectiveAddressRule := by
  intro s rs rt imm
  refine ⟨narrow_of_usable .nonCanonicalAddress, fun hu i hi => ?_, fun i hi t he hbase => ?_⟩
  · have ha : effectiveAddress s rs imm = .error (.unpredictable .nonCanonicalAddress) :=
      narrow_of_not_usable .nonCanonicalAddress hu
    rcases load_or_store hi with ⟨_, _, h⟩ | ⟨_, h⟩
    · exact h.exec_address_error ha
    · exact h.exec_address_error ha
  · rcases load_or_store hi with ⟨_, _, h⟩ | ⟨_, h⟩
    · refine h.reg_other he fun e => ?_
      rw [h.opClass] at hbase
      simp [e] at hbase
    · exact h.keepsRegs he rs

/-- Settles O42: an aligned read that a region holds succeeds, and assembles the bytes most significant first. -/
theorem loadResult : Obligations.LoadResult := by
  intro s rs rt imm ea ha
  refine ⟨fun hm => ?byte, fun h0 hm => ?half, fun h0 hm => ?word, fun h0 hm => ?double⟩
  case byte =>
    have hr := Memory.read_ok (a := ea) (n := .b1) (Nat.mod_one _) hm
    rw [Width.bytes, Memory.load_one] at hr
    refine ⟨?_, ?_⟩
    · simpa using LoadForm.lb.exec_ok (rt := rt) ha hr
    · simpa using LoadForm.lbu.exec_ok (rt := rt) ha hr
  case half =>
    have hr := Memory.read_ok (n := .b2) h0 hm
    rw [Width.bytes, Memory.load_two] at hr
    refine ⟨?_, ?_⟩
    · simpa using LoadForm.lh.exec_ok (rt := rt) ha hr
    · simpa using LoadForm.lhu.exec_ok (rt := rt) ha hr
  case word =>
    have hr := Memory.read_ok (n := .b4) h0 hm
    rw [Width.bytes, Memory.load_four] at hr
    refine ⟨?_, ?_⟩
    · simpa using LoadForm.lw.exec_ok (rt := rt) ha hr
    · simpa using LoadForm.lwu.exec_ok (rt := rt) ha hr
  case double =>
    have hr := Memory.read_ok (n := .b8) h0 hm
    rw [Width.bytes, Memory.load_eight] at hr
    exact LoadForm.ld.exec_ok ha hr

/-- Settles O43: an aligned write that RDRAM holds passes its checks. -/
theorem storeResult : Obligations.StoreResult := by
  intro s rs rt imm ea ha
  refine ⟨fun hm => ?_, fun h0 hm => ?_, fun h0 hm => ?_, fun h0 hm => ?_⟩
  · exact StoreForm.sb.exec_ok ha (Memory.checkWrite_readWrite (Nat.mod_one _) hm rfl)
  · exact StoreForm.sh.exec_ok ha (Memory.checkWrite_readWrite h0 hm rfl)
  · exact StoreForm.sw.exec_ok ha (Memory.checkWrite_readWrite h0 hm rfl)
  · exact StoreForm.sd.exec_ok ha (Memory.checkWrite_readWrite h0 hm rfl)

/-- Settles O45: the fault of the access is the fault of the load or store. -/
theorem dataAccessFaults : Obligations.DataAccessFaults := by
  intro s rs rt imm ea ha
  have load : ∀ {i n g}, LoadForm rs rt imm i n g →
      (s.mem.read ea n = .error .misaligned → exec i s = .next (faultedWith s .misaligned ea)) ∧
      (s.mem.read ea n = .error .unmapped → exec i s = .next (faultedWith s .unmapped ea)) :=
    fun h => ⟨h.exec_error ha, h.exec_error ha⟩
  have store : ∀ {i n}, StoreForm rs rt imm i n →
      (s.mem.checkWrite ea n = .error .misaligned → exec i s = .next (faultedWith s .misaligned ea)) ∧
      (s.mem.checkWrite ea n = .error .unmapped → exec i s = .next (faultedWith s .unmapped ea)) ∧
      (s.mem.checkWrite ea n = .error .writeProtected → exec i s = .next (faultedWith s .writeProtected ea)) :=
    fun h => ⟨h.exec_error ha, h.exec_error ha, h.exec_error ha⟩
  simp only [List.forall_mem_cons, List.not_mem_nil, false_imp_iff, implies_true, and_true]
  exact ⟨⟨load .lb, load .lbu, load .lh, load .lhu, load .lw, load .lwu, load .ld⟩,
    store .sb, store .sh, store .sw, store .sd⟩

/-! ### A stored word, fetched -/

/-- The low word of a value, byte by byte from its most significant one (R59). -/
theorem extractLsb'_eq_bytes (v : Dword) :
    v.extractLsb' 0 32 = v.extractLsb' 24 8 ++ v.extractLsb' 16 8 ++ v.extractLsb' 8 8 ++ v.extractLsb' 0 8 := by
  rw [BitVec.extractLsb'_append_extractLsb'_eq_extractLsb' (by omega),
    BitVec.extractLsb'_append_extractLsb'_eq_extractLsb' (by omega),
    BitVec.extractLsb'_append_extractLsb'_eq_extractLsb' (by omega)]

/-- A store that completes has passed its checks, and stored. -/
theorem StoreForm.of_running {rs rt : Reg} {imm : BitVec 16} {i : Instr} {n : Width} (h : StoreForm rs rt imm i n)
    {s t : State} {ea : Word} (ha : effectiveAddress s rs imm = .ok ea) (he : exec i s = .next t)
    (hrun : t.status = .running) : s.mem.checkWrite ea n = .ok () ∧ OnlyStores s t ea.toNat n.bytes (s.reg rt) := by
  cases hw : s.mem.checkWrite ea n with
  | error k =>
    cases Host.Outcome.next.inj (he.symm.trans (h.exec_error ha hw))
    cases hrun
  | ok =>
    obtain ⟨t', he', hs⟩ := h.exec_ok ha hw
    obtain rfl := Host.Outcome.next.inj (he.symm.trans he')
    exact ⟨rfl, hs⟩

/-- Settles O47: the store's bytes are those of the fetch, at an address whose write was checked. -/
theorem storedWordIsFetchedNext : Obligations.StoredWordIsFetchedNext := by
  intro s t rs rt imm hwf hstop he hrun ha
  obtain ⟨hw, _, _, ⟨⟨_, _, _, hreq, _⟩, _⟩, ⟨hb, hs, hc⟩, _, hback⟩ := StoreForm.sw.of_running ha he hrun
  obtain ⟨h0, hregion⟩ := Memory.checkWrite_ok hw
  have hbyte : ∀ k, k < 4 → t.mem.byteAt (t.pc.toNat + k) = (s.reg rt).extractLsb' (8 * (3 - k)) 8 := hback hwf
  refine ⟨⟨.inr hrun, hreq.trans hstop⟩, h0, ?_, ?_⟩
  · rw [Memory.regionOf, Memory.regions_congr hb hs hc]
    exact Option.isSome_of_eq_some hregion
  · have hfirst := hbyte 0 (by decide)
    rw [Nat.add_zero] at hfirst
    rw [hfirst, hbyte 1 (by decide), hbyte 2 (by decide), hbyte 3 (by decide)]
    exact extractLsb'_eq_bytes _

end Sys2Proof.Machine
end

section
/-! SUPPORT and PROOF of O48, BranchResult, O49, BranchAndLinkResult, O50, JumpResult, O51, JumpRegisterResult, O52,
TransferOperandFaults, and O53, BadTargetFaultsAtItsFetch (R240 to R255): the targets by their values, then one lemma
for each form of transfer. -/

namespace Sys2Proof.Machine

/-! ### Targets -/

/-- A branch target is counted in words from the delay slot (R85, R241). -/
theorem branchTarget_eq (pc : Word) (imm : BitVec 16) :
    branchTarget pc imm = pc + 4#32 + BitVec.ofInt 32 (imm.toInt * 4) := by
  have hval : (imm ++ 0b00#2).toInt = imm.toInt * 4 := BitVec.toInt_append_zero.trans (Int.mul_comm _ _)
  rw [branchTarget, BitVec.signExtend, hval]

/-- The segment of an address: its bits 31 to 28, with the others zero (R86). -/
theorem segment_eq (a : Word) : a &&& 0xF0000000#32 = (a.extractLsb' 28 4 ++ 0#28 : BitVec 32) := by
  have hsplit : a = (a.extractLsb' 28 4 ++ a.extractLsb' 0 28 : BitVec 32) := by
    rw [BitVec.extractLsb'_append_extractLsb'_eq_extractLsb' (by omega)]
    simp
  have hand : (a.extractLsb' 28 4 ++ a.extractLsb' 0 28 : BitVec 32) &&& (0xF#4 ++ 0#28 : BitVec 32) =
      (a.extractLsb' 28 4 ++ 0#28 : BitVec 32) := by
    rw [BitVec.and_append, BitVec.and_zero]
    congr 1
    exact BitVec.and_allOnes
  conv_lhs => rw [hsplit]
  exact hand

/-- The target field in words, at 32 bits (R86). -/
theorem ofNat_target (target : BitVec 26) :
    BitVec.ofNat 32 (target.toNat * 4) = (0#4 ++ (target ++ 0b00#2) : BitVec 32) := by
  have hval : (0#4 ++ (target ++ 0b00#2)).toNat = target.toNat * 4 := by
    rw [BitVec.toNat_append, BitVec.toNat_append]
    simp [Nat.shiftLeft_eq]
  have hlt := target.isLt
  apply BitVec.eq_of_toNat_eq
  rw [BitVec.toNat_ofNat, Nat.mod_eq_of_lt (by omega)]
  exact hval.symm

/-- The target of J and JAL: the delay slot's segment, and the field times 4 (R86, R241). -/
theorem jumpTarget_eq (pc : Word) (target : BitVec 26) :
    jumpTarget pc target = ((pc + 4#32) &&& 0xF0000000#32) ||| BitVec.ofNat 32 (target.toNat * 4) := by
  rw [segment_eq, ofNat_target]
  change _ = ((pc + 4#32).extractLsb' 28 4 ++ 0#28) ||| (0#4 ++ (target ++ 0b00#2))
  rw [BitVec.or_append, BitVec.or_zero, BitVec.zero_or, jumpTarget, BitVec.append_assoc]
  rfl

/-- A branch from an aligned address has an aligned target (R85). -/
theorem branchTarget_aligned {pc : Word} (imm : BitVec 16) (h : pc.toNat % 4 = 0) :
    (branchTarget pc imm).toNat % 4 = 0 := by
  rw [branchTarget_eq]
  simp only [BitVec.toNat_add, BitVec.toNat_ofInt, BitVec.toNat_ofNat]
  omega

/-- J and JAL have aligned targets (R86). -/
theorem jumpTarget_aligned (pc : Word) (target : BitVec 26) : (jumpTarget pc target).toNat % 4 = 0 := by
  change ((pc + 4#32).extractLsb' 28 4 ++ target ++ 0b00#2).toNat % 4 = 0
  rw [BitVec.toNat_append]
  simp [Nat.shiftLeft_eq]

/-! ### Branches -/

/-- The pending delay slot of a branch (R120, R240). -/
theorem branchIf_nextDelay (s : State) (c : Bool) (imm : BitVec 16) :
    (branchIf s c imm).outcome.nextDelay =
      if c = true then .slotTaken (s.pc + 4#32 + BitVec.ofInt 32 (imm.toInt * 4)) else .slotNotTaken := by
  rw [branchIf, ← branchTarget_eq]
  cases c <;> rfl

/-- A branch outside a slot completes, with its slot pending by its test (R240, R241). -/
theorem exec_branch {i : Instr} {s : State} {c : Bool} {P : Prop} [Decidable P] {imm : BitVec 16}
    (h : effectOf i s = .ok (branchIf s c imm)) (hd : s.delay = .normal) (hu : hiLoUse i = .other) (hP : c = true ↔ P) :
    ∃ t, exec i s = .next t ∧ KeepsRegs s t ∧
      Transfers s t (if P then .slotTaken (s.pc + 4#32 + BitVec.ofInt 32 (imm.toInt * 4)) else .slotNotTaken) := by
  have ht := exec_transfer (o := (branchIf s c imm).outcome) h (transferInSlot_normal i hd) hu
  simpa only [branchIf_nextDelay, hP] using ht

/-- Settles O48: each branch is its test, on 64 bits. -/
theorem branchResult : Obligations.BranchResult := by
  intro s rs rt imm hd
  refine ⟨exec_branch rfl hd rfl ?beq, exec_branch rfl hd rfl ?bne, exec_branch rfl hd rfl ?blez,
    exec_branch rfl hd rfl ?bgtz, exec_branch rfl hd rfl ?bltz, exec_branch rfl hd rfl ?bgez⟩
  case beq => exact beq_iff_eq
  case bne => exact bne_iff_ne
  case blez | bgtz | bltz | bgez => exact decide_eq_true_iff

/-- A branch that links, outside a slot and from another register, completes with its slot pending by its test and the
link written (R242). -/
theorem exec_branchAndLink {i : Instr} {s : State} {rs : Reg} {c : Bool} {P : Prop} [Decidable P] {imm : BitVec 16}
    (h : effectOf i s = branchAndLink s rs c imm) (hrs : rs ≠ 31#5) (hd : s.delay = .normal) (hu : hiLoUse i = .other)
    (hP : c = true ↔ P) :
    ∃ t, exec i s = .next t ∧ WritesOnly s t 31#5 ((s.pc + 8#32).signExtend 64) ∧
      Transfers s t (if P then .slotTaken (s.pc + 4#32 + BitVec.ofInt 32 (imm.toInt * 4)) else .slotNotTaken) := by
  rw [branchAndLink, if_neg (show rs ≠ linkRegister from hrs)] at h
  have ht : ∃ t, exec i s = .next t ∧ WritesOnly s t 31#5 ((s.pc + 8#32).signExtend 64) ∧
      Transfers s t (branchIf s c imm).outcome.nextDelay := exec_link h (transferInSlot_normal i hd) hu
  simpa only [branchIf_nextDelay, hP] using ht

/-- Settles O49: the two tests of the linking branches. -/
theorem branchAndLinkResult : Obligations.BranchAndLinkResult := by
  intro s rs imm hd hrs
  exact ⟨exec_branchAndLink rfl hrs hd rfl decide_eq_true_iff, exec_branchAndLink rfl hrs hd rfl decide_eq_true_iff⟩

/-! ### Jumps -/

/-- Settles O50: both jumps have the same target, and JAL links. -/
theorem jumpResult : Obligations.JumpResult := by
  intro s target hd
  rw [← jumpTarget_eq]
  exact ⟨exec_transfer (o := .taken (jumpTarget s.pc target)) rfl (transferInSlot_normal _ hd) rfl,
    exec_link (o := .taken (jumpTarget s.pc target)) rfl (transferInSlot_normal _ hd) rfl⟩

theorem jumpRegister_ok {s : State} {rs : Reg} (h : Usable32 s (s.reg rs)) : jumpRegister s rs = .ok (lowWord s rs) :=
  narrow_of_usable .nonCanonicalAddress h

theorem jumpRegister_error {s : State} {rs : Reg} (h : ¬ Usable32 s (s.reg rs)) :
    jumpRegister s rs = .error (.unpredictable .nonCanonicalAddress) :=
  narrow_of_not_usable .nonCanonicalAddress h

/-- JALR with one register as source and link, and with two (R254). -/
theorem jalrEffect_same (rs : Reg) (s : State) : jalrEffect rs rs s = .error (.unpredictable .linkRegisterSource) :=
  if_pos rfl

theorem jalrEffect_ne {rs rd : Reg} (h : rs ≠ rd) (s : State) :
    jalrEffect rs rd s = (do
      let t ← jumpRegister s rs
      return { writes := [(.x rd, linkValue s.pc)], outcome := .taken t }) := if_neg h

/-- Settles O51: a usable register is the target. -/
theorem jumpRegisterResult : Obligations.JumpRegisterResult := by
  intro s rs rd hd hu
  refine ⟨exec_transfer (o := .taken (lowWord s rs)) ?jr (transferInSlot_normal _ hd) rfl,
    fun hne => exec_link (o := .taken (lowWord s rs)) ?jalr (transferInSlot_normal _ hd) rfl⟩
  case jr => rw [effectOf, jrEffect, jumpRegister_ok hu]; rfl
  case jalr => rw [effectOf, jalrEffect_ne hne, jumpRegister_ok hu]; rfl

/-- Settles O52: the link check stands before the narrowing of the register. -/
theorem transferOperandFaults : Obligations.TransferOperandFaults := by
  intro s rs rd imm hd
  have raises : ∀ (reason : UnpredictableReason) (i : Instr), effectOf i s = .error (.unpredictable reason) →
      exec i s = .next (faultedWith s (.unpredictable reason) (encode i)) :=
    fun _ i h => exec_of_raise h (transferInSlot_normal i hd)
  simp only [List.forall_mem_cons, List.not_mem_nil, false_imp_iff, implies_true, and_true]
  refine ⟨⟨raises _ _ rfl, raises _ _ rfl, raises _ _ (jalrEffect_same rs s)⟩,
    fun hu => ⟨raises _ _ ?jr, fun hne => raises _ _ ?jalr⟩⟩
  case jr => rw [effectOf, jrEffect, jumpRegister_error hu]; rfl
  case jalr => rw [effectOf, jalrEffect_ne hne, jumpRegister_error hu]; rfl

/-! ### Bad targets -/

/-- A narrowed register is its low word (R241). -/
theorem eq_lowWord_of_jumpRegister {s : State} {rs : Reg} {a : Word} (h : jumpRegister s rs = .ok a) :
    a = lowWord s rs := by
  rcases narrow_cases s.cfg .nonCanonicalAddress (s.reg rs) with ⟨he, _⟩ | ⟨he, _⟩ <;> cases h.symm.trans he
  rfl

/-- The outcome of JR and JALR is the low word of the register (R253, R254). -/
theorem outcome_of_jumpRegister {i : Instr} {s : State} {rs rd : Reg} {f : Effect} (hi : i = .jr rs ∨ i = .jalr rs rd)
    (h : effectOf i s = .ok f) : f.outcome = .taken (lowWord s rs) := by
  rcases hi with rfl | rfl
  · obtain ⟨a, ha, h⟩ := bind_ok h
    cases h
    rw [eq_lowWord_of_jumpRegister ha]
  · by_cases hne : rs = rd
    · rw [effectOf, hne, jalrEffect_same] at h
      cases h
    · rw [effectOf, jalrEffect_ne hne] at h
      obtain ⟨a, ha, h⟩ := bind_ok h
      cases h
      rw [eq_lowWord_of_jumpRegister ha]

theorem branchIf_target_aligned {s : State} {c : Bool} {imm : BitVec 16} {a : Word} (hpc : s.pc.toNat % 4 = 0)
    (h : (branchIf s c imm).outcome = .taken a) : a.toNat % 4 = 0 := by
  cases c <;> cases h
  exact branchTarget_aligned imm hpc

/-- A linking branch has the outcome of the branch (R249). -/
theorem outcome_of_branchAndLink {s : State} {rs : Reg} {c : Bool} {imm : BitVec 16} {f : Effect}
    (h : branchAndLink s rs c imm = .ok f) : f.outcome = (branchIf s c imm).outcome := by
  unfold branchAndLink at h
  split at h <;> cases h
  rfl

/-- From an aligned address, only JR and JALR have a target that is not aligned (R255). -/
theorem target_aligned_or_jumpRegister {i : Instr} {s : State} {f : Effect} {a : Word} (hpc : s.pc.toNat % 4 = 0)
    (h : effectOf i s = .ok f) (ho : f.outcome = .taken a) :
    a.toNat % 4 = 0 ∨ (∃ rs, i = .jr rs) ∨ ∃ rs rd, i = .jalr rs rd := by
  cases i
  case jr rs => exact .inr (.inl ⟨rs, rfl⟩)
  case jalr rs rd => exact .inr (.inr ⟨rs, rd, rfl⟩)
  case beq | bne | blez | bgtz | bltz | bgez =>
    cases h
    exact .inl (branchIf_target_aligned hpc ho)
  case bltzal | bgezal => exact .inl (branchIf_target_aligned hpc ((outcome_of_branchAndLink h).symm.trans ho))
  case j | jal =>
    cases h
    cases ho
    exact .inl (jumpTarget_aligned _ _)
  all_goals
    rcases outcome_of_effect h with hn | hc | hc
    · cases ho.symm.trans hn
    · cases hc
    · cases hc

/-- An instruction that completes with a target pending has that target as its outcome (R120). -/
theorem outcome_of_slotTaken {i : Instr} {s t : State} {a : Word} (h : exec i s = .next t) (ht : t.status = .running)
    (hd : t.delay = .slotTaken a) : ∃ f, effectOf i s = .ok f ∧ f.outcome = .taken a := by
  rcases exec_next h with ⟨f, hf, _, rfl⟩ | ⟨r, rfl⟩
  · refine ⟨f, hf, ?_⟩
    rw [State.commit_delay] at hd
    cases ho : f.outcome <;> rw [ho] at hd <;> cases hd
    rfl
  · cases ht

/-- A completed JR or JALR leaves the low word of the register pending (R253, R254). -/
theorem slotTaken_of_jumpRegister {i : Instr} {s t : State} {rs rd : Reg} (hi : i = .jr rs ∨ i = .jalr rs rd)
    (h : exec i s = .next t) (ht : t.status = .running) : t.delay = .slotTaken (lowWord s rs) := by
  rcases exec_next h with ⟨f, hf, _, rfl⟩ | ⟨r, rfl⟩
  · rw [State.commit_delay, outcome_of_jumpRegister hi hf, BranchOutcome.nextDelay]
  · cases ht

/-- Settles O53: by the targets' values, the register's low word, and the fetch at the target. -/
theorem badTargetFaultsAtItsFetch : Obligations.BadTargetFaultsAtItsFetch := by
  refine ⟨fun i s t a hpc h ht hd hbad => ?_, fun s t rs rd h ht => ?_, fun s t a hd h ht hstop => ?_⟩
  · obtain ⟨f, hf, ho⟩ := outcome_of_slotTaken h ht hd
    exact (target_aligned_or_jumpRegister hpc hf ho).resolve_left hbad
  · rcases h with h | h
    · exact slotTaken_of_jumpRegister (rd := rd) (.inl rfl) h ht
    · exact slotTaken_of_jumpRegister (.inr rfl) h ht
  · obtain ⟨⟨htaken, _⟩, _⟩ := completed_of_step h (by simp [ht]) (by simp [ht])
    obtain rfl := htaken a hd
    obtain ⟨hmis, hunmapped, _⟩ := fetchReadsWordOrFaults t ⟨.inr ht, hstop⟩
    exact ⟨fun h0 => ⟨hmis h0, rfl⟩, fun h0 hnone => ⟨hunmapped h0 hnone, rfl⟩⟩

end Sys2Proof.Machine
end

section
/-! SUPPORT and PROOF of O58, LoaderClassifiesAndNormalizes, and O59, MountBuildsTwoRegions (R307 to R311): the two
reorderings, index by index along their own recursion, and the AddressSpace that `mount` builds. -/

namespace Sys2Proof.Machine

/-! ### Detection -/

/-- The three magic sequences tell the formats apart (R307). -/
theorem detectFormat_iff (bytes : List Byte) :
    (detectFormat bytes = .bigEndian ↔ bytes.take 4 = [0x80#8, 0x37#8, 0x12#8, 0x40#8]) ∧
    (detectFormat bytes = .byteSwapped ↔ bytes.take 4 = [0x37#8, 0x80#8, 0x40#8, 0x12#8]) ∧
    (detectFormat bytes = .littleEndian ↔ bytes.take 4 = [0x40#8, 0x12#8, 0x37#8, 0x80#8]) := by
  unfold detectFormat
  dsimp only
  split
  · next h => simp [h]
  · split
    · next h => simp [h]
    · split
      · next h => simp [h]
      · simp_all

/-! ### Reordering -/

@[simp] theorem length_swapPairs (bytes : List Byte) : (swapPairs bytes).length = bytes.length := by
  induction bytes using swapPairs.induct with
  | case1 a b rest ih => simp [swapPairs, ih]
  | case2 | case3 => rfl

@[simp] theorem length_reverseGroups (bytes : List Byte) : (reverseGroups bytes).length = bytes.length := by
  induction bytes using reverseGroups.induct with
  | case1 a b c d rest ih => simp [reverseGroups, ih]
  | case2 | case3 | case4 | case5 => rfl

@[simp] theorem length_normalizeBytes (kind : FormatKind) (bytes : List Byte) :
    (normalizeBytes kind bytes).length = bytes.length := by
  cases kind <;> simp [normalizeBytes]

/-- Each 16-bit pair is swapped (R308). -/
theorem swapPairs_getElem? (bytes : List Byte) {k : Nat} (h : 2 * k + 1 < bytes.length) :
    (swapPairs bytes)[2 * k]? = bytes[2 * k + 1]? ∧ (swapPairs bytes)[2 * k + 1]? = bytes[2 * k]? := by
  induction bytes using swapPairs.induct generalizing k with
  | case1 a b rest ih =>
    cases k with
    | zero => exact ⟨rfl, rfl⟩
    | succ k => exact ih (by simp only [List.length_cons] at h; omega)
  | case2 | case3 => simp at h

/-- A last odd byte is copied (R309). -/
theorem swapPairs_getElem?_last (bytes : List Byte) {k : Nat} (h : 2 * k + 1 = bytes.length) :
    (swapPairs bytes)[2 * k]? = bytes[2 * k]? := by
  induction bytes using swapPairs.induct generalizing k with
  | case1 a b rest ih =>
    cases k with
    | zero => simp at h
    | succ k => exact ih (by simp only [List.length_cons] at h; omega)
  | case2 | case3 => rfl

/-- Each 32-bit group is reversed (R308). -/
theorem reverseGroups_getElem? (bytes : List Byte) {k j : Nat} (h : 4 * k + 3 < bytes.length) (hj : j < 4) :
    (reverseGroups bytes)[4 * k + j]? = bytes[4 * k + (3 - j)]? := by
  induction bytes using reverseGroups.induct generalizing k with
  | case1 a b c d rest ih =>
    cases k with
    | zero => interval_cases j <;> rfl
    | succ k =>
      rw [show 4 * (k + 1) + j = 4 * k + j + 4 by omega, show 4 * (k + 1) + (3 - j) = 4 * k + (3 - j) + 4 by omega]
      exact ih (by simp only [List.length_cons] at h; omega)
  | case2 | case3 | case4 | case5 => simp only [List.length_cons, List.length_nil] at h; omega

/-- A last partial group is copied (R309). -/
theorem reverseGroups_getElem?_last (bytes : List Byte) {k j : Nat} (h : bytes.length ≤ 4 * k + 3) :
    (reverseGroups bytes)[4 * k + j]? = bytes[4 * k + j]? := by
  induction bytes using reverseGroups.induct generalizing k with
  | case1 a b c d rest ih =>
    cases k with
    | zero => simp only [List.length_cons] at h; omega
    | succ k =>
      rw [show 4 * (k + 1) + j = 4 * k + j + 4 by omega]
      exact ih (by simp only [List.length_cons] at h; omega)
  | case2 | case3 | case4 | case5 => rfl

/-- The bytes of the image, once its kind is known (R308). -/
theorem bytes_loadCartridge {bytes : List Byte} {kind : FormatKind} (h : (loadCartridge bytes).kind = kind) :
    (loadCartridge bytes).bytes = normalizeBytes kind bytes :=
  congrArg (normalizeBytes · bytes) h

/-- Settles O58: the kind decides which reordering the bytes are. -/
theorem loaderClassifiesAndNormalizes : Obligations.LoaderClassifiesAndNormalizes := by
  intro bytes
  obtain ⟨hbig, hswapped, hlittle⟩ := detectFormat_iff bytes
  refine ⟨hbig, hswapped, hlittle, length_normalizeBytes _ _, ?same, ?swapped, ?little⟩
  case same => rintro (h | h) <;> exact bytes_loadCartridge h
  case swapped =>
    intro h
    rw [bytes_loadCartridge h, normalizeBytes]
    exact ⟨fun k => swapPairs_getElem? bytes, fun k => swapPairs_getElem?_last bytes⟩
  case little =>
    intro h
    rw [bytes_loadCartridge h, normalizeBytes]
    exact ⟨fun k j => reverseGroups_getElem? bytes, fun k j _ => reverseGroups_getElem?_last bytes⟩

/-! ### Mounting -/

/-- The map that `mount` would build is legal under the conditions of R311, given an RDRAM in range (R7, R51). -/
theorem mapOk_mountedMemory {base : Word} {size : Nat} (image : CartridgeImage) (hsize : 0 < size)
    (hend : base.toNat + size ≤ 0x100000000) :
    (mountedMemory base size image).mapOk = true ↔
      0x10000000 + image.bytes.length ≤ 0x100000000 ∧
      (image.bytes = [] ∨ base.toNat + size ≤ 0x10000000 ∨ 0x10000000 + image.bytes.length ≤ base.toNat) := by
  rw [Memory.mapOk_iff, ← List.length_eq_zero_iff]
  exact ⟨fun ⟨_, _, h⟩ => h, fun h => ⟨hsize, hend, h⟩⟩

/-- Settles O59: the conditions are those of a legal map, and the mounted memory lists the image's bytes only. -/
theorem mountBuildsTwoRegions : Obligations.MountBuildsTwoRegions := by
  intro base size image hsize hend
  have hok := mapOk_mountedMemory image hsize hend
  refine ⟨fun hlen hapart => ⟨mountedMemory base size image, if_pos (hok.2 ⟨hlen, hapart⟩), fun g => ?_,
    fun k hk => cellsGet_cellsOfBytes cartridgeBase image.bytes hk,
    fun a ha => cellsGet_cellsOfBytes_outside cartridgeBase image.bytes ha⟩, fun h => if_neg fun hm => ?_⟩
  · rw [Memory.mem_regions_iff, ← List.length_pos_iff, Nat.pos_iff_ne_zero]
    rfl
  · obtain ⟨hlen, hapart⟩ := hok.1 hm
    exact h.elim (absurd hlen) (absurd hapart)

end Sys2Proof.Machine
end

section
/-! SUPPORT and PROOF of O60, HostAccessIsChecked (R71, R134, R138, R139): each operation of the host by the checks it
passes. -/

namespace Sys2Proof.Machine

/-- A register write changes the register file only (R21, R138). -/
theorem State.setReg_eq_with_x (s : State) (r : Reg) (v : Dword) : s.setReg r v = { s with x := (s.setReg r v).x } := by
  unfold State.setReg
  split <;> rfl

/-- A read that succeeds answers the load at its address (R56, R58). -/
theorem Memory.eq_load_of_read {m : Memory} {a : Word} {n : Width} {v : Dword} (h : m.read a n = .ok v) :
    v = m.load a.toNat n.bytes := by
  rcases m.read_cases a n with ⟨he, _⟩ | ⟨he, _⟩ | ⟨_, he, _⟩ <;> cases h.symm.trans he
  rfl

/-- Settles O60: an index is compared with 32, and an access is passed or refused by its checks. -/
theorem hostAccessIsChecked : Obligations.HostAccessIsChecked := by
  intro s
  refine ⟨fun k hk => ?getRegister,
    fun k v hk => ⟨s.setReg (BitVec.ofNat 5 k) v, ?setRegister, fun r => s.reg_setReg _ r v, rfl,
      s.setReg_eq_with_x _ v⟩,
    fun k v hk => ?index, fun a n v h => ?read, fun a n k h => ?readFails,
    fun a n v h => ⟨{ s with mem := s.mem.store a.toNat n.bytes v }, ?write, rfl, by simp [KeepsMap],
      fun b hb => Memory.byteAt_store_other s.mem v hb, fun hwf k hk => ?readBack⟩, fun a n v k h => ?writeFails,
    fun p q rest => rfl⟩
  case getRegister => simp [hostCall, getRegister, answering, hk]
  case setRegister => simp [hostCall, setRegister, changing, hk]
  case index => simp [hostCall, getRegister, setRegister, answering, changing, Nat.not_lt.2 hk]
  case read =>
    refine ⟨by simp [hostCall, hostRead, answering, h], ?_⟩
    obtain rfl := Memory.eq_load_of_read h
    exact ⟨s.mem.toNat_load _ _, fun k hk => s.mem.byte_load _ hk n.bytes_le⟩
  case readFails => simp [hostCall, hostRead, answering, h]
  case write => simp [hostCall, hostWrite, changing, h]
  case readBack =>
    obtain ⟨_, hrising, _⟩ := (Memory.wf_iff s.mem).1 hwf
    exact Memory.byteAt_store s.mem v hrising hk
  case writeFails => simp [hostCall, hostWrite, changing, h]

end Sys2Proof.Machine
end
